-- ==== Sys2Proof/Word.lean ====
section
/-! DEFINITION. The word types of the EP0-ENGINE: bytes of packet memory and of the descriptor ROM, 16-bit endpoint
registers, buffer-table words and SETUP fields (spec/00_scope.md R8: bit 0 is the least significant bit, everything is
unsigned). -/

namespace Sys2Proof

/-- One byte: packet memory, descriptor ROM, linear buffers, `bRequest` (R70). -/
abbrev Byte := BitVec 8

/-- One 16-bit word: an endpoint register, `ISTR`, a buffer-table word, a 16-bit SETUP field (R40, R44, R76, R101). -/
abbrev Half := BitVec 16

end Sys2Proof
end

