-- ==== Sys2Proof/Config.lean ====
section
/-! DEFINITION. The parameters of the engine (spec/00_scope.md R6): the decided constants, the OPEN parameters as plain
data (`Config`), the external handlers and the one environment draw that has no other source, as opaque constants. -/

namespace Sys2Proof

/-- `N_EP`, the endpoint table bound (R6, decided 8 by D6). -/
abbrev nEp : Nat := 8

/-- `BUMP_INIT` = 8 * N_EP, the bump pointer after a rewind (R6, D6). -/
abbrev bumpInit : Nat := 64

/-- `WAIT_BOUND`, the start value of `wait_ctr` (R6, D9); no rule depends on the number. -/
abbrev waitBound : Nat := 1000000

/-- The default of the OPEN parameter `RQ_HID_SET_FEATURE` (R6, R103, D13). -/
abbrev rqHidSetFeatureDefault : Byte := 0x09#8

/-- The four endpoint types of R41; the codes are in `EpType.code`. -/
inductive EpType where
  | bulk
  | control
  | isochronous
  | interrupt
  deriving DecidableEq, Repr, Inhabited

/-- The handler reference of an endpoint (R27): the control handler or the external function `H[n]`. -/
inductive HandlerRef where
  | ep0
  | ext (n : Nat)
  deriving DecidableEq, Repr, Inhabited

/-- One entry of the endpoint table (R21 to R27); also the snapshot a handler receives. -/
structure Endpoint where
  allocated : Bool
  type      : EpType
  txBase    : Half
  txSize    : Half
  rxBase    : Half
  rxSize    : Half
  rxCount   : BitVec 10
  rxFlag    : Bool
  txFlag    : Bool
  setupFlag : Bool
  status    : Half
  handler   : HandlerRef
  deriving DecidableEq, Repr, Inhabited

/-- A WRITE_IRQ issued by an external handler (R27, R280): endpoint number and linear buffer. -/
structure HandlerWrite where
  n    : BitVec 4
  data : List Byte
  deriving DecidableEq, Repr, Inhabited

/-- What an external handler does (R27, D49): the WRITE_IRQ operations it issues, in order, and the word it returns. -/
structure HandlerAction where
  writes : List HandlerWrite
  word   : Half
  deriving DecidableEq, Repr, Inhabited

/-- `H[n]` as the spec leaves it: any total function of the snapshot (R27, D49). It has no body, so nothing can be
proved of its values (assumption 2). -/
opaque Config.extHandler : Nat → Endpoint → HandlerAction

/-- The SIE's choice of `EP_ID` at a read for which the schedule of the state lists no choice (R44, R335): a free value,
applied to the count of such reads (assumption 11). -/
opaque Config.freeEpId : Nat → BitVec 4

/-- Which function an endpoint's `EXT(n)` stands for. `param` is the unconstrained `H[n]`; the other two are the concrete
handlers the spec writes down, the keep-all handler of spec/95_test_vectors.md section 2 and the report handler of R261. -/
inductive ExtHandler where
  | keepAll
  | report (data : List Byte)
  | param
  deriving DecidableEq, Repr, Inhabited

/-- `ADDR_APPLY_MODE` (R6, R240, D10): the source forbids guessing between the two. -/
inductive AddrApplyMode where
  | compare
  | latched
  deriving DecidableEq, Repr, Inhabited

/-- The eight descriptor blobs of R47 and R181. -/
inductive Blob where
  | dev
  | cfg
  | str0
  | str1
  | str2
  | str3
  | qual
  | hidRep
  deriving DecidableEq, Repr, Inhabited

/-- A byte of a blob at an index the blob does not have, which the engine reads where the ROM parameters break R190 (R192,
U13): a free value (assumption 15). -/
opaque Config.freeRomByte : Blob → Nat → Byte

/-- The contents of the descriptor ROM (R47), a parameter of the model (R6 `ROM_*`, U13). -/
structure Rom where
  dev    : List Byte
  cfg    : List Byte
  qual   : List Byte
  str0   : List Byte
  str1   : List Byte
  str2   : List Byte
  str3   : List Byte
  hidRep : List Byte
  deriving DecidableEq, Repr, Inhabited

/-- The OPEN parameters of R6. `ext` has a function for index 0 as well: R6 gives `H[n]` for n = 1 .. N_EP-1 only, and R161
lets ALLOCATE 0 with `hsel` = 1 install `EXT(0)` (DESIGN CHOICE, assumption 30). -/
structure Config where
  pmaSize         : Nat
  ep0Size         : Nat
  addrApplyMode   : AddrApplyMode
  rqHidSetFeature : Byte
  ep1Size         : Byte
  rom             : Rom
  ext             : Vector ExtHandler 8
  deriving DecidableEq, Repr

/-- `SCRATCH_CAP` = EP0_SIZE (R6, D8). -/
abbrev Config.scratchCap (c : Config) : Nat := c.ep0Size

/-- The constraints R6 puts on the OPEN parameters. -/
structure Config.wf (c : Config) : Prop where
  ep0Size  : c.ep0Size = 8 ∨ c.ep0Size = 16 ∨ c.ep0Size = 32 ∨ c.ep0Size = 64
  pmaEven  : c.pmaSize % 2 = 0
  pmaLower : bumpInit + 2 * c.ep0Size ≤ c.pmaSize
  pmaUpper : c.pmaSize ≤ 1024
  rqHid    : c.rqHidSetFeature ≠ 0x0A#8

end Sys2Proof
end

