-- ==== Sys2Proof/Syntax.lean ====
section
/-! DEFINITION. The operations of spec/opcode_table.json, one constructor per row, with every operand the encoding
carries (spec/30_encoding.md R100 to R112), and the three kinds of word they are fetched from. -/

namespace Sys2Proof

/-- The operand ports of the command port (R108): the command byte, the endpoint number, and the operands of ALLOCATE and
of the two write operations. The linear buffer's length is the operand `len`. -/
structure Port where
  c      : Byte
  n      : BitVec 4
  type   : BitVec 2
  txSize : Half
  rxSize : Half
  hsel   : BitVec 1
  data   : List Byte
  deriving DecidableEq, Repr, Inhabited

/-- The three formats of R100: the 8-byte Setup Packet as the 64-bit word `W` of R101, the interrupt-status word, and the
command byte with its operand ports. -/
inductive FetchWord where
  | setup (w : BitVec 64)
  | istr  (w : Half)
  | cmd   (p : Port)
  deriving DecidableEq, Repr

/-- The operations. SETUP rows carry the fields their mask leaves free (R101, R105), IRQ rows the endpoint number (R106),
CMD rows the operands of R108. -/
inductive Instr where
  -- format SETUP, in the order of R105
  | getStatus          (wValue wIndex wLength : Half)
  | getDescDevice      (wIndex wLength : Half)
  | getDescConfig      (wIndex wLength : Half)
  | getDescString0     (wIndex wLength : Half)
  | getDescString1     (wIndex wLength : Half)
  | getDescString2     (wIndex wLength : Half)
  | getDescString3     (wIndex wLength : Half)
  | getDescQualifier   (wIndex wLength : Half)
  | getDescUnknown     (wValue wIndex wLength : Half)
  | getConfiguration   (wValue wIndex wLength : Half)
  | stdDevGetUnknown   (bRequest : Byte) (wValue wIndex wLength : Half)
  | setAddress         (wValue wIndex wLength : Half)
  | setConfiguration   (wValue wIndex wLength : Half)
  | stdDevSetUnknown   (bRequest : Byte) (wValue wIndex wLength : Half)
  | getDescHidReport   (wIndex wLength : Half)
  | clearFeatureEp     (dir : BitVec 1) (wValue wIndex wLength : Half)
  | setIdle            (wValue wIndex wLength : Half)
  | hidSetFeature      (wValue wIndex wLength : Half)
  | fallback           (bmRequestType bRequest : Byte) (wValue wIndex wLength : Half)
  -- format IRQ (R106)
  | irqReset
  | irqCtrOut          (n : BitVec 4)
  | irqCtrIn           (n : BitVec 4)
  -- format CMD (R108)
  | getState
  | allocate           (n : BitVec 4) (type : EpType) (txSize rxSize : Half) (hsel : BitVec 1)
  | write              (n : BitVec 4) (data : List Byte)
  | writeIrq           (n : BitVec 4) (data : List Byte)
  | read               (n : BitVec 4)
  deriving DecidableEq, Repr

end Sys2Proof
end

