-- ==== Sys2Proof/WellFormed.lean ====
section
/-! DEFINITION. When a term of `Instr` is an operation some word stands for: the catch-all rows carry only what no
earlier row selects (spec/30_encoding.md R105), endpoint numbers of IRQ rows lie in the table (R111), and a linear
buffer's length fits the 16-bit operand `len` (R108). -/

namespace Sys2Proof

/-- The `wValue` of rows 2 to 8 of R105, the descriptors the device recipient reaches (R182). -/
def deviceDescriptorKeys : List Half :=
  [0x0100#16, 0x0200#16, 0x0300#16, 0x0301#16, 0x0302#16, 0x0303#16, 0x0600#16]

/-- Rows 1 to 18 of R105 leave this (bmRequestType, bRequest, wValue) to FALLBACK. -/
def fallbackSelected (rqHid bm rq : Byte) (wValue : Half) : Bool :=
  bm != 0x80#8 && bm != 0x00#8 &&
  !(bm == 0x81#8 && rq == 0x06#8 && wValue == 0x2200#16) &&
  !((bm == 0x02#8 || bm == 0x82#8) && rq == 0x01#8) &&
  !(bm == 0x21#8 && (rq == 0x0A#8 || rq == rqHid))

/-- The well-formed operations under the parameter `RQ_HID_SET_FEATURE`. -/
def Instr.wellFormed (rqHid : Byte) : Instr → Bool
  | .getDescUnknown v _ _ => !deviceDescriptorKeys.contains v
  | .stdDevGetUnknown rq _ _ _ => rq != 0x00#8 && rq != 0x06#8 && rq != 0x08#8
  | .stdDevSetUnknown rq _ _ _ => rq != 0x05#8 && rq != 0x09#8
  | .hidSetFeature _ _ _ => rqHid != 0x0A#8
  | .fallback bm rq v _ _ => fallbackSelected rqHid bm rq v
  | .irqCtrOut n => decide (n.toNat < nEp)
  | .irqCtrIn n => decide (n.toNat < nEp)
  | .write _ data => decide (data.length < 65536)
  | .writeIrq _ data => decide (data.length < 65536)
  | .getStatus _ _ _ => true
  | .getDescDevice _ _ => true
  | .getDescConfig _ _ => true
  | .getDescString0 _ _ => true
  | .getDescString1 _ _ => true
  | .getDescString2 _ _ => true
  | .getDescString3 _ _ => true
  | .getDescQualifier _ _ => true
  | .getConfiguration _ _ _ => true
  | .setAddress _ _ _ => true
  | .setConfiguration _ _ _ => true
  | .getDescHidReport _ _ => true
  | .clearFeatureEp _ _ _ _ => true
  | .setIdle _ _ _ => true
  | .irqReset => true
  | .getState => true
  | .allocate _ _ _ _ _ => true
  | .read _ => true

end Sys2Proof
end

