-- ==== Sys2Proof/Decode.lean ====
section
/-! DEFINITION. Decoding of the three formats of spec/30_encoding.md and, after it, the encoder written from the same
tables. -/

namespace Sys2Proof

/-! ## Format SETUP: the fields of R101 as slices of the word `W = setup[7] : … : setup[0]` -/

/-- `bmRequestType`, W[7:0]. -/
def bmRequestTypeOf (w : BitVec 64) : Byte := w.extractLsb' 0 8
/-- `bRequest`, W[15:8]. -/
def bRequestOf (w : BitVec 64) : Byte := w.extractLsb' 8 8
/-- `wValue`, W[31:16]. -/
def wValueOf (w : BitVec 64) : Half := w.extractLsb' 16 16
/-- `wIndex`, W[47:32]. -/
def wIndexOf (w : BitVec 64) : Half := w.extractLsb' 32 16
/-- `wLength`, W[63:48]. -/
def wLengthOf (w : BitVec 64) : Half := w.extractLsb' 48 16

/-- The rows of R105 for bmRequestType 0x80, the GET group (rows 1 to 11). -/
def decodeGetGroup (rq : Byte) (v i l : Half) : Instr :=
  if rq = 0x00#8 then .getStatus v i l
  else if rq = 0x06#8 then
    if v = 0x0100#16 then .getDescDevice i l
    else if v = 0x0200#16 then .getDescConfig i l
    else if v = 0x0300#16 then .getDescString0 i l
    else if v = 0x0301#16 then .getDescString1 i l
    else if v = 0x0302#16 then .getDescString2 i l
    else if v = 0x0303#16 then .getDescString3 i l
    else if v = 0x0600#16 then .getDescQualifier i l
    else .getDescUnknown v i l
  else if rq = 0x08#8 then .getConfiguration v i l
  else .stdDevGetUnknown rq v i l

/-- The rows of R105 for bmRequestType 0x00, the SET group (rows 12 to 14). -/
def decodeSetGroup (rq : Byte) (v i l : Half) : Instr :=
  if rq = 0x05#8 then .setAddress v i l
  else if rq = 0x09#8 then .setConfiguration v i l
  else .stdDevSetUnknown rq v i l

/-- R105, R202: the classification of a Setup Packet by its fields, as the tree the rule states beside its mask and match
table. No 8-byte value is illegal (R111). `rqHid` is the parameter `RQ_HID_SET_FEATURE`. -/
def decodeFields (rqHid bm rq : Byte) (v i l : Half) : Instr :=
  if bm = 0x80#8 then decodeGetGroup rq v i l
  else if bm = 0x00#8 then decodeSetGroup rq v i l
  else if bm = 0x81#8 ∧ rq = 0x06#8 ∧ v = 0x2200#16 then .getDescHidReport i l
  else if (bm = 0x02#8 ∨ bm = 0x82#8) ∧ rq = 0x01#8 then .clearFeatureEp (bm.extractLsb' 7 1) v i l
  else if bm = 0x21#8 ∧ rq = 0x0A#8 then .setIdle v i l
  else if bm = 0x21#8 ∧ rq = rqHid then .hidSetFeature v i l
  else .fallback bm rq v i l

/-- R105 on the 64-bit word. -/
def decodeSetup (rqHid : Byte) (w : BitVec 64) : Instr :=
  decodeFields rqHid (bmRequestTypeOf w) (bRequestOf w) (wValueOf w) (wIndexOf w) (wLengthOf w)

/-! ## Format IRQ (R106) -/

/-- R106: the transaction-complete rows of a word with bit 15 set, selected by DIR. -/
def decodeCtr (w : Half) : Option Instr :=
  if w &&& 0x8010#16 = 0x8010#16 then some (.irqCtrOut (w.extractLsb' 0 4))
  else if w &&& 0x8010#16 = 0x8000#16 then some (.irqCtrIn (w.extractLsb' 0 4))
  else none

/-- R106: the rows are not exclusive; the reset row is the first of those that match (R251). -/
def decodeIstr (w : Half) : Option Instr :=
  if w &&& 0x0400#16 = 0x0400#16 then some .irqReset else decodeCtr w

/-! ## Format CMD (R108) -/

/-- The type code of R41. -/
def EpType.code : EpType → BitVec 2
  | .bulk => 0#2
  | .control => 1#2
  | .isochronous => 2#2
  | .interrupt => 3#2

/-- The endpoint type a 2-bit code stands for (R41: all four codes are legal). -/
def EpType.ofCode (c : BitVec 2) : EpType :=
  if c = 0#2 then .bulk else if c = 1#2 then .control else if c = 2#2 then .isochronous else .interrupt

/-- Why a command selects no operation. -/
inductive CmdError where
  /-- command codes 5 to 7 and a non-zero c[7:3] (R111, R295, U6) -/
  | reservedCommand (c : Byte)
  /-- a linear buffer longer than the 16-bit operand `len` can say (R108) -/
  | bufferTooLong
  deriving DecidableEq, Repr

/-- Why a word selects no operation. -/
inductive DecodeError where
  | cmd (e : CmdError)
  /-- an interrupt-status word with neither bit 15 nor bit 10 (R106) -/
  | noCondition
  deriving DecidableEq, Repr

/-- R108: the command byte selects the operation, c[7:3] must be 0. -/
def decodeCmd (p : Port) : Except CmdError Instr :=
  if p.c = 0x00#8 then .ok .getState
  else if p.c = 0x01#8 then .ok (.allocate p.n (EpType.ofCode p.type) p.txSize p.rxSize p.hsel)
  else if p.c = 0x02#8 then
    if p.data.length < 65536 then .ok (.write p.n p.data) else .error .bufferTooLong
  else if p.c = 0x03#8 then
    if p.data.length < 65536 then .ok (.writeIrq p.n p.data) else .error .bufferTooLong
  else if p.c = 0x04#8 then .ok (.read p.n)
  else .error (.reservedCommand p.c)

/-- The decoder of all three formats: total, rejecting by name. -/
def decode (rqHid : Byte) : FetchWord → Except DecodeError Instr
  | .setup w => .ok (decodeSetup rqHid w)
  | .istr w => match decodeIstr w with
    | some i => .ok i
    | none => .error .noCondition
  | .cmd p => match decodeCmd p with
    | .ok i => .ok i
    | .error e => .error (.cmd e)

/-! ## The encoder -/

/-- A Setup Packet from its five fields (R101): `bmRequestType` in bits 7:0 up to `wLength` in bits 63:48. -/
def packSetup (bm rq : Byte) (v i l : Half) : BitVec 64 := l ++ i ++ v ++ rq ++ bm

/-- The ports of a command that uses none of the operands. -/
def Port.plain (c : Byte) : Port := ⟨c, 0, 0, 0, 0, 0, []⟩

/-- The word of an operation, from the encoding tables R105, R106 and R108. -/
def encode (rqHid : Byte) : Instr → FetchWord
  | .getStatus v i l => .setup (packSetup 0x80#8 0x00#8 v i l)
  | .getDescDevice i l => .setup (packSetup 0x80#8 0x06#8 0x0100#16 i l)
  | .getDescConfig i l => .setup (packSetup 0x80#8 0x06#8 0x0200#16 i l)
  | .getDescString0 i l => .setup (packSetup 0x80#8 0x06#8 0x0300#16 i l)
  | .getDescString1 i l => .setup (packSetup 0x80#8 0x06#8 0x0301#16 i l)
  | .getDescString2 i l => .setup (packSetup 0x80#8 0x06#8 0x0302#16 i l)
  | .getDescString3 i l => .setup (packSetup 0x80#8 0x06#8 0x0303#16 i l)
  | .getDescQualifier i l => .setup (packSetup 0x80#8 0x06#8 0x0600#16 i l)
  | .getDescUnknown v i l => .setup (packSetup 0x80#8 0x06#8 v i l)
  | .getConfiguration v i l => .setup (packSetup 0x80#8 0x08#8 v i l)
  | .stdDevGetUnknown rq v i l => .setup (packSetup 0x80#8 rq v i l)
  | .setAddress v i l => .setup (packSetup 0x00#8 0x05#8 v i l)
  | .setConfiguration v i l => .setup (packSetup 0x00#8 0x09#8 v i l)
  | .stdDevSetUnknown rq v i l => .setup (packSetup 0x00#8 rq v i l)
  | .getDescHidReport i l => .setup (packSetup 0x81#8 0x06#8 0x2200#16 i l)
  | .clearFeatureEp dir v i l => .setup (packSetup (dir ++ 0x02#7) 0x01#8 v i l)
  | .setIdle v i l => .setup (packSetup 0x21#8 0x0A#8 v i l)
  | .hidSetFeature v i l => .setup (packSetup 0x21#8 rqHid v i l)
  | .fallback bm rq v i l => .setup (packSetup bm rq v i l)
  | .irqReset => .istr 0x0400#16
  | .irqCtrOut n => .istr (0x8010#16 ||| n.setWidth 16)
  | .irqCtrIn n => .istr (0x8000#16 ||| n.setWidth 16)
  | .getState => .cmd (Port.plain 0x00#8)
  | .allocate n t tx rx h => .cmd ⟨0x01#8, n, t.code, tx, rx, h, []⟩
  | .write n data => .cmd { Port.plain 0x02#8 with n := n, data := data }
  | .writeIrq n data => .cmd { Port.plain 0x03#8 with n := n, data := data }
  | .read n => .cmd { Port.plain 0x04#8 with n := n }

/-! ## The rows of the opcode table, as R105 prints them -/

/-- A row of format SETUP of spec/opcode_table.json: its mask and match on the 64-bit word. -/
structure SetupRow where
  mask : BitVec 64
  pat  : BitVec 64
  deriving DecidableEq, Repr

/-- The nineteen rows of R105, in their order; row 18's request code is the parameter. -/
def setupRows (rqHid : Byte) : List SetupRow :=
  [ ⟨0x0000FFFF#64, 0x00000080#64⟩, ⟨0xFFFFFFFF#64, 0x01000680#64⟩, ⟨0xFFFFFFFF#64, 0x02000680#64⟩,
    ⟨0xFFFFFFFF#64, 0x03000680#64⟩, ⟨0xFFFFFFFF#64, 0x03010680#64⟩, ⟨0xFFFFFFFF#64, 0x03020680#64⟩,
    ⟨0xFFFFFFFF#64, 0x03030680#64⟩, ⟨0xFFFFFFFF#64, 0x06000680#64⟩, ⟨0x0000FFFF#64, 0x00000680#64⟩,
    ⟨0x0000FFFF#64, 0x00000880#64⟩, ⟨0x000000FF#64, 0x00000080#64⟩ ] ++
  [ ⟨0x0000FFFF#64, 0x00000500#64⟩, ⟨0x0000FFFF#64, 0x00000900#64⟩, ⟨0x000000FF#64, 0x00000000#64⟩,
    ⟨0xFFFFFFFF#64, 0x22000681#64⟩, ⟨0x0000FF7F#64, 0x00000102#64⟩, ⟨0x0000FFFF#64, 0x00000A21#64⟩,
    ⟨0x0000FFFF#64, (rqHid ++ 0x21#8).setWidth 64⟩, ⟨0x00000000#64, 0x00000000#64⟩ ]

/-- The row of R105 (numbered from 0) a SETUP operation stands in; none for the other formats. -/
def Instr.setupRow : Instr → Option Nat
  | .getStatus _ _ _ => some 0
  | .getDescDevice _ _ => some 1
  | .getDescConfig _ _ => some 2
  | .getDescString0 _ _ => some 3
  | .getDescString1 _ _ => some 4
  | .getDescString2 _ _ => some 5
  | .getDescString3 _ _ => some 6
  | .getDescQualifier _ _ => some 7
  | .getDescUnknown _ _ _ => some 8
  | .getConfiguration _ _ _ => some 9
  | .stdDevGetUnknown _ _ _ _ => some 10
  | .setAddress _ _ _ => some 11
  | .setConfiguration _ _ _ => some 12
  | .stdDevSetUnknown _ _ _ _ => some 13
  | .getDescHidReport _ _ => some 14
  | .clearFeatureEp _ _ _ _ => some 15
  | .setIdle _ _ _ => some 16
  | .hidSetFeature _ _ _ => some 17
  | .fallback _ _ _ _ _ => some 18
  | .irqReset => none
  | .irqCtrOut _ => none
  | .irqCtrIn _ => none
  | .getState => none
  | .allocate _ _ _ _ _ => none
  | .write _ _ => none
  | .writeIrq _ _ => none
  | .read _ => none

/-- "The first row whose (W & mask) == match holds is the operation" (R105), as the number of that row. -/
def firstRow (rqHid : Byte) (w : BitVec 64) : Option Nat :=
  (setupRows rqHid).findIdx? fun r => w &&& r.mask == r.pat

/-! ## The host's reading of the opcode table -/

/-- The word of `nbits` bits as the format of that width: 8 bytes are a Setup Packet, 2 an interrupt-status word, 1 a
command byte whose operand ports are zero (assumptions 18 and 28). -/
def tableFetchWord (nbits w : Nat) : Option FetchWord :=
  if nbits = 64 then some (.setup (BitVec.ofNat 64 w))
  else if nbits = 16 then some (.istr (BitVec.ofNat 16 w))
  else if nbits = 8 then some (.cmd (Port.plain (BitVec.ofNat 8 w)))
  else none

/-- The operation the decoder reads from a word numbered as spec/opcode_table.json numbers it, with the parameter
`RQ_HID_SET_FEATURE` at the default the table's row has. -/
def decodeTableWord (nbits w : Nat) : Option Instr :=
  match tableFetchWord nbits w with
  | none => none
  | some f => match decode rqHidSetFeatureDefault f with
    | .ok i => some i
    | .error _ => none

end Sys2Proof
end

