-- ==== Sys2Proof/Machine/Rom.lean ====
section
/-! DEFINITION. The contents of the descriptor ROM (spec/42_descriptor_store.md R185 to R190) built from the `ROM_*`
parameters, the constraints R190 names, and the test configuration of spec/00_scope.md R6. -/

namespace Sys2Proof.Machine

/-- A 16-bit value as two bytes, low byte first (R74, R185). -/
def leBytes (w : Half) : List Byte := [w.extractLsb' 0 8, w.extractLsb' 8 8]

/-- R185: the 18-byte device descriptor, with the max packet size and the three identifiers as parameters. -/
def romDev (ep0Size : Byte) (vid pid bcd : Half) : List Byte :=
  [0x12#8, 0x01#8, 0x00#8, 0x02#8, 0x00#8, 0x00#8, 0x00#8, ep0Size] ++ leBytes vid ++ leBytes pid ++ leBytes bcd ++
  [0x01#8, 0x02#8, 0x03#8, 0x01#8]

/-- R186: the 10-byte device qualifier. -/
def romQual (ep0Size : Byte) : List Byte :=
  [0x0A#8, 0x06#8, 0x00#8, 0x02#8, 0x00#8, 0x00#8, 0x00#8, ep0Size, 0x01#8, 0x00#8]

/-- R187: the 34-byte configuration descriptor, with the report length and the endpoint's packet size as parameters. -/
def romCfg (hidRepLen : Half) (ep1Size : Byte) : List Byte :=
  [0x09#8, 0x02#8, 0x22#8, 0x00#8, 0x01#8, 0x01#8, 0x00#8, 0x80#8, 0x32#8] ++
  [0x09#8, 0x04#8, 0x00#8, 0x00#8, 0x01#8, 0x03#8, 0x01#8, 0x01#8, 0x00#8] ++
  [0x09#8, 0x21#8, 0x10#8, 0x01#8, 0x00#8, 0x01#8, 0x22#8] ++ leBytes hidRepLen ++
  [0x07#8, 0x05#8, 0x81#8, 0x03#8, ep1Size, 0x00#8, 0x01#8]

/-- R188: a string blob: its own length, the type byte 0x03, then the 16-bit units of the text, low byte first. -/
def romString (units : List Half) : List Byte :=
  BitVec.ofNat 8 (2 + 2 * units.length) :: 0x03#8 :: (units.map leBytes).flatten

/-- The ROM that the parameters `ROM_VID`, `ROM_PID`, `ROM_BCD_DEVICE`, `EP1_SIZE`, the three string texts and the HID
report determine; the language-ID string is the decided default of R188. -/
def romOf (ep0Size : Byte) (vid pid bcd : Half) (ep1Size : Byte) (s1 s2 s3 : List Half) (hidRep : List Byte) : Rom where
  dev    := romDev ep0Size vid pid bcd
  cfg    := romCfg (BitVec.ofNat 16 hidRep.length) ep1Size
  qual   := romQual ep0Size
  str0   := romString [0x0409#16]
  str1   := romString s1
  str2   := romString s2
  str3   := romString s3
  hidRep := hidRep

/-- The bytes of a blob (R180, R181). -/
def romBlob (r : Rom) : Blob → List Byte
  | .dev => r.dev
  | .cfg => r.cfg
  | .str0 => r.str0
  | .str1 => r.str1
  | .str2 => r.str2
  | .str3 => r.str3
  | .qual => r.qual
  | .hidRep => r.hidRep

/-- R188: a string blob names its own length, has the type byte 0x03, and an even length of at least 2. -/
def stringBlobOk (b : List Byte) : Bool :=
  (b.getD 0 0).toNat == b.length && b.getD 1 0 == 0x03#8 && b.length % 2 == 0 && decide (2 ≤ b.length)

/-- R190: the constraints between the ROM parameters and the rest of the configuration. -/
def romConsistent (c : Config) : Bool :=
  c.rom.dev.length == 18 && (c.rom.dev.getD 0 0).toNat == 18 && (c.rom.dev.getD 7 0).toNat == c.ep0Size &&
  c.rom.qual.length == 10 && (c.rom.qual.getD 0 0).toNat == 10 && (c.rom.qual.getD 7 0).toNat == c.ep0Size &&
  c.rom.cfg.length == 34 && (c.rom.cfg.drop 2).take 2 == [0x22#8, 0x00#8] &&
  (c.rom.cfg.drop 25).take 2 == leBytes (BitVec.ofNat 16 c.rom.hidRep.length) &&
  (c.rom.cfg.drop 31).take 2 == [c.ep1Size, 0x00#8] && decide (c.rom.hidRep.length < 65536) &&
  stringBlobOk c.rom.str0 && stringBlobOk c.rom.str1 && stringBlobOk c.rom.str2 && stringBlobOk c.rom.str3

/-- The test values of R6 and the test ROM of spec/95_test_vectors.md section 2. -/
def testConfig : Config where
  pmaSize         := 512
  ep0Size         := 64
  addrApplyMode   := .compare
  rqHidSetFeature := rqHidSetFeatureDefault
  ep1Size         := 0x08#8
  rom             := romOf 0x40#8 0x1234#16 0x5678#16 0x0100#16 0x08#8 [0x0041#16, 0x0042#16]
                       [0x004B#16, 0x0042#16, 0x0044#16] [0x0030#16, 0x0030#16, 0x0031#16]
                       ((List.range 130).map (BitVec.ofNat 8))
  ext             := Vector.replicate 8 .keepAll

end Sys2Proof.Machine
end

