-- ==== Sys2Proof/Machine/State.lean ====
section
/-! DEFINITION. The state of the engine, of the peripheral interface it shares with the SIE, and of the schedule of the
three agents (spec/10_state.md R20 to R52), with the power-on state of R50. -/

namespace Sys2Proof.Machine

/-- Packet memory: (offset, byte) pairs, offsets strictly rising, no entry equal to what an unlisted offset reads as
(R71; assumption 4). -/
abbrev Memory := List Host.Cell

/-- The control-transfer phase of endpoint 0 (R33). -/
inductive Phase where
  | waitSetup
  | dispatch
  | dataStageOut
  | dataStageIn
  | statusStage
  deriving DecidableEq, Repr

/-- Where a running invocation stands between two steps (assumption 6). -/
inductive Point where
  /-- about to test the reset condition (R250, first `if`) -/
  | resetTest
  /-- about to test the transaction-complete condition (R250, second `if`) -/
  | ctrTest
  /-- the word read with CTR = 1 is in `istrLatch`; about to decode and execute it (R253) -/
  | serve
  /-- inside the control handler, state Dispatch: about to decode `setup` (R202) -/
  | dispatch
  /-- inside an external handler: WRITE_IRQ operations of it are outstanding (R27, R256) -/
  | ext
  /-- the bounded wait has ended by its bound (R233) -/
  | timeout
  /-- the final write is done; only the exit is left (R258) -/
  | leave
  deriving DecidableEq, Repr

/-- The dispatcher sequencer (R34): IDLE, RUN (with the point the invocation has reached) or WAIT. -/
inductive Seq where
  | idle
  | run (p : Point)
  | wait
  deriving DecidableEq, Repr

/-- `dev.status` (R31); the codes are in `devStatusCode`. Code 3 is never produced (U2). -/
inductive DevStatus where
  | defaultState
  | addressed
  | configured
  deriving DecidableEq, Repr

/-- The events of the diagnostic log (R36, R310). -/
inductive DiagEvent where
  | unrecognized (bmRequestType bRequest : Byte) (wValue : Half)
  | txTimeout (curOff curRem : Half)
  deriving DecidableEq, Repr

/-- The moves of agent SIE (R330 to R336), with the environment's choices: the bytes, and the data toggles a SETUP
leaves. The 8 bytes of a SETUP are given as the word `W` of R101. -/
inductive SieMove where
  | reset
  | setup (w : BitVec 64) (dtogRx dtogTx : Bool)
  | out (n : BitVec 4) (data : List Byte)
  | inTok (n : BitVec 4)
  | timeout
  deriving DecidableEq, Repr

/-- One line of a program (R116): a step of one agent. An application command says after how many of its accesses APP is
preempted, if it is (R317, assumption 9); `app` lets a preempted command go on. -/
inductive Line where
  | sie (m : SieMove)
  | irq
  | cmd (p : Port) (split : Option Nat)
  | app (split : Option Nat)
  deriving DecidableEq, Repr

/-- One shared access of an application operation (R79, R82), as WRITE and READ make them in the order of their
pseudocode (R285, R288). -/
inductive Access where
  /-- `Pma16[ep[n].tx_base + 2k] <- w` (R281) -/
  | storeUnit (n : BitVec 4) (k : Nat) (w : Half)
  /-- `BT[n].COUNT_TX <- c` (R281) -/
  | setCount (n : BitVec 4) (c : Half)
  /-- `r <- EPR[n]` of WRITE (R285) -/
  | readReg (n : BitVec 4)
  /-- the register write of WRITE, computed from the value read (R285) -/
  | armReg (n : BitVec 4)
  /-- unit k of a READ; the high byte is dropped when it is beyond the count (R288) -/
  | loadUnit (n : BitVec 4) (k : Nat) (keepHi : Bool)
  /-- the result of READ (R288) -/
  | finishRead (count : BitVec 10)
  deriving DecidableEq, Repr

/-- The result output of the command port (R108): of the last command that returned one. -/
inductive Result where
  | none
  | state (code : BitVec 2)
  | alloc (code : BitVec 3)
  | read (count : BitVec 10)
  deriving DecidableEq, Repr

/-- Device State (R31). -/
structure Dev where
  status      : DevStatus
  pendingAddr : BitVec 7
  config      : Byte
  deriving DecidableEq, Repr

/-- The complete state. The first three groups are R20's; the rest is the model's own, listed as such in INVENTORY.md. -/
structure State where
  -- configuration, never written (R6, R47; assumption 1)
  cfg         : Config
  -- the engine's registers (R21 to R37)
  ep          : Vector Endpoint 8
  bump        : Half
  setup       : BitVec 64
  scratch     : List Byte
  scratchLen  : Half
  dev         : Dev
  addrLatch   : Bool
  phase       : Phase
  seq         : Seq
  curOff      : Half
  curRem      : Half
  irqMasked   : Bool
  diagLog     : List DiagEvent
  txErr       : Bool
  waitCtr     : BitVec 20
  -- the peripheral interface (R40 to R46)
  epr         : Vector Half 8
  istrReset   : Bool
  istrIdle    : BitVec 5
  daddr       : Byte
  pma         : Memory
  -- observation (R334)
  wireIn      : List (BitVec 4 × List Byte)
  -- inside an invocation (assumption 6)
  istrLatch   : Half
  served      : BitVec 4
  txSrc       : List Byte
  hq          : List HandlerWrite
  hword       : Half
  -- the application side of the command port (assumptions 9, 23)
  result      : Result
  dst         : List Byte
  app         : List Access
  appReg      : Half
  appSplit    : Option Nat
  -- the schedule and the environment's choices (assumptions 7, 8, 11)
  program     : List Line
  race        : List (List SieMove)
  epIdDraws   : List (BitVec 4)
  drawCount   : Nat
  deriving DecidableEq, Repr

/-- Why the machine stops with a fault. -/
inductive Fault where
  /-- An engine access to packet memory outside [0, PMA_SIZE) or a unit access at an odd offset (R72, R73, R75, U3). Raised
  by the shared load and store operations. Safe: the spec defines no effect (assumption 13). -/
  | pmaAccess (addr : Nat)
  deriving DecidableEq, Repr

/-- Why the machine refuses a step. -/
inductive Refusal where
  /-- The instruction has no meaning yet. Raised by an arm of `exec` only. Safe. -/
  | notModelled (mnemonic : String)
  /-- Command codes 5 to 7 or a non-zero c[7:3] (R111, R295, U6). Raised by the fetch of a command. Safe. -/
  | reservedCommand (c : Byte)
  /-- A linear buffer longer than the operand `len` can say (R108). Raised by the fetch of a command. Safe. -/
  | bufferTooLong
  /-- A transaction-complete event with EP_ID >= N_EP (R111, U5). Raised by IRQ_CTR_OUT and IRQ_CTR_IN. Safe. -/
  | epIdOutOfRange (n : BitVec 4)
  /-- ALLOCATE with an odd `tx_size` (R75, R160, U4). Raised by ALLOCATE. Safe. -/
  | oddTxSize (size : Half)
  /-- WRITE, WRITE_IRQ or READ with n >= N_EP (R280, R288, U8). Raised by those three. Safe. -/
  | endpointOutOfRange (n : BitVec 4)
  /-- WRITE, WRITE_IRQ or READ on an endpoint that is not allocated (R280, R288, U8). Raised by those three and by an
  operation of format SETUP that stages a packet. Safe. -/
  | endpointNotAllocated (n : BitVec 4)
  /-- WRITE_IRQ issued while no invocation is in progress (R294, U9). Raised by WRITE_IRQ. Safe. -/
  | writeIrqOutsideInterrupt
  deriving DecidableEq, Repr

/-- The outcome of one step of this machine. -/
abbrev Out := Host.Outcome State Fault Refusal

/-- The all-zero endpoint record (R50, R170; assumption 26 for the handler reference). -/
def Endpoint.zero : Endpoint where
  allocated := false
  type      := .bulk
  txBase    := 0
  txSize    := 0
  rxBase    := 0
  rxSize    := 0
  rxCount   := 0
  rxFlag    := false
  txFlag    := false
  setupFlag := false
  status    := 0
  handler   := .ep0

/-- POR, the state before the first step of any agent (R50, R350, R353), with the test configuration of R6. The values R354
leaves unspecified are zero here (assumptions 3, 4); the model's own fields are empty (assumption 5). -/
def State.reset : State where
  cfg         := testConfig
  ep          := Vector.replicate 8 Endpoint.zero
  bump        := 64#16
  setup       := 0
  scratch     := List.replicate 64 0x00#8
  scratchLen  := 0
  dev         := { status := .defaultState, pendingAddr := 0, config := 0 }
  addrLatch   := false
  phase       := .waitSetup
  seq         := .idle
  curOff      := 0
  curRem      := 0
  irqMasked   := false
  diagLog     := []
  txErr       := false
  waitCtr     := 0
  epr         := Vector.replicate 8 0x0000#16
  istrReset   := false
  istrIdle    := 0
  daddr       := 0x00#8
  pma         := []
  wireIn      := []
  istrLatch   := 0
  served      := 0
  txSrc       := []
  hq          := []
  hword       := 0
  result      := .none
  dst         := []
  app         := []
  appReg      := 0
  appSplit    := none
  program     := []
  race        := []
  epIdDraws   := []
  drawCount   := 0

end Sys2Proof.Machine
end

