-- ==== Sys2Proof/Machine/Alg.lean ====
section
/-! DEFINITION. The Register/Status Algebra (spec/40_register_algebra.md R130 to R153): the eighteen transforms, the
words the engine composes from them, and the register write rule of spec/10_state.md R42. -/

namespace Sys2Proof.Machine

/-- The shape every transform has: `t(v) = (v & A) ^ X` (R110, R131). -/
def transform (a x v : Half) : Half := (v &&& a) ^^^ x

/-- R132. -/
def setValidRx (v : Half) : Half := transform 0xFFFF#16 0x3000#16 v
/-- R133. -/
def setNakRx (v : Half) : Half := transform 0xFFFF#16 0x2000#16 v
/-- R134. -/
def setStallRx (v : Half) : Half := transform 0xFFFF#16 0x1000#16 v
/-- R135. -/
def keepStatRx (v : Half) : Half := transform 0xCFFF#16 0x0000#16 v
/-- R136. -/
def setValidTx (v : Half) : Half := transform 0xFFFF#16 0x0030#16 v
/-- R137. -/
def setNakTx (v : Half) : Half := transform 0xFFFF#16 0x0020#16 v
/-- R138. -/
def setStallTx (v : Half) : Half := transform 0xFFFF#16 0x0010#16 v
/-- R139. -/
def keepStatTx (v : Half) : Half := transform 0xFFCF#16 0x0000#16 v
/-- R140. -/
def keepDtogRx (v : Half) : Half := transform 0xBFFF#16 0x0000#16 v
/-- R141. -/
def keepDtogTx (v : Half) : Half := transform 0xFFBF#16 0x0000#16 v
/-- R142. -/
def clearDtogRx (v : Half) : Half := transform 0xFFFF#16 0x0000#16 v
/-- R143. -/
def clearDtogTx (v : Half) : Half := transform 0xFFFF#16 0x0000#16 v
/-- R144. -/
def setDtogRx (v : Half) : Half := transform 0xFFFF#16 0x4000#16 v
/-- R145. -/
def setDtogTx (v : Half) : Half := transform 0xFFFF#16 0x0040#16 v
/-- R146. -/
def clearCtrRx (v : Half) : Half := transform 0x7FFF#16 0x0000#16 v
/-- R147. -/
def clearCtrTx (v : Half) : Half := transform 0xFF7F#16 0x0000#16 v
/-- R148. -/
def keepCtr (v : Half) : Half := transform 0x7F7F#16 0x8080#16 v
/-- R149: toggle-preserving, flag-clearing normalization. -/
def normalize (v : Half) : Half := clearCtrTx (clearCtrRx (keepDtogTx (keepDtogRx v)))

/-- `RET_TX` of R201: transmit VALID, receive NAK. -/
def retTx (s : Half) : Half := setValidTx (setNakRx s)
/-- `RET_RXD` of R201: receive VALID, transmit kept. -/
def retRxd (s : Half) : Half := setValidRx (keepStatTx s)
/-- `RET_CPL` of R201 and R241: both directions VALID, both toggles asked clear. -/
def retCpl (s : Half) : Half := setValidTx (setValidRx (clearDtogTx (clearDtogRx s)))
/-- The keep-all word of R242 and R256. -/
def retKeep (s : Half) : Half := keepStatTx (keepStatRx s)
/-- The word of the intermediate arm, R231. -/
def armMidWord (r : Half) : Half := normalize (setValidTx (setNakRx r))
/-- The word of WRITE, R285. -/
def writeWord (r : Half) : Half := keepCtr (keepDtogTx (keepDtogRx (setValidTx (setNakRx r))))

/-- `alloc_word(r, type, n)` of R165. -/
def allocWord (r : Half) (t : EpType) (n : BitVec 4) : Half :=
  (r &&& 0x4040#16) ||| ((r &&& 0x3000#16) ^^^ 0x3000#16) ||| ((r &&& 0x0030#16) ^^^ 0x0020#16) |||
    ((t.code.setWidth 16) <<< 9) ||| n.setWidth 16

/-- The register write rule `EPR[n] <-w v` (R42): flags and-ed, toggles exclusive-or-ed, SETUP kept, the rest replaced. -/
def writeRule (old v : Half) : Half :=
  ((old &&& v) &&& 0x8080#16) ||| ((old ^^^ v) &&& 0x7070#16) ||| (old &&& 0x0800#16) ||| (v &&& 0x070F#16)

end Sys2Proof.Machine
end

