-- ==== Sys2Proof/Machine/Mem.lean ====
section
/-! DEFINITION. Packet memory: bytes, 16-bit units with their byte order, and the canonical form
(spec/20_memory.md R71 to R79). -/

namespace Sys2Proof.Machine

/-- What an offset of packet memory that nothing has written reads as (R354 leaves the value open; assumption 4). -/
def Memory.unlisted (_a : Nat) : Byte := 0x00#8

/-- The byte at an offset (R72). -/
def Memory.read (m : Memory) (a : Nat) : Byte :=
  match m with
  | [] => Memory.unlisted a
  | (k, b) :: t => if k = a then b else Memory.read t a

/-- Store of one byte, keeping the canonical form. -/
def Memory.write (m : Memory) (a : Nat) (b : Byte) : Memory :=
  match m with
  | [] => if b = Memory.unlisted a then [] else [(a, b)]
  | (k, c) :: t =>
    if a < k then (if b = Memory.unlisted a then (k, c) :: t else (a, b) :: (k, c) :: t)
    else if a = k then (if b = Memory.unlisted a then t else (a, b) :: t)
    else (k, c) :: Memory.write t a b

/-- Every offset of the list lies above `lo` and the offsets rise; no entry equals what an unlisted offset reads as. -/
def Memory.wfFrom (lo : Nat) : Memory → Bool
  | [] => true
  | (k, b) :: t => decide (lo ≤ k) && b != Memory.unlisted k && Memory.wfFrom (k + 1) t

/-- The canonical form: offsets strictly rising, no entry equal to what an unlisted offset reads as. -/
def Memory.wf (m : Memory) : Bool := Memory.wfFrom 0 m

/-- Every listed offset lies in [0, size) (R71). -/
def Memory.within (m : Memory) (size : Nat) : Bool := m.all fun c => decide (c.1 < size)

/-- The low byte of a unit (R74). -/
def loByte (w : Half) : Byte := w.extractLsb' 0 8
/-- The high byte of a unit (R74). -/
def hiByte (w : Half) : Byte := w.extractLsb' 8 8
/-- A unit from its two bytes, `hi : lo` (R74). -/
def mkUnit (lo hi : Byte) : Half := hi ++ lo

/-- `Pma16[a]`, little-endian (R9, R74). -/
def Memory.read16 (m : Memory) (a : Nat) : Half := mkUnit (m.read a) (m.read (a + 1))

/-- `Pma16[a] <- w` (R73): the low byte at the lower offset. -/
def Memory.write16 (m : Memory) (a : Nat) (w : Half) : Memory := (m.write a (loByte w)).write (a + 1) (hiByte w)

/-- `MemRead(a, n)`: the n bytes from offset a, lowest offset first (R72). -/
def Memory.readBytes (m : Memory) (a : Nat) : Nat → List Byte
  | 0 => []
  | n + 1 => m.read a :: m.readBytes (a + 1) n

/-- Bytes stored one by one from offset a upward, as the SIE stores a packet (R332, R333). -/
def Memory.writeBytes (m : Memory) (a : Nat) : List Byte → Memory
  | [] => m
  | b :: bs => (m.write a b).writeBytes (a + 1) bs

/-- Units stored one after the other from offset a upward, as COPY_IN stores them (R281). -/
def Memory.writeUnits (m : Memory) (a : Nat) : List Half → Memory
  | [] => m
  | w :: ws => (m.write16 a w).writeUnits (a + 2) ws

end Sys2Proof.Machine
end

