-- ==== Sys2Proof/Machine/Operands.lean ====
section
/-! DEFINITION. Operand assembly (spec/30_encoding.md R115): the operands formed from fields, all zero-extended, and the
receive size code of spec/20_memory.md R77 with the granularity rule of spec/41_allocator.md R163. -/

namespace Sys2Proof.Machine

/-- The requested address of SET_ADDRESS, `wValue[6:0]` (R115, D33). -/
def requestedAddress (wValue : Half) : BitVec 7 := wValue.extractLsb' 0 7

/-- The configuration value of SET_CONFIGURATION, `wValue[7:0]` (R115, D33). -/
def configurationValue (wValue : Half) : Byte := wValue.extractLsb' 0 8

/-- The descriptor type, `wValue[15:8]` (R104). -/
def descriptorType (wValue : Half) : Byte := wValue.extractLsb' 8 8

/-- The descriptor index, `wValue[7:0]` (R104). -/
def descriptorIndex (wValue : Half) : Byte := wValue.extractLsb' 0 8

/-- The response length `min(blob_len, wLength)` (R183). -/
def responseLength (blobLen : Nat) (wLength : Half) : Nat := min blobLen wLength.toNat

/-- The number of 16-bit units a copy of c bytes takes, `(c + 1) / 2` (R115, R281). -/
def unitCount (c : Nat) : Nat := (c + 1) / 2

/-- The copy length `min(len, ep[n].tx_size)` of WRITE and WRITE_IRQ (R281). -/
def copyLength (len : Nat) (e : Endpoint) : Nat := min len e.txSize.toNat

/-- The count of READ, `min(ep[n].rx_count, ep[n].rx_size)` (R288). -/
def readCount (e : Endpoint) : Nat := min e.rxCount.toNat e.rxSize.toNat

/-- The units COPY_IN stores (R281): byte 2k low, byte 2k+1 high, the pad byte of an odd count 0x00. -/
def copyUnits : List Byte → List Half
  | [] => []
  | [lo] => [mkUnit lo 0x00#8]
  | lo :: hi :: t => mkUnit lo hi :: copyUnits t

/-- R163: the receive sizes the granularity rule accepts. -/
def rxGranularityOk (rxSize : Nat) : Bool :=
  rxSize % 2 == 0 && decide (rxSize ≤ 992) && (decide (rxSize < 64) || rxSize % 32 == 0)

/-- The receive size code of R77. -/
def sizeCode (rxSize : Nat) : Nat := if rxSize < 64 then rxSize / 2 else 31 + rxSize / 32

/-- The buffer size the SIE takes from a size code (R77). -/
def codeSize (code : Nat) : Nat := if code ≤ 31 then 2 * code else 32 * (code - 31)

/-- The `COUNT_RX` word ALLOCATE writes: the code in bits 15:10 (R77, R161). -/
def countRxWord (rxSize : Nat) : Half := BitVec.ofNat 16 (sizeCode rxSize) <<< 10

/-- The received count, `COUNT_RX[9:0]` (R76). -/
def receivedCount (w : Half) : BitVec 10 := w.extractLsb' 0 10

/-- The size code, `COUNT_RX[15:10]` (R76, R77). -/
def sizeCodeOf (w : Half) : BitVec 6 := w.extractLsb' 10 6

/-- `COUNT_RX` with its bits 9:0 replaced by a received count and bits 15:10 kept (R332, R333). -/
def withReceivedCount (w : Half) (count : Nat) : Half := (w &&& 0xFC00#16) ||| (BitVec.ofNat 10 count).setWidth 16

/-- The interrupting endpoint, `ISTR[3:0]` (R253). -/
def interruptingEndpoint (i : Half) : BitVec 4 := i.extractLsb' 0 4

/-- Byte i of the Setup Packet held as the word `W` (R101). -/
def setupByte (w : BitVec 64) (i : Nat) : Byte := w.extractLsb' (8 * i) 8

/-- The eight bytes of the Setup Packet in wire order (R101). -/
def setupBytes (w : BitVec 64) : List Byte := (List.range 8).map (setupByte w)

/-- The word `W = setup[7] : … : setup[0]` of a byte list in wire order (R101). -/
def setupWord : List Byte → BitVec 64
  | [] => 0
  | b :: bs => b.setWidth 64 ||| (setupWord bs <<< 8)

/-- The code of `dev.status` (R31): DEFAULT 0, ADDRESSED 1, CONFIGURED 2. -/
def devStatusCode : DevStatus → BitVec 2
  | .defaultState => 0#2
  | .addressed => 1#2
  | .configured => 2#2

end Sys2Proof.Machine
end

