-- ==== Sys2Proof/Machine/Access.lean ====
section
/-! DEFINITION. The one home of every indexed register: the endpoint table, the endpoint registers and the buffer-table
words (spec/10_state.md R21, R40 to R43; spec/20_memory.md R76). -/

namespace Sys2Proof.Machine

/-- `ep[n]`; the zero record for a number outside the table (no rule reads one). -/
def State.epAt (s : State) (n : Nat) : Endpoint := s.ep[n]?.getD Endpoint.zero

/-- `ep[n] <- e`. -/
def State.setEp (s : State) (n : Nat) (e : Endpoint) : State := { s with ep := s.ep.setIfInBounds n e }

/-- `EPR[n]`; 0 for a number outside the table (no rule reads one). -/
def State.eprAt (s : State) (n : Nat) : Half := s.epr[n]?.getD 0x0000#16

/-- A direct write of `EPR[n]`, as the SIE makes it (R43, R331 to R334). -/
def State.setEpr (s : State) (n : Nat) (v : Half) : State := { s with epr := s.epr.setIfInBounds n v }

/-- `EPR[n] <-w v`, the engine's write (R42, R43). -/
def State.writeEpr (s : State) (n : Nat) (v : Half) : State := s.setEpr n (writeRule (s.eprAt n) v)

/-- The offset of `BT[n].ADDR_TX` (R76). -/
def btAddrTx (n : Nat) : Nat := 8 * n
/-- The offset of `BT[n].COUNT_TX` (R76). -/
def btCountTx (n : Nat) : Nat := 8 * n + 2
/-- The offset of `BT[n].ADDR_RX` (R76). -/
def btAddrRx (n : Nat) : Nat := 8 * n + 4
/-- The offset of `BT[n].COUNT_RX` (R76). -/
def btCountRx (n : Nat) : Nat := 8 * n + 6

end Sys2Proof.Machine
end

