-- ==== Sys2Proof/Machine/Flags.lean ====
section
/-! DEFINITION. The fields of an endpoint register, the flags latched from it, and the derived interrupt-status word
(spec/10_state.md R25, R40, R41, R44; spec/60_exceptions.md R335). -/

namespace Sys2Proof.Machine

/-- CTR_RX, bit 15 (R40). -/
def ctrRx (w : Half) : Bool := w.getLsbD 15
/-- DTOG_RX, bit 14 (R40). -/
def dtogRx (w : Half) : Bool := w.getLsbD 14
/-- STAT_RX, bits 13:12 (R40). -/
def statRx (w : Half) : BitVec 2 := w.extractLsb' 12 2
/-- SETUP, bit 11 (R40). -/
def setupBit (w : Half) : Bool := w.getLsbD 11
/-- EP_TYPE, bits 10:9 (R40). -/
def epTypeField (w : Half) : BitVec 2 := w.extractLsb' 9 2
/-- EP_KIND, bit 8 (R40). -/
def epKind (w : Half) : Bool := w.getLsbD 8
/-- CTR_TX, bit 7 (R40). -/
def ctrTx (w : Half) : Bool := w.getLsbD 7
/-- DTOG_TX, bit 6 (R40). -/
def dtogTx (w : Half) : Bool := w.getLsbD 6
/-- STAT_TX, bits 5:4 (R40). -/
def statTx (w : Half) : BitVec 2 := w.extractLsb' 4 2
/-- EA, bits 3:0 (R40). -/
def epAddress (w : Half) : BitVec 4 := w.extractLsb' 0 4

/-- Status code STALL (R41). -/
def statStall : BitVec 2 := 1#2
/-- Status code NAK (R41). -/
def statNak : BitVec 2 := 2#2
/-- Status code VALID (R41). -/
def statValid : BitVec 2 := 3#2

/-- The snapshot latch of R254: status, the three flags of R25 from bits 15, 7 and 11, the rest of the record kept. -/
def latchFlags (e : Endpoint) (s : Half) : Endpoint :=
  { e with status := s, rxFlag := ctrRx s, txFlag := ctrTx s, setupFlag := setupBit s }

/-- `EPR[n]` has a transaction-complete flag set. -/
def State.flagged (s : State) (n : Nat) : Bool := ctrRx (s.eprAt n) || ctrTx (s.eprAt n)

/-- The endpoints with a transaction-complete flag set, the values EP_ID may take (R44, R335). -/
def State.flaggedList (s : State) : List Nat := (List.range nEp).filter s.flagged

/-- `ISTR.CTR`, derived (R44, R335). -/
def State.istrCtr (s : State) : Bool := (List.range nEp).any s.flagged

/-- The interrupt request `ISTR.RESET | ISTR.CTR` (R250, R315). -/
def State.irqRequest (s : State) : Bool := s.istrReset || s.istrCtr

/-- The interrupt-status word with the given endpoint in EP_ID; with CTR = 0, DIR and EP_ID read as the unspecified bits
`istrIdle` (R44, U1; assumption 12). -/
def State.istrWord (s : State) (n : Nat) : Half :=
  let reset : Half := if s.istrReset then 0x0400#16 else 0
  if s.istrCtr then
    0x8000#16 ||| reset ||| (if ctrRx (s.eprAt n) then 0x0010#16 else 0) ||| BitVec.ofNat 16 n
  else reset ||| s.istrIdle.setWidth 16

end Sys2Proof.Machine
end

