-- ==== Sys2Proof/Machine/Sie.lean ====
section
/-! DEFINITION. The environment agent SIE (spec/60_exceptions.md R330 to R337): each move with its precondition and its
effect, in one indivisible step. -/

namespace Sys2Proof.Machine

/-- EPR[0] after a SETUP (R332): CTR_RX and SETUP set, both statuses NAK, the toggles drawn, the rest kept. -/
def sieSetupReg (w : Half) (drx dtx : Bool) : Half :=
  (w &&& 0x078F#16) ||| 0xA820#16 ||| (if drx then 0x4000#16 else 0) ||| (if dtx then 0x0040#16 else 0)

/-- EPR[n] after an OUT (R333): CTR_RX set, SETUP cleared, STAT_RX NAK, DTOG_RX flipped, the rest kept. -/
def sieOutReg (w : Half) : Half := ((w ^^^ 0x4000#16) &&& 0x47FF#16) ||| 0xA000#16

/-- EPR[n] after an IN (R334): CTR_TX set, STAT_TX NAK, DTOG_TX flipped, the rest kept. -/
def sieInReg (w : Half) : Half := ((w ^^^ 0x0040#16) &&& 0xFFCF#16) ||| 0x00A0#16

/-- `DADDR.EF` (R45, R330). -/
def State.enabled (s : State) : Bool := s.daddr.getLsbD 7

/-- The number of bytes an IN sends, `BT[n].COUNT_TX[9:0]` (R76, R334). -/
def State.inLength (s : State) (n : Nat) : Nat := (receivedCount (s.pma.read16 (btCountTx n))).toNat

/-- The size of the receive buffer the SIE takes from the size code of endpoint n (R77, R333). -/
def State.rxBufferSize (s : State) (n : Nat) : Nat := codeSize (sizeCodeOf (s.pma.read16 (btCountRx n))).toNat

/-- The preconditions of the moves (R331 to R334, R336), and no other condition: R331's last sentence, that after SIE.RESET no
transaction can complete until the reset branch, is taken as what follows while every register still is 0x0000, not as a test
of `ISTR.RESET` (DEDUCED, assumption 35). -/
def State.sieEnabled (s : State) : SieMove → Bool
  | .reset => true
  | .setup _ _ _ =>
    s.enabled && epTypeField (s.eprAt 0) == EpType.code .control && !ctrRx (s.eprAt 0) &&
    (statRx (s.eprAt 0) == statNak || statRx (s.eprAt 0) == statValid) &&
    decide ((s.pma.read16 (btAddrRx 0)).toNat + 8 ≤ s.cfg.pmaSize)
  | .out n data =>
    s.enabled && decide (n.toNat < nEp) && statRx (s.eprAt n.toNat) == statValid && !ctrRx (s.eprAt n.toNat) &&
    decide (data.length ≤ s.rxBufferSize n.toNat) && decide (data.length ≤ 1023) &&
    decide ((s.pma.read16 (btAddrRx n.toNat)).toNat + s.rxBufferSize n.toNat ≤ s.cfg.pmaSize)
  | .inTok n =>
    s.enabled && decide (n.toNat < nEp) && statTx (s.eprAt n.toNat) == statValid &&
    decide ((s.pma.read16 (btAddrTx n.toNat)).toNat + s.inLength n.toNat ≤ s.cfg.pmaSize)
  | .timeout => s.seq == .wait && !s.istrCtr

/-- A reception into the receive buffer of endpoint n: the bytes one by one, then the received count (R332, R333). -/
def sieReceive (m : Memory) (n : Nat) (data : List Byte) : Memory :=
  let m := m.writeBytes (m.read16 (btAddrRx n)).toNat data
  m.write16 (btCountRx n) (withReceivedCount (m.read16 (btCountRx n)) data.length)

/-- The effects of the moves (R331 to R334, R336). -/
def State.sieEffect (s : State) : SieMove → State
  | .reset => { s with istrReset := true, epr := Vector.replicate 8 0x0000#16 }
  | .setup w drx dtx =>
    { s with pma := sieReceive s.pma 0 (setupBytes w) }.setEpr 0 (sieSetupReg (s.eprAt 0) drx dtx)
  | .out n data =>
    { s with pma := sieReceive s.pma n.toNat data }.setEpr n.toNat (sieOutReg (s.eprAt n.toNat))
  | .inTok n =>
    { s with wireIn := s.wireIn ++
        [(n, s.pma.readBytes (s.pma.read16 (btAddrTx n.toNat)).toNat (s.inLength n.toNat))] }.setEpr n.toNat
      (sieInReg (s.eprAt n.toNat))
  | .timeout => { s with seq := .run .timeout }

/-- A move of the SIE: its effect where its precondition holds; otherwise nothing visible to the engine changes (U12,
assumption 10). -/
def State.sieMove (s : State) (m : SieMove) : State := if s.sieEnabled m then s.sieEffect m else s

/-- Several moves in order. -/
def State.sieMoves (s : State) : List SieMove → State
  | [] => s
  | m :: ms => (s.sieMove m).sieMoves ms

end Sys2Proof.Machine
end

