-- ==== Sys2Proof/Machine/Ops.lean ====
section
/-! DEFINITION. The shared operations of the engine and of APP: one shared access after another, each with the SIE moves
that fall before it (spec/20_memory.md R79, R82), and the entry and exit of an interrupt (spec/60_exceptions.md R317,
R318). -/

namespace Sys2Proof.Machine

/-- Continue after an outcome that is a next state. -/
def andThen (o : Out) (k : State → Out) : Out :=
  match o with
  | .next s => k s
  | .fault r => .fault r
  | .refused r => .refused r

/-- The SIE moves scheduled before the next shared access take place (R82 (c); assumption 8). -/
def State.pause (s : State) : State :=
  match s.race with
  | [] => s
  | ms :: rest => { s with race := rest }.sieMoves ms

/-! ## Packet memory -/

/-- A unit access is possible: even offset, inside packet memory (R72, R73, R75). -/
def State.unitOk (s : State) (a : Nat) : Bool := a % 2 == 0 && decide (a + 2 ≤ s.cfg.pmaSize)

/-- `Pma16[a] <- w`, one access (R73). -/
def store16 (a : Nat) (w : Half) (s : State) : Out :=
  if s.unitOk a then .next { s.pause with pma := s.pause.pma.write16 a w } else .fault (.pmaAccess a)

/-- A read of `Pma16[a]`, one access (R72). -/
def load16 (a : Nat) (s : State) (k : Half → State → Out) : Out :=
  if s.unitOk a then k (s.pause.pma.read16 a) s.pause else .fault (.pmaAccess a)

/-- `count` unit reads from offset a upward, one access each: the bytes in order, and the state after them. -/
def readUnits (a : Nat) : Nat → State → List Byte × State
  | 0, s => ([], s)
  | count + 1, s =>
    let u := s.pause.pma.read16 a
    let r := readUnits (a + 2) count s.pause
    (loByte u :: hiByte u :: r.1, r.2)

/-- `MemRead(a, c)` as the engine makes it (R255): `(c + 1) / 2` unit reads, the high byte of an odd count dropped. -/
def loadBytes (a c : Nat) (s : State) (k : List Byte → State → Out) : Out :=
  if c = 0 then k [] s
  else if a % 2 = 0 ∧ a + 2 * unitCount c ≤ s.cfg.pmaSize then
    let r := readUnits a (unitCount c) s
    k (r.1.take c) r.2
  else .fault (.pmaAccess a)

/-! ## Registers -/

/-- `r <- EPR[n]`, one access (R43, R79). -/
def readReg (n : Nat) (s : State) (k : Half → State → Out) : Out := k (s.pause.eprAt n) s.pause

/-- `EPR[n] <-w v`, one access (R42, R43). -/
def writeReg (n : Nat) (v : Half) (s : State) : State := s.pause.writeEpr n v

/-- The SIE's choice of EP_ID among the flagged endpoints (R44, R335): the one there is, or the one the next draw names. A
draw that names none of them selects by its remainder; when the schedule lists no draw, a free one is taken (assumption
11). -/
def State.pickEp (s : State) : Nat × State :=
  match s.flaggedList with
  | [] => (0, s)
  | [n] => (n, s)
  | ns =>
    let d := match s.epIdDraws with
      | d :: _ => d.toNat
      | [] => (Config.freeEpId s.drawCount).toNat
    let s := match s.epIdDraws with
      | _ :: rest => { s with epIdDraws := rest }
      | [] => { s with drawCount := s.drawCount + 1 }
    (if ns.contains d then d else ns.getD (d % ns.length) 0, s)

/-- One read of `ISTR` as a word, with a choice of EP_ID (R44, R253, R335). -/
def readIstr (s : State) : Half × State :=
  let p := s.pause.pickEp
  (s.pause.istrWord p.1, p.2)

/-! ## Interrupt entry and exit -/

/-- Taking the interrupt (R317): exactly the mask and the sequencer change. Nothing is saved, there is no vector. -/
def enterInterrupt (s : State) : State := { s with irqMasked := true, seq := .run .resetTest }

/-- The exit of an invocation (R258, R318): the mask and the sequencer; nothing is restored. The cursor `cur_off`,
`cur_rem`, which holds no specified value while `seq` = IDLE (R34), keeps its last value (DESIGN CHOICE, assumption 31). -/
def exitInterrupt (s : State) : State := { s with irqMasked := false, seq := .idle }

/-- An invocation whose final write is done leaves (R258); any other outcome stays. -/
def finish (o : Out) : Out :=
  match o with
  | .next s => .next (if s.seq = .run .leave then exitInterrupt s else s)
  | .fault r => .fault r
  | .refused r => .refused r

end Sys2Proof.Machine
end

