-- ==== Sys2Proof/Machine/Dstore.lean ====
section
/-! DEFINITION. The Descriptor Store (spec/42_descriptor_store.md R180 to R192): the selector and the lengths. -/

namespace Sys2Proof.Machine

/-- `lookup(dtype, dindex)` (R181): exact match on the pair; any other pair finds nothing. -/
def lookup (dtype dindex : Byte) : Option Blob :=
  if dtype = 0x01#8 ∧ dindex = 0x00#8 then some .dev
  else if dtype = 0x02#8 ∧ dindex = 0x00#8 then some .cfg
  else if dtype = 0x03#8 ∧ dindex = 0x00#8 then some .str0
  else if dtype = 0x03#8 ∧ dindex = 0x01#8 then some .str1
  else if dtype = 0x03#8 ∧ dindex = 0x02#8 then some .str2
  else if dtype = 0x03#8 ∧ dindex = 0x03#8 then some .str3
  else if dtype = 0x06#8 ∧ dindex = 0x00#8 then some .qual
  else if dtype = 0x22#8 ∧ dindex = 0x00#8 then some .hidRep
  else none

/-- `Rom(blob)[i]` (R192); a free byte where the blob has none (U13, assumption 15). -/
def romByte (r : Rom) (b : Blob) (i : Nat) : Byte := (romBlob r b)[i]?.getD (Config.freeRomByte b i)

/-- The bytes the engine reads when it serves L bytes of a blob: the blob, and beyond its end what `romByte` gives (R180,
R192). -/
def romSource (r : Rom) (b : Blob) (len : Nat) : List Byte :=
  romBlob r b ++ (List.range (len - (romBlob r b).length)).map fun i => romByte r b ((romBlob r b).length + i)

/-- `blob_len` (R181): a string names its own length in its byte 0, the others have the lengths of the table. -/
def blobLen (r : Rom) : Blob → Nat
  | .dev => 18
  | .cfg => 34
  | .qual => 10
  | .str0 => (romByte r .str0 0).toNat
  | .str1 => (romByte r .str1 0).toNat
  | .str2 => (romByte r .str2 0).toNat
  | .str3 => (romByte r .str3 0).toNat
  | .hidRep => r.hidRep.length

end Sys2Proof.Machine
end

