-- ==== Sys2Proof/Machine/Xfer.lean ====
section
/-! DEFINITION. The transfer unit and the command port (spec/45_transfer_unit.md R280 to R295): COPY_IN, WRITE_IRQ, WRITE,
READ, GET_STATE, and the application operations that an invocation can split (spec/60_exceptions.md R317). -/

namespace Sys2Proof.Machine

/-- One shared access of WRITE, WRITE_IRQ or READ (R281, R285, R288). -/
def doAccess (a : Access) (s : State) : Out :=
  match a with
  | .storeUnit n k w => store16 ((s.epAt n.toNat).txBase.toNat + 2 * k) w s
  | .setCount n c => store16 (btCountTx n.toNat) c s
  | .readReg n => readReg n.toNat s fun r s => .next { s with appReg := r }
  | .armReg n => .next (writeReg n.toNat (writeWord s.appReg) s)
  | .loadUnit n k keepHi =>
    load16 ((s.epAt n.toNat).rxBase.toNat + 2 * k) s fun u s =>
      .next { s with dst := s.dst ++ (if keepHi then [loByte u, hiByte u] else [loByte u]) }
  | .finishRead count => .next { s with result := .read count }

/-- Accesses one after the other, in order. -/
def runAccesses : List Access → State → Out
  | [], s => .next s
  | a :: as, s => andThen (doAccess a s) (runAccesses as)

/-- The store accesses of COPY_IN from unit k upward. -/
def storeAccesses (n : BitVec 4) (k : Nat) : List Half → List Access
  | [] => []
  | w :: ws => .storeUnit n k w :: storeAccesses n (k + 1) ws

/-- `COPY_IN(n, data, len)` (R281): the units in ascending order, then the count; at most `tx_size` bytes. -/
def copyInAccesses (s : State) (n : BitVec 4) (data : List Byte) : List Access :=
  let c := copyLength data.length (s.epAt n.toNat)
  storeAccesses n 0 (copyUnits (data.take c)) ++ [.setCount n (BitVec.ofNat 16 c)]

/-- The accesses of WRITE (R285): COPY_IN, the read of the register, the separate write. -/
def writeAccesses (s : State) (n : BitVec 4) (data : List Byte) : List Access :=
  copyInAccesses s n data ++ [.readReg n, .armReg n]

/-- The unit reads of READ from unit k upward, for `left` bytes (R288). -/
def loadAccesses (n : BitVec 4) (k : Nat) : Nat → List Access
  | 0 => []
  | 1 => [.loadUnit n k false]
  | left + 2 => .loadUnit n k true :: loadAccesses n (k + 1) left

/-- The accesses of READ (R288). -/
def readAccesses (s : State) (n : BitVec 4) : List Access :=
  loadAccesses n 0 (readCount (s.epAt n.toNat)) ++ [.finishRead (BitVec.ofNat 10 (readCount (s.epAt n.toNat)))]

/-- An application operation: all of its accesses, or those up to the point where APP is preempted (R317, R370;
assumption 9). -/
def runApp (as : List Access) (s : State) : Out :=
  match s.appSplit with
  | none => runAccesses as s
  | some j => andThen (runAccesses (as.take j) s) fun t => .next { t with app := as.drop j, appSplit := none }

/-- A preempted application operation goes on with its remaining accesses. The precondition `allocated` = 1 (R280, U8) was
tested when it started and is not tested again (DESIGN CHOICE, assumption 9). -/
def resumeApp (split : Option Nat) (s : State) : Out := runApp s.app { s with app := [], appSplit := split }

/-- The precondition of WRITE, WRITE_IRQ and READ (R280, D40, U8): the operation runs on an allocated endpoint. -/
def onEndpoint (n : BitVec 4) (s : State) (k : Out) : Out :=
  if n.toNat < nEp then
    if (s.epAt n.toNat).allocated then k else .refused (.endpointNotAllocated n)
  else .refused (.endpointOutOfRange n)

/-- WRITE_IRQ inside an invocation (R280, R281): COPY_IN and nothing else. -/
def writeIrqOp (n : BitVec 4) (data : List Byte) (s : State) : Out :=
  onEndpoint n s (runAccesses (copyInAccesses s n data) s)

/-- GET_STATE (R290). -/
def execGetState (s : State) : Out := .next { s with result := .state (devStatusCode s.dev.status) }

/-- WRITE (R285). -/
def execWrite (n : BitVec 4) (data : List Byte) (s : State) : Out :=
  onEndpoint n s (runApp (writeAccesses s n data) s)

/-- WRITE_IRQ (R280): only while an invocation is in progress (R294, U9). -/
def execWriteIrq (n : BitVec 4) (data : List Byte) (s : State) : Out :=
  if s.seq = .idle then .refused .writeIrqOutsideInterrupt else writeIrqOp n data s

/-- READ (R288). -/
def execRead (n : BitVec 4) (s : State) : Out :=
  onEndpoint n s (runApp (readAccesses s n) { s with dst := [] })

end Sys2Proof.Machine
end

