-- ==== Sys2Proof/Machine/Alloc.lean ====
section
/-! DEFINITION. The Buffer-Table Allocator (spec/41_allocator.md R160 to R171): ALLOCATE and the internal rewind. -/

namespace Sys2Proof.Machine

/-- Result codes of ALLOCATE (R109). -/
inductive AllocCode where
  | ok
  | errOversize
  | errExhausted
  | errRxGranularity
  | errBadIndex
  deriving DecidableEq, Repr

/-- The numbers of R109. -/
def allocCodeNumber : AllocCode → BitVec 3
  | .ok => 0#3
  | .errOversize => 1#3
  | .errExhausted => 2#3
  | .errRxGranularity => 3#3
  | .errBadIndex => 4#3

/-- The checks of R161 in their order; the first that fails decides. -/
def allocCheck (pmaSize bump n txSize rxSize : Nat) : AllocCode :=
  if nEp ≤ n then .errBadIndex
  else if pmaSize < txSize ∨ pmaSize < rxSize then .errOversize
  else if pmaSize < bump + txSize + rxSize then .errExhausted
  else if rxGranularityOk rxSize then .ok
  else .errRxGranularity

/-- The entry ALLOCATE records (R161, R164): transmit buffer at the old `bump`, receive buffer after it. -/
def allocEntry (bump : Half) (n : Nat) (type : EpType) (txSize rxSize : Half) (hsel : BitVec 1) : Endpoint where
  allocated := true
  type      := type
  txBase    := bump
  txSize    := txSize
  rxBase    := bump + txSize
  rxSize    := rxSize
  rxCount   := 0
  rxFlag    := false
  txFlag    := false
  setupFlag := false
  status    := 0
  handler   := if hsel = 0#1 then .ep0 else .ext n

/-- The success branch of R161, in the order of its lines. -/
def allocApply (n : BitVec 4) (type : EpType) (txSize rxSize : Half) (hsel : BitVec 1) (s : State) : Out :=
  andThen (store16 (btAddrTx n.toNat) s.bump s) fun s =>
  andThen (store16 (btCountTx n.toNat) 0x0000#16 s) fun s =>
  andThen (store16 (btAddrRx n.toNat) (s.bump + txSize) s) fun s =>
  andThen (store16 (btCountRx n.toNat) (countRxWord rxSize.toNat) s) fun s =>
  let s := { s.setEp n.toNat (allocEntry s.bump n.toNat type txSize rxSize hsel) with bump := s.bump + txSize + rxSize }
  readReg n.toNat s fun r s => .next (writeReg n.toNat (allocWord r type n) s)

/-- ALLOCATE without its result output (R161): on failure nothing is written. -/
def allocOp (n : BitVec 4) (type : EpType) (txSize rxSize : Half) (hsel : BitVec 1) (s : State) : Out :=
  match allocCheck s.cfg.pmaSize s.bump.toNat n.toNat txSize.toNat rxSize.toNat with
  | .ok => allocApply n type txSize rxSize hsel s
  | _ => .next s

/-- ALLOCATE (R160, R161): the result code goes to the port; an odd `tx_size` is refused (U4). -/
def execAllocate (n : BitVec 4) (type : EpType) (txSize rxSize : Half) (hsel : BitVec 1) (s : State) : Out :=
  if txSize.getLsbD 0 then .refused (.oddTxSize txSize)
  else
    let code := allocCheck s.cfg.pmaSize s.bump.toNat n.toNat txSize.toNat rxSize.toNat
    andThen (allocOp n type txSize rxSize hsel s) fun s => .next { s with result := .alloc (allocCodeNumber code) }

/-- REWIND (R170): the bump pointer and every table entry; the buffer table in packet memory is not touched. -/
def rewind (s : State) : State := { s with bump := 64#16, ep := Vector.replicate 8 Endpoint.zero }

end Sys2Proof.Machine
end

