-- ==== Sys2Proof/Machine/Ep0.lean ====
section
/-! DEFINITION. The Endpoint-0 Control State Machine (spec/43_ep0_control.md R200 to R245): the transmit procedure with
its bounded wait, the deferred address, and one meaning per operation of format SETUP. -/

namespace Sys2Proof.Machine

/-! ## Return to the dispatcher -/

/-- The snapshot word `s` of the handler in progress, `ep[n].status` of the endpoint being served (R26, R201). -/
def State.snapshotWord (s : State) : Half := (s.epAt s.served.toNat).status

/-- The handler returns the word w: the dispatcher's final write `EPR[n] <-w normalize(w)` (R201, R257). It clears CTR_RX of
a SETUP received during a wait or after the snapshot (R257, R318, R365 (b), against R244; DEDUCED, assumption 34). -/
def handlerReturn (w : Half) (s : State) : Out :=
  .next { writeReg s.served.toNat (normalize w) s with seq := .run .leave }

/-- `return RET_TX(s)` (R201). -/
def returnTx (s : State) : Out := handlerReturn (retTx s.snapshotWord) s

/-! ## The transmit procedure (R230 to R233) -/

/-- `ARM_MID()` (R231), on a fresh read, then the start of the bounded wait (R232). It clears both flags of endpoint 0, that
of a SETUP received during the wait before included (R231, against R244; DEDUCED, assumption 34). -/
def armMidAndWait (s : State) : Out :=
  readReg 0 s fun r s =>
    .next { writeReg 0 (armMidWord r) s with seq := .wait, waitCtr := BitVec.ofNat 20 waitBound }

/-- One turn of the loop of R230: stage the next chunk, then return on a short last chunk or arm and wait. -/
def sendChunk (s : State) : Out :=
  let m := (s.epAt 0).txSize.toNat
  let l := min s.curRem.toNat m
  andThen (writeIrqOp 0 ((s.txSrc.drop s.curOff.toNat).take l) s) fun s =>
    let s := { s with curOff := s.curOff + BitVec.ofNat 16 l, curRem := s.curRem - BitVec.ofNat 16 l }
    if s.curRem = 0 ∧ l < m then returnTx s else armMidAndWait s

/-- `TX0(src, L)` (R230) and the return of `RET_TX(s)` that follows it. -/
def tx0 (src : List Byte) (len : Nat) (s : State) : Out :=
  if len < (s.epAt 0).txSize.toNat then andThen (writeIrqOp 0 (src.take len) s) returnTx
  else sendChunk { s with curOff := 0, curRem := BitVec.ofNat 16 len, txSrc := src }

/-- The bounded wait has ended with a completion (R230, R232): the trailing zero-length packet, or the next chunk. -/
def resumeTx (s : State) : Out :=
  if s.curRem = 0 then andThen (writeIrqOp 0 [] s) returnTx else sendChunk s

/-- `TIMEOUT_TAIL()` (R233, R312) and the return that follows it. -/
def timeoutTail (s : State) : Out :=
  returnTx { s with diagLog := s.diagLog ++ [.txTimeout s.curOff s.curRem], txErr := true }

/-! ## The helper procedures of R201 -/

/-- `ACK()`. -/
def acknowledge (s : State) : Out :=
  andThen (writeIrqOp 0 [] s) fun s => returnTx { s with phase := .statusStage }

/-- `UNREC()`: the diagnostic entry, then the acknowledgement. -/
def unrec (bm rq : Byte) (wValue : Half) (s : State) : Out :=
  acknowledge { s with diagLog := s.diagLog ++ [.unrecognized bm rq wValue] }

/-- `SERVE(bytes, L)`. -/
def serve (bytes : List Byte) (len : Nat) (s : State) : Out :=
  tx0 bytes len { s with phase := if 0 < len then .dataStageIn else .statusStage }

/-- GET_DESCRIPTOR: the lookup and the truncation to `min(blob_len, wLength)` (R180, R183, R184). -/
def serveDescriptor (bm : Byte) (wValue wLength : Half) (s : State) : Out :=
  match lookup (descriptorType wValue) (descriptorIndex wValue) with
  | none => unrec bm 0x06#8 wValue s
  | some b =>
    let len := responseLength (blobLen s.cfg.rom b) wLength
    serve (romSource s.cfg.rom b len) len s

/-! ## Completions (R240 to R242) -/

/-- `DADDR <- 0x80 | dev.pending_addr ; dev.status <- ADDRESSED` (R240). -/
def setAddressNow (s : State) : State :=
  { s with daddr := 0x80#8 ||| s.dev.pendingAddr.setWidth 8, dev := { s.dev with status := .addressed } }

/-- `ADDRESS_APPLY()` (R240) in both modes of the parameter `ADDR_APPLY_MODE`. -/
def addressApply (s : State) : State :=
  match s.cfg.addrApplyMode with
  | .compare =>
    let s := s.pause
    if s.daddr.extractLsb' 0 7 ≠ s.dev.pendingAddr then setAddressNow s.pause else s
  | .latched => if s.addrLatch then { setAddressNow s.pause with addrLatch := false } else s

/-- `EP0_HANDLER` (R200), up to the point where a latched SETUP is to be decoded: that is the next step's fetch. -/
def ep0Handler (s : State) : Out :=
  let e := s.epAt s.served.toNat
  if e.rxFlag && e.setupFlag then .next { s with phase := .dispatch, seq := .run .dispatch }
  else
    let s := if e.txFlag then addressApply s else s
    if e.rxFlag || e.txFlag then handlerReturn (retCpl e.status) { s with phase := .waitSetup }
    else handlerReturn (retKeep e.status) s

/-! ## Standard requests to the device, GET group -/

/-- R203: two zero bytes, whatever `wLength` holds. -/
def execGetStatus (_wValue _wIndex _wLength : Half) (s : State) : Out := serve [0x00#8, 0x00#8] 2 s
/-- R204. -/
def execGetDescDevice (_wIndex wLength : Half) (s : State) : Out := serveDescriptor 0x80#8 0x0100#16 wLength s
/-- R205. -/
def execGetDescConfig (_wIndex wLength : Half) (s : State) : Out := serveDescriptor 0x80#8 0x0200#16 wLength s
/-- R206. -/
def execGetDescString0 (_wIndex wLength : Half) (s : State) : Out := serveDescriptor 0x80#8 0x0300#16 wLength s
/-- R207. -/
def execGetDescString1 (_wIndex wLength : Half) (s : State) : Out := serveDescriptor 0x80#8 0x0301#16 wLength s
/-- R208. -/
def execGetDescString2 (_wIndex wLength : Half) (s : State) : Out := serveDescriptor 0x80#8 0x0302#16 wLength s
/-- R209. -/
def execGetDescString3 (_wIndex wLength : Half) (s : State) : Out := serveDescriptor 0x80#8 0x0303#16 wLength s
/-- R211. -/
def execGetDescQualifier (_wIndex wLength : Half) (s : State) : Out := serveDescriptor 0x80#8 0x0600#16 wLength s
/-- R210. -/
def execGetDescUnknown (wValue _wIndex _wLength : Half) (s : State) : Out := unrec 0x80#8 0x06#8 wValue s
/-- R212: one byte, not truncated by `wLength`. -/
def execGetConfiguration (_wValue _wIndex _wLength : Half) (s : State) : Out := serve [s.dev.config] 1 s
/-- R215. -/
def execStdDevGetUnknown (bRequest : Byte) (wValue _wIndex _wLength : Half) (s : State) : Out :=
  unrec 0x80#8 bRequest wValue s

/-! ## Standard requests to the device, SET group -/

/-- R213: the address is stashed, `DADDR` is not written. -/
def execSetAddress (wValue _wIndex _wLength : Half) (s : State) : Out :=
  acknowledge { s with dev := { s.dev with pendingAddr := requestedAddress wValue }, addrLatch := true }
/-- R214. -/
def execSetConfiguration (wValue _wIndex _wLength : Half) (s : State) : Out :=
  acknowledge { s with dev := { s.dev with status := .configured, config := configurationValue wValue } }
/-- R216. -/
def execStdDevSetUnknown (bRequest : Byte) (wValue _wIndex _wLength : Half) (s : State) : Out :=
  unrec 0x00#8 bRequest wValue s

/-! ## Interface, endpoint and class requests -/

/-- R217. -/
def execGetDescHidReport (_wIndex wLength : Half) (s : State) : Out := serveDescriptor 0x81#8 0x2200#16 wLength s
/-- R218: acknowledged; no endpoint register, toggle or halt state is touched, no diagnostic. -/
def execClearFeatureEp (_dir : BitVec 1) (_wValue _wIndex _wLength : Half) (s : State) : Out := acknowledge s
/-- R219: acknowledged; the idle rate is not stored. -/
def execSetIdle (_wValue _wIndex _wLength : Half) (s : State) : Out := acknowledge s
/-- R220: nothing is staged, the receive side is armed. -/
def execHidSetFeature (_wValue _wIndex _wLength : Half) (s : State) : Out :=
  handlerReturn (retRxd s.snapshotWord) { s with phase := .dataStageOut }
/-- R221. -/
def execFallback (bmRequestType bRequest : Byte) (wValue _wIndex _wLength : Half) (s : State) : Out :=
  unrec bmRequestType bRequest wValue s

end Sys2Proof.Machine
end

