-- ==== Sys2Proof/Machine/Disp.lean ====
section
/-! DEFINITION. The Interrupt Dispatcher (spec/44_dispatcher.md R250 to R265): the reset branch, and the
transaction-complete branch with snapshot, copy, handler call and final write. -/

namespace Sys2Proof.Machine

/-- The part of RESET_BRANCH that writes the engine's own registers before the ALLOCATE (R252, lines 2 to 4). -/
def resetEngine (s : State) : State :=
  { rewind s with
    dev := { s.dev with pendingAddr := 0, config := 0 }
    addrLatch := false
    scratchLen := 0
    txErr := false }

/-- `RESET_BRANCH()` (R252). -/
def execIrqReset (s : State) : Out :=
  let s := resetEngine { s.pause with istrReset := false }
  andThen (allocOp 0 .control (BitVec.ofNat 16 s.cfg.ep0Size) (BitVec.ofNat 16 s.cfg.ep0Size) 0#1 s) fun s =>
    .next { s.pause with daddr := 0x80#8, dev := { s.dev with status := .defaultState }, phase := .waitSetup }

/-- `SNAPSHOT(n)` (R254). -/
def snapshot (n : Nat) (s : State) (k : State → Out) : Out :=
  readReg n s fun r s =>
    let s := s.setEp n (latchFlags (s.epAt n) r)
    load16 (btCountRx n) s fun w s => k (s.setEp n { s.epAt n with rxCount := receivedCount w })

/-- `COPY_EP0(n, d)` (R255). The bytes of `scratch` at index `scratch_len` and above, which hold no specified value (R30),
keep what they held (DESIGN CHOICE, assumption 33). -/
def copyEp0 (n : Nat) (d : Bool) (s : State) (k : State → Out) : Out :=
  let e := s.epAt 0
  if d && n == 0 then
    if e.setupFlag then
      loadBytes e.rxBase.toNat 8 s fun bs s => k { s with setup := setupWord bs, scratchLen := 0 }
    else if e.rxFlag then
      let c := min e.rxCount.toNat s.cfg.scratchCap
      loadBytes e.rxBase.toNat c s fun bs s =>
        k { s with scratch := bs ++ s.scratch.drop c, scratchLen := BitVec.ofNat 16 c }
    else k s
  else k s

/-- What the external handler of endpoint n does with a snapshot (R27, R261). -/
def extAction (h : ExtHandler) (n : BitVec 4) (e : Endpoint) : HandlerAction :=
  match h with
  | .keepAll => { writes := [], word := retKeep e.status }
  | .report data =>
    if e.txFlag then { writes := [{ n := n, data := data }], word := setValidTx (keepStatRx e.status) }
    else { writes := [], word := retKeep e.status }
  | .param => Config.extHandler n.toNat e

/-- The external handler reference `EXT(m)` called for the endpoint being served: its WRITE_IRQ operations are the next
steps' commands; without any it returns at once (R27, R256). `EXT(0)` is a function of its own, `cfg.ext[0]`: no rule says
what H[0] is (DESIGN CHOICE, assumption 30). -/
def callExternal (m : Nat) (s : State) : Out :=
  let a := extAction (s.cfg.ext[m]?.getD .param) (BitVec.ofNat 4 m) (s.epAt s.served.toNat)
  if a.writes.isEmpty then handlerReturn a.word s
  else .next { s with hq := a.writes, hword := a.word, seq := .run .ext }

/-- `CALL_HANDLER(n)` (R256). -/
def callHandler (s : State) : Out :=
  let e := s.epAt s.served.toNat
  if e.allocated then
    match e.handler with
    | .ep0 => ep0Handler s
    | .ext m => callExternal m s
  else handlerReturn (retKeep e.status) s

/-- `CTR_BRANCH()` (R253) for the endpoint number and direction read from `ISTR`. -/
def ctrBranch (n : BitVec 4) (d : Bool) (s : State) : Out :=
  if n.toNat < nEp then
    snapshot n.toNat { s with served := n } fun s => copyEp0 n.toNat d s callHandler
  else .refused (.epIdOutOfRange n)

/-- IRQ_CTR_OUT (R259). -/
def execIrqCtrOut (n : BitVec 4) (s : State) : Out := ctrBranch n true s
/-- IRQ_CTR_IN (R260). -/
def execIrqCtrIn (n : BitVec 4) (s : State) : Out := ctrBranch n false s

end Sys2Proof.Machine
end

