-- ==== Sys2Proof/Machine/Dispatch.lean ====
section
/-! DEFINITION. The meaning of every operation of spec/opcode_table.json: one arm per constructor. -/

namespace Sys2Proof.Machine

def exec (i : Instr) (s : State) : Host.Outcome State Fault Refusal :=
  match i with
  | .getStatus v x l => Sys2Proof.Machine.execGetStatus v x l s
  | .getDescDevice x l => Sys2Proof.Machine.execGetDescDevice x l s
  | .getDescConfig x l => Sys2Proof.Machine.execGetDescConfig x l s
  | .getDescString0 x l => Sys2Proof.Machine.execGetDescString0 x l s
  | .getDescString1 x l => Sys2Proof.Machine.execGetDescString1 x l s
  | .getDescString2 x l => Sys2Proof.Machine.execGetDescString2 x l s
  | .getDescString3 x l => Sys2Proof.Machine.execGetDescString3 x l s
  | .getDescQualifier x l => Sys2Proof.Machine.execGetDescQualifier x l s
  | .getDescUnknown v x l => Sys2Proof.Machine.execGetDescUnknown v x l s
  | .getConfiguration v x l => Sys2Proof.Machine.execGetConfiguration v x l s
  | .stdDevGetUnknown rq v x l => Sys2Proof.Machine.execStdDevGetUnknown rq v x l s
  | .setAddress v x l => Sys2Proof.Machine.execSetAddress v x l s
  | .setConfiguration v x l => Sys2Proof.Machine.execSetConfiguration v x l s
  | .stdDevSetUnknown rq v x l => Sys2Proof.Machine.execStdDevSetUnknown rq v x l s
  | .getDescHidReport x l => Sys2Proof.Machine.execGetDescHidReport x l s
  | .clearFeatureEp dir v x l => Sys2Proof.Machine.execClearFeatureEp dir v x l s
  | .setIdle v x l => Sys2Proof.Machine.execSetIdle v x l s
  | .hidSetFeature v x l => Sys2Proof.Machine.execHidSetFeature v x l s
  | .fallback bm rq v x l => Sys2Proof.Machine.execFallback bm rq v x l s
  | .irqReset => Sys2Proof.Machine.execIrqReset s
  | .irqCtrOut n => Sys2Proof.Machine.execIrqCtrOut n s
  | .irqCtrIn n => Sys2Proof.Machine.execIrqCtrIn n s
  | .getState => Sys2Proof.Machine.execGetState s
  | .allocate n t tx rx h => Sys2Proof.Machine.execAllocate n t tx rx h s
  | .write n data => Sys2Proof.Machine.execWrite n data s
  | .writeIrq n data => Sys2Proof.Machine.execWriteIrq n data s
  | .read n => Sys2Proof.Machine.execRead n s

end Sys2Proof.Machine
end

