-- ==== Sys2Proof/Machine/Fetch.lean ====
section
/-! DEFINITION. Which agent moves next and what it fetches: the schedule of R116 programs, the points of an invocation
(spec/44_dispatcher.md R250 to R258), the bounded wait (spec/43_ep0_control.md R232), and where an operation's word is
placed so that the next step runs it. -/

namespace Sys2Proof.Machine

/-- What a step does: it runs an operation it has fetched, in the state after the fetch, or it is a move of its own. -/
inductive Fetch where
  | instr (i : Instr) (s : State)
  | move (o : Out)

/-- The refusal a command that selects no operation ends in (R111, R295). -/
def refusalOf : CmdError → Refusal
  | .reservedCommand c => .reservedCommand c
  | .bufferTooLong => .bufferTooLong

/-- `seq` = IDLE (R250, R82, R116; assumptions 7, 20): the next line of the program is a step of its agent. A command waits
until a preempted one has gone on. With no line left, a pending request is served, else a preempted command goes on. -/
def fetchIdle (s : State) : Fetch :=
  match s.program with
  | [] =>
    if s.irqRequest && !s.irqMasked then .move (.next (enterInterrupt s))
    else if s.app.isEmpty then .move (.next s) else .move (resumeApp none s)
  | .sie m :: rest => .move (.next ({ s with program := rest }.sieMove m))
  | .irq :: rest =>
    if s.irqMasked then .move (.next { s with program := rest })
    else .move (.next (enterInterrupt { s with program := rest }))
  | .app split :: rest => .move (resumeApp split { s with program := rest })
  | .cmd p split :: rest =>
    if s.app.isEmpty then
      match decodeCmd p with
      | .ok i => .instr i { s with program := rest, appSplit := split }
      | .error e => .move (.refused (refusalOf e))
    else .move (resumeApp none s)

/-- `seq` = RUN: the invocation goes on from the point it has reached (R250, R253, R202, R256, R233, R258). -/
def fetchRun (p : Point) (s : State) : Fetch :=
  match p with
  | .resetTest =>
    let s := s.pause
    if s.istrReset then .instr .irqReset { s with seq := .run .ctrTest }
    else .move (.next { s with seq := .run .ctrTest })
  | .ctrTest =>
    let r := readIstr s
    if r.1.getLsbD 15 then .move (.next { r.2 with istrLatch := r.1, seq := .run .serve })
    else .move (.next (exitInterrupt r.2))
  | .serve =>
    match decodeCtr s.istrLatch with
    | some i => .instr i s
    | none => .move (.next (exitInterrupt s))
  | .dispatch => .instr (decodeSetup s.cfg.rqHidSetFeature s.setup) s
  | .ext =>
    match s.hq with
    | [] => .move (handlerReturn s.hword s)
    | w :: rest => .instr (.writeIrq w.n w.data) { s with hq := rest }
  | .timeout => .move (timeoutTail s)
  | .leave => .move (.next (exitInterrupt s))

/-- One poll of the bounded wait counts down (R340; assumption 19: the count decides nothing). -/
def countPoll (s : State) : State := { s with waitCtr := if s.waitCtr = 0 then 0 else s.waitCtr - 1 }

/-- `seq` = WAIT (R232): the wait ends as soon as `ISTR.CTR` = 1 is observed; otherwise only the SIE moves. `wait_ctr`, which
has no specified value outside a wait (R37), keeps the last count (DESIGN CHOICE, assumption 32). -/
def fetchWait (s : State) : Fetch :=
  let s := s.pause
  if s.seq ≠ .wait then .move (.next s)
  else if s.istrCtr then .move (resumeTx { s with seq := .run .dispatch })
  else
    match s.program with
    | .sie m :: rest => .move (.next ({ countPoll s with program := rest }.sieMove m))
    | _ => .move (.next (countPoll s))

/-- The agent whose turn it is, by the sequencer. -/
def fetch (s : State) : Fetch :=
  match s.seq with
  | .idle => fetchIdle s
  | .run p => fetchRun p s
  | .wait => fetchWait s

/-! ## Placing a word (assumption 18) -/

/-- Endpoint 0 as the reset branch creates it, where the state has none: without it no SETUP and no handler can run. -/
def createEp0 (s : State) : State :=
  if (s.epAt 0).allocated then s
  else
    match allocOp 0 .control (BitVec.ofNat 16 s.cfg.ep0Size) (BitVec.ofNat 16 s.cfg.ep0Size) 0#1 s with
    | .next t => t
    | .fault _ => s
    | .refused _ => s

/-- A Setup Packet latched from a reception on endpoint 0, about to be decoded. -/
def placeSetup (w : BitVec 64) (s : State) : State :=
  let s := createEp0 s
  let r := sieSetupReg (s.eprAt 0) false false
  let s := (s.setEpr 0 r).setEp 0 { latchFlags (s.epAt 0) r with rxCount := 8 }
  { s with setup := w, phase := .dispatch, seq := .run .dispatch, irqMasked := true, served := 0 }

/-- An interrupt-status word about to be executed: the reset condition pending, or the word latched for the
transaction-complete branch. -/
def placeIstr (w : Half) (s : State) : State :=
  if w &&& 0x0400#16 = 0x0400#16 then { s with istrReset := true, seq := .run .resetTest, irqMasked := true }
  else { s with istrLatch := w, seq := .run .serve, irqMasked := true }

/-- A command about to be executed: WRITE_IRQ as the next operation of a running handler (R280), the others as the next
line of APP. The commands that act on an endpoint run on an allocated one (R280, U8), and their zero operand names
endpoint 0. -/
def placeCmd (p : Port) (s : State) : State :=
  if p.c = 0x03#8 then
    { createEp0 s with hq := [{ n := p.n, data := p.data }], seq := .run .ext, irqMasked := true, served := 0 }
  else
    let s := if p.c = 0x02#8 ∨ p.c = 0x04#8 then createEp0 s else s
    { s with program := .cmd p none :: s.program, seq := .idle, irqMasked := false, app := [] }

/-- The word placed where the next step fetches. -/
def placeWord (f : FetchWord) (s : State) : State :=
  match f with
  | .setup w => placeSetup w s
  | .istr w => placeIstr w s
  | .cmd p => placeCmd p s

end Sys2Proof.Machine
end

