-- ==== Sys2Proof/Machine/Step.lean ====
section
/-! DEFINITION. One step of the machine: the fetched operation, or the move of the agent whose turn it is, and the exit
of an invocation that is done (spec/00_scope.md R7, spec/44_dispatcher.md R250). -/

namespace Sys2Proof.Machine

/-- One step of one agent. -/
def step (s : State) : Host.Outcome State Fault Refusal :=
  match fetch s with
  | .instr i t => finish (exec i t)
  | .move o => finish o

/-- The state in which the next step fetches and runs the operation of a word of spec/opcode_table.json. -/
def State.withFetchWord (s : State) (nbits w : Nat) : State :=
  match tableFetchWord nbits w with
  | none => s
  | some f => placeWord f s

end Sys2Proof.Machine
end

