-- ==== Sys2Proof/Safety.lean ====
section
/-! DEFINITION. What claims about the engine are stated in: the hypotheses a state meets, the invariants of the machine,
and the states its operations are to leave, written from the rules. -/

namespace Sys2Proof.Machine

/-! ## Hypotheses -/

/-- No SIE move is scheduled between the accesses of the coming operation (the atomic reading of R82, R365). -/
def State.Quiet (s : State) : Prop := s.race = []

/-- Endpoint n is allocated and its transmit buffer lies at even offsets inside packet memory, as ALLOCATE leaves it (R22,
R75, R167). -/
structure TxReady (s : State) (n : Nat) : Prop where
  cfgOk     : s.cfg.wf
  inTable   : n < nEp
  allocated : (s.epAt n).allocated = true
  evenBase  : (s.epAt n).txBase.toNat % 2 = 0
  evenSize  : (s.epAt n).txSize.toNat % 2 = 0
  room      : (s.epAt n).txBase.toNat + (s.epAt n).txSize.toNat ≤ s.cfg.pmaSize

/-- `count` bytes of endpoint n's receive buffer can be read in units (R72, R75). -/
structure RxReady (s : State) (n count : Nat) : Prop where
  evenBase : (s.epAt n).rxBase.toNat % 2 = 0
  room     : (s.epAt n).rxBase.toNat + 2 * unitCount count ≤ s.cfg.pmaSize

/-- The bytes a plain reception on endpoint 0 brings to the scratch buffer, cut to its capacity (R255). -/
def outCount (s : State) : Nat := min (receivedCount (s.pma.read16 6)).toNat s.cfg.ep0Size

/-- The receive buffer of endpoint 0 can be read as far as COPY_EP0(n, d) reads it (R255). -/
def CopyReady (s : State) (n : BitVec 4) (out : Bool) : Prop :=
  out = true → n = 0 → (setupBit (s.eprAt 0) = true → RxReady s 0 8) ∧
    (setupBit (s.eprAt 0) = false → ctrRx (s.eprAt 0) = true → RxReady s 0 (outCount s))

/-! ## Invariants -/

/-- Packet memory has its canonical form and lists no offset outside [0, PMA_SIZE) (R71). -/
structure MemInv (s : State) : Prop where
  canonical : s.pma.wf = true
  bounded   : s.pma.within s.cfg.pmaSize = true

/-- An entry of the endpoint table: not allocated and without regions, or with both regions inside the allocated part of
packet memory, at even offsets, the receive buffer directly after the transmit buffer (R22, R75, R164). -/
def EntryOk (bump : Nat) (e : Endpoint) : Prop :=
  if e.allocated then
    bumpInit ≤ e.txBase.toNat ∧ e.txBase.toNat % 2 = 0 ∧ e.txSize.toNat % 2 = 0 ∧
    e.rxBase.toNat = e.txBase.toNat + e.txSize.toNat ∧ rxGranularityOk e.rxSize.toNat = true ∧
    e.rxBase.toNat + e.rxSize.toNat ≤ bump
  else e.txBase = 0 ∧ e.txSize = 0 ∧ e.rxBase = 0 ∧ e.rxSize = 0

/-- The allocator's invariant (R22, R28, R75, R167). -/
structure AllocInv (s : State) : Prop where
  bumpLow  : bumpInit ≤ s.bump.toNat
  bumpHigh : s.bump.toNat ≤ s.cfg.pmaSize
  bumpEven : s.bump.toNat % 2 = 0
  entries  : ∀ n, n < nEp → EntryOk s.bump.toNat (s.epAt n)
  disjoint : ∀ n m, n < nEp → m < nEp → n ≠ m → (s.epAt n).allocated = true → (s.epAt m).allocated = true →
    (s.epAt n).rxBase.toNat + (s.epAt n).rxSize.toNat ≤ (s.epAt m).txBase.toNat ∨
    (s.epAt m).rxBase.toNat + (s.epAt m).rxSize.toNat ≤ (s.epAt n).txBase.toNat

/-- Interrupts are masked exactly while an invocation is in progress, and the phase is Dispatch only while it stands at
the Dispatch point (R35, R243, R258, R318). -/
structure ModeInv (s : State) : Prop where
  masked   : s.irqMasked = true ↔ s.seq ≠ .idle
  dispatch : s.phase = .dispatch → s.seq = .run .dispatch

/-- Both directions of endpoint 0 have the buffer size EP0_SIZE, as the reset branch creates it (R252). -/
def Ep0Sized (s : State) : Prop :=
  (s.epAt 0).allocated = true ∧ (s.epAt 0).rxSize.toNat = s.cfg.ep0Size

/-! ## The register algebra -/

/-- The eighteen transforms, each with the mask of its bit group (R131). -/
def transformTable : List (Half × (Half → Half)) :=
  [(0x3000#16, setValidRx), (0x3000#16, setNakRx), (0x3000#16, setStallRx), (0x3000#16, keepStatRx),
   (0x0030#16, setValidTx), (0x0030#16, setNakTx), (0x0030#16, setStallTx), (0x0030#16, keepStatTx),
   (0x4000#16, keepDtogRx), (0x0040#16, keepDtogTx), (0x4000#16, clearDtogRx), (0x0040#16, clearDtogTx),
   (0x4000#16, setDtogRx), (0x0040#16, setDtogTx), (0x8000#16, clearCtrRx), (0x0080#16, clearCtrTx),
   (0x8080#16, keepCtr), (0xC0C0#16, normalize)]

/-! ## What the operations leave -/

/-- Packet memory after COPY_IN of these bytes on endpoint n (R281): the units of the buffer, then COUNT_TX. -/
def stagedPma (s : State) (n : Nat) (bytes : List Byte) : Memory :=
  (s.pma.writeUnits (s.epAt n).txBase.toNat (copyUnits bytes)).write16 (8 * n + 2) (BitVec.ofNat 16 bytes.length)

/-- The endpoint registers after `EPR[n] <-w v` (R42). -/
def eprAfter (s : State) (n : Nat) (v : Half) : Vector Half 8 :=
  s.epr.setIfInBounds n (writeRule (s.eprAt n) v)

/-- After `ACK()` and the dispatcher's final write (R201, R257). -/
def acked (s : State) : State :=
  { s with pma := s.pma.write16 2 0x0000#16
           epr := eprAfter s s.served.toNat (normalize (retTx s.snapshotWord))
           phase := .statusStage
           seq := .run .leave }

/-- After a packet shorter than M is staged and armed by the final write (R230, R257). -/
def servedShort (s : State) (bytes : List Byte) : State :=
  { s with pma := stagedPma s 0 bytes
           epr := eprAfter s s.served.toNat (normalize (retTx s.snapshotWord))
           seq := .run .leave }

/-- After a chunk of M bytes is staged and armed by ARM_MID, at the start of the bounded wait (R230, R231, R232). -/
def servedChunk (s : State) (bytes : List Byte) : State :=
  { s with pma := stagedPma s 0 bytes
           epr := eprAfter s 0 (normalize (setValidTx (setNakRx (s.eprAt 0))))
           curOff := s.curOff + BitVec.ofNat 16 bytes.length
           curRem := s.curRem - BitVec.ofNat 16 bytes.length
           seq := .wait
           waitCtr := BitVec.ofNat 20 1000000 }

/-- After `SERVE(src, L)`: one short packet, or the first chunk of M bytes (R201, R230). -/
def sentFirst (s : State) (src : List Byte) (len : Nat) : State :=
  let p : State := { s with phase := if 0 < len then .dataStageIn else .statusStage }
  let m := (s.epAt 0).txSize.toNat
  if len < m then servedShort p (src.take len)
  else servedChunk { p with curOff := 0, curRem := BitVec.ofNat 16 len, txSrc := src } (src.take m)

/-- The table entry of endpoint n after SNAPSHOT(n) of the register value r with received-count word w (R254). -/
def snapped (e : Endpoint) (r w : Half) : Endpoint :=
  { e with status := r, rxFlag := r.getLsbD 15, txFlag := r.getLsbD 7, setupFlag := r.getLsbD 11,
           rxCount := w.extractLsb' 0 10 }

/-- The state after SNAPSHOT(n) (R254). -/
def afterSnapshot (s : State) (n : BitVec 4) : State :=
  { s with served := n
           ep := s.ep.setIfInBounds n.toNat
             (snapped (s.epAt n.toNat) (s.eprAt n.toNat) (s.pma.read16 (8 * n.toNat + 6))) }

/-- The state after COPY_EP0(n, d) as well: on a receive event of endpoint 0 the Setup Packet or the scratch buffer is
written from the receive buffer (R255). -/
def afterEvent (s : State) (n : BitVec 4) (out : Bool) : State :=
  if out = true ∧ n = 0 then
    if setupBit (s.eprAt 0) then
      { afterSnapshot s n with setup := setupWord (s.pma.readBytes (s.epAt 0).rxBase.toNat 8), scratchLen := 0 }
    else if ctrRx (s.eprAt 0) then
      { afterSnapshot s n with
        scratch := s.pma.readBytes (s.epAt 0).rxBase.toNat (outCount s) ++ s.scratch.drop (outCount s)
        scratchLen := BitVec.ofNat 16 (outCount s) }
    else afterSnapshot s n
  else afterSnapshot s n

/-- The state after the deferred address is applied, where the mode applies it (R240). -/
def afterAddress (s : State) : State :=
  let applied : State := { s with daddr := 0x80#8 ||| s.dev.pendingAddr.setWidth 8
                                  dev := { s.dev with status := .addressed } }
  match s.cfg.addrApplyMode with
  | .compare => if s.daddr.extractLsb' 0 7 = s.dev.pendingAddr then s else applied
  | .latched => if s.addrLatch then { applied with addrLatch := false } else s

/-- The state after the final write of the word w on endpoint n (R257). -/
def afterFinal (s : State) (n : Nat) (w : Half) : State :=
  { s with epr := eprAfter s n (normalize w), seq := .run .leave }

/-- An invocation that is done leaves: mask and sequencer (R258). -/
def left (s : State) : State :=
  if s.seq = .run .leave then { s with irqMasked := false, seq := .idle } else s

/-- What a step answers around the outcome of an operation: an invocation that is done leaves. -/
def leaving : Out → Out
  | .next t => .next (left t)
  | .fault r => .fault r
  | .refused r => .refused r

/-- The number of bytes the first packet of an operation of format SETUP stages (R201, R203, R212, R183, R281); none for
an operation that stages no packet. -/
def firstPacketLength (s : State) : Instr → Option Nat
  | .getStatus _ _ _ => some (copyLength 2 (s.epAt 0))
  | .getConfiguration _ _ _ => some (copyLength 1 (s.epAt 0))
  | .getDescDevice _ l => some (copyLength (responseLength (blobLen s.cfg.rom .dev) l) (s.epAt 0))
  | .getDescConfig _ l => some (copyLength (responseLength (blobLen s.cfg.rom .cfg) l) (s.epAt 0))
  | .getDescString0 _ l => some (copyLength (responseLength (blobLen s.cfg.rom .str0) l) (s.epAt 0))
  | .getDescString1 _ l => some (copyLength (responseLength (blobLen s.cfg.rom .str1) l) (s.epAt 0))
  | .getDescString2 _ l => some (copyLength (responseLength (blobLen s.cfg.rom .str2) l) (s.epAt 0))
  | .getDescString3 _ l => some (copyLength (responseLength (blobLen s.cfg.rom .str3) l) (s.epAt 0))
  | .getDescQualifier _ l => some (copyLength (responseLength (blobLen s.cfg.rom .qual) l) (s.epAt 0))
  | .getDescHidReport _ l => some (copyLength (responseLength (blobLen s.cfg.rom .hidRep) l) (s.epAt 0))
  | .getDescUnknown _ _ _ => some 0
  | .stdDevGetUnknown _ _ _ _ => some 0
  | .setAddress _ _ _ => some 0
  | .setConfiguration _ _ _ => some 0
  | .stdDevSetUnknown _ _ _ _ => some 0
  | .clearFeatureEp _ _ _ _ => some 0
  | .setIdle _ _ _ => some 0
  | .fallback _ _ _ _ _ => some 0
  | .hidSetFeature _ _ _ => none
  | .irqReset => none
  | .irqCtrOut _ => none
  | .irqCtrIn _ => none
  | .getState => none
  | .allocate _ _ _ _ _ => none
  | .write _ _ => none
  | .writeIrq _ _ => none
  | .read _ => none

/-- The packets TX0 sends for these bytes at packet size m (R230, R234): chunks of m bytes, then what is left, which is
empty exactly when the length is a multiple of m. -/
def packetsOf (m : Nat) : Nat → List Byte → List (List Byte)
  | 0, bs => [bs]
  | fuel + 1, bs => if bs.length < m then [bs] else bs.take m :: packetsOf m fuel (bs.drop m)

end Sys2Proof.Machine
end

