-- ==== Sys2Proof/Certificates/Slice0/Obligations.lean ====
section
/-! DEFINITION. The statements about the engine, from the numbered rules of spec/. -/

open Sys2Proof Sys2Proof.Machine

/-! ## Encodings -/

/-- R101, R105, R106, R108: words written out from the encoding tables decode to the operations they stand for. -/
def Obligations.WrittenWordsDecode : Prop :=
  decodeTableWord 64 0x0040000001000680 = some (.getDescDevice 0x0000#16 0x0040#16) ∧
  decodeTableWord 64 0x0000000000050500 = some (.setAddress 0x0005#16 0x0000#16 0x0000#16) ∧
  decodeTableWord 64 0x0000008100000182 = some (.clearFeatureEp 1#1 0x0000#16 0x0081#16 0x0000#16) ∧
  decodeTableWord 64 0x0082000022000681 = some (.getDescHidReport 0x0000#16 0x0082#16) ∧
  decodeTableWord 64 0x00040000000001C0 = some (.fallback 0xC0#8 0x01#8 0x0000#16 0x0000#16 0x0004#16) ∧
  decodeTableWord 16 0x0400 = some .irqReset ∧
  decodeTableWord 16 0x8012 = some (.irqCtrOut 2#4) ∧
  decodeTableWord 16 0x8001 = some (.irqCtrIn 1#4) ∧
  decodeTableWord 8 0x04 = some (.read 0#4) ∧
  decodeTableWord 8 0x05 = none

/-- R105, R106, R108: the word of every well-formed operation decodes to that operation, with every operand. -/
def Obligations.DecodeEncodeRoundTrip : Prop :=
  ∀ (rqHid : Byte) (i : Instr), i.wellFormed rqHid = true → decode rqHid (encode rqHid i) = .ok i

/-- R105, R111: no Setup Packet is illegal, and each is the word of exactly the operation it decodes to, which is
well-formed. -/
def Obligations.SetupWordsHaveOneMeaning : Prop :=
  ∀ (rqHid : Byte) (w : BitVec 64),
    encode rqHid (decodeSetup rqHid w) = .setup w ∧ (decodeSetup rqHid w).wellFormed rqHid = true

/-- R105: the first row of the mask and match table that a Setup Packet meets is the row of the decoded operation. -/
def Obligations.DecodeFollowsMaskTable : Prop :=
  ∀ (rqHid : Byte) (w : BitVec 64), (decodeSetup rqHid w).setupRow = firstRow rqHid w

/-- R295, R111: a command byte 5 or above is refused by the step that fetches it. -/
def Obligations.ReservedCommandsRefused : Prop :=
  ∀ (s : State) (p : Port) (split : Option Nat) (rest : List Line),
    s.seq = .idle → s.app = [] → s.program = .cmd p split :: rest → 5 ≤ p.c.toNat →
    step s = .refused (.reservedCommand p.c)

/-! ## The register algebra -/

/-- R131: every transform is `(v & A) ^ X` with the constants of the table. -/
def Obligations.TransformConstants : Prop :=
  ∀ v : Half,
    setValidRx v = (v &&& 0xFFFF#16) ^^^ 0x3000#16 ∧ setNakRx v = (v &&& 0xFFFF#16) ^^^ 0x2000#16 ∧
    setStallRx v = (v &&& 0xFFFF#16) ^^^ 0x1000#16 ∧ keepStatRx v = (v &&& 0xCFFF#16) ^^^ 0x0000#16 ∧
    setValidTx v = (v &&& 0xFFFF#16) ^^^ 0x0030#16 ∧ setNakTx v = (v &&& 0xFFFF#16) ^^^ 0x0020#16 ∧
    setStallTx v = (v &&& 0xFFFF#16) ^^^ 0x0010#16 ∧ keepStatTx v = (v &&& 0xFFCF#16) ^^^ 0x0000#16 ∧
    keepDtogRx v = (v &&& 0xBFFF#16) ^^^ 0x0000#16 ∧ keepDtogTx v = (v &&& 0xFFBF#16) ^^^ 0x0000#16 ∧
    clearDtogRx v = (v &&& 0xFFFF#16) ^^^ 0x0000#16 ∧ clearDtogTx v = (v &&& 0xFFFF#16) ^^^ 0x0000#16 ∧
    setDtogRx v = (v &&& 0xFFFF#16) ^^^ 0x4000#16 ∧ setDtogTx v = (v &&& 0xFFFF#16) ^^^ 0x0040#16 ∧
    clearCtrRx v = (v &&& 0x7FFF#16) ^^^ 0x0000#16 ∧ clearCtrTx v = (v &&& 0xFF7F#16) ^^^ 0x0000#16 ∧
    keepCtr v = (v &&& 0x7F7F#16) ^^^ 0x8080#16 ∧ normalize v = (v &&& 0x3F3F#16) ^^^ 0x0000#16

/-- R150, R131: two of the eighteen named transforms whose bit groups are disjoint commute; every transform passes the bits
outside its group through unchanged, and what it leaves in its group depends on its group alone. Two set transforms of one
group combine to the exclusive-or of their constants. -/
def Obligations.DisjointTransformsCommute : Prop :=
  (∀ t ∈ transformTable, ∀ u ∈ transformTable, t.1 &&& u.1 = 0 → ∀ v : Half, t.2 (u.2 v) = u.2 (t.2 v)) ∧
  (∀ t ∈ transformTable, ∀ v : Half, t.2 v &&& ~~~t.1 = v &&& ~~~t.1) ∧
  (∀ t ∈ transformTable, ∀ v w : Half, v &&& t.1 = w &&& t.1 → t.2 v &&& t.1 = t.2 w &&& t.1) ∧
  (∀ v : Half, setValidRx (setNakRx v) = setStallRx v ∧ setValidTx (setNakTx v) = setStallTx v)

/-- R42: the register write rule, field by field. -/
def Obligations.WriteRuleByField : Prop :=
  ∀ old v : Half,
    ctrRx (writeRule old v) = (ctrRx old && ctrRx v) ∧ dtogRx (writeRule old v) = (dtogRx old ^^ dtogRx v) ∧
    statRx (writeRule old v) = statRx old ^^^ statRx v ∧ setupBit (writeRule old v) = setupBit old ∧
    epTypeField (writeRule old v) = epTypeField v ∧ epKind (writeRule old v) = epKind v ∧
    ctrTx (writeRule old v) = (ctrTx old && ctrTx v) ∧ dtogTx (writeRule old v) = (dtogTx old ^^ dtogTx v) ∧
    statTx (writeRule old v) = statTx old ^^^ statTx v ∧ epAddress (writeRule old v) = epAddress v

/-- R132 to R139, R151: when the register still holds the field the transform was given, the write lands the status field
on its target, or keeps it. -/
def Obligations.StatusTransformsLand : Prop :=
  ∀ r v : Half,
    (statRx r = statRx v →
      statRx (writeRule r (setValidRx v)) = 3#2 ∧ statRx (writeRule r (setNakRx v)) = 2#2 ∧
      statRx (writeRule r (setStallRx v)) = 1#2) ∧
    (statTx r = statTx v →
      statTx (writeRule r (setValidTx v)) = 3#2 ∧ statTx (writeRule r (setNakTx v)) = 2#2 ∧
      statTx (writeRule r (setStallTx v)) = 1#2) ∧
    statRx (writeRule r (keepStatRx v)) = statRx r ∧ statTx (writeRule r (keepStatTx v)) = statTx r

/-- R140 to R148: the toggle and flag transforms keep, clear or set their field by the write. -/
def Obligations.ToggleAndFlagTransformsLand : Prop :=
  ∀ r v : Half,
    dtogRx (writeRule r (keepDtogRx v)) = dtogRx r ∧ dtogTx (writeRule r (keepDtogTx v)) = dtogTx r ∧
    (dtogRx r = dtogRx v →
      dtogRx (writeRule r (clearDtogRx v)) = false ∧ dtogRx (writeRule r (setDtogRx v)) = true) ∧
    (dtogTx r = dtogTx v →
      dtogTx (writeRule r (clearDtogTx v)) = false ∧ dtogTx (writeRule r (setDtogTx v)) = true) ∧
    ctrRx (writeRule r (clearCtrRx v)) = false ∧ ctrTx (writeRule r (clearCtrTx v)) = false ∧
    ctrRx (writeRule r (keepCtr v)) = ctrRx r ∧ ctrTx (writeRule r (keepCtr v)) = ctrTx r

/-- R257, R149: `normalize(w) = w & 0x3F3F`; after the dispatcher's final write both flags are 0, both toggles are
unchanged, the status fields are exclusive-or-ed with those of the returned word, SETUP is kept, and type, kind and address
are those of the word. -/
def Obligations.FinalWriteNormalizes : Prop :=
  ∀ old w : Half,
    normalize w = w &&& 0x3F3F#16 ∧
    ctrRx (writeRule old (normalize w)) = false ∧ ctrTx (writeRule old (normalize w)) = false ∧
    dtogRx (writeRule old (normalize w)) = dtogRx old ∧ dtogTx (writeRule old (normalize w)) = dtogTx old ∧
    statRx (writeRule old (normalize w)) = statRx old ^^^ statRx w ∧
    statTx (writeRule old (normalize w)) = statTx old ^^^ statTx w ∧
    setupBit (writeRule old (normalize w)) = setupBit old ∧
    epTypeField (writeRule old (normalize w)) = epTypeField w ∧ epKind (writeRule old (normalize w)) = epKind w ∧
    epAddress (writeRule old (normalize w)) = epAddress w

/-- R165: whatever the register held, the word of ALLOCATE lands it on the given type and number, receive VALID, transmit
NAK, toggles and flags 0, kind 0; after a bus reset it is `0x3020 | (type << 9) | n`. -/
def Obligations.AllocWordLands : Prop :=
  ∀ (r : Half) (t : EpType) (n : BitVec 4),
    allocWord 0x0000#16 t n = (0x3020#16 ||| (t.code.setWidth 16 <<< 9) ||| n.setWidth 16) ∧
    epTypeField (writeRule r (allocWord r t n)) = t.code ∧ epKind (writeRule r (allocWord r t n)) = false ∧
    epAddress (writeRule r (allocWord r t n)) = n ∧
    statRx (writeRule r (allocWord r t n)) = 3#2 ∧ statTx (writeRule r (allocWord r t n)) = 2#2 ∧
    dtogRx (writeRule r (allocWord r t n)) = false ∧ dtogTx (writeRule r (allocWord r t n)) = false ∧
    ctrRx (writeRule r (allocWord r t n)) = false ∧ ctrTx (writeRule r (allocWord r t n)) = false

/-- R285: when the register did not move, WRITE's word arms transmit VALID and receive NAK and keeps both toggles and both
transaction-complete flags. -/
def Obligations.WriteWordLands : Prop :=
  ∀ r : Half,
    statTx (writeRule r (writeWord r)) = 3#2 ∧ statRx (writeRule r (writeWord r)) = 2#2 ∧
    dtogRx (writeRule r (writeWord r)) = dtogRx r ∧ dtogTx (writeRule r (writeWord r)) = dtogTx r ∧
    ctrRx (writeRule r (writeWord r)) = ctrRx r ∧ ctrTx (writeRule r (writeWord r)) = ctrTx r ∧
    writeWord r = (((r ^^^ 0x2030#16) &&& 0xBFBF#16) ||| 0x8080#16)

/-! ## The allocator -/

/-- R161, R164, R165: an ALLOCATE that passes the checks records both regions, programs the buffer table and the register,
advances the bump pointer and returns OK; no byte of packet memory outside its four buffer-table words changes. -/
def Obligations.AllocateSucceeds : Prop :=
  ∀ (s : State) (n : BitVec 4) (t : EpType) (tx rx : Half) (h : BitVec 1),
    s.Quiet → s.cfg.wf → tx.toNat % 2 = 0 → n.toNat < 8 → tx.toNat ≤ s.cfg.pmaSize → rx.toNat ≤ s.cfg.pmaSize →
    s.bump.toNat + tx.toNat + rx.toNat ≤ s.cfg.pmaSize → rx.toNat % 2 = 0 → rx.toNat ≤ 992 →
    (64 ≤ rx.toNat → rx.toNat % 32 = 0) →
    let table := (((s.pma.write16 (8 * n.toNat) s.bump).write16 (8 * n.toNat + 2) 0x0000#16).write16 (8 * n.toNat + 4)
      (s.bump + tx)).write16 (8 * n.toNat + 6)
      (BitVec.ofNat 16 (if rx.toNat < 64 then rx.toNat / 2 else 31 + rx.toNat / 32) <<< 10)
    (∀ a : Nat, (a < 8 * n.toNat ∨ 8 * n.toNat + 8 ≤ a) → table.read a = s.pma.read a) ∧
    exec (.allocate n t tx rx h) s = .next
      { s with
        pma := table
        ep := s.ep.setIfInBounds n.toNat
          { allocated := true, type := t, txBase := s.bump, txSize := tx, rxBase := s.bump + tx, rxSize := rx,
            rxCount := 0, rxFlag := false, txFlag := false, setupFlag := false, status := 0,
            handler := if h = 0#1 then .ep0 else .ext n.toNat }
        bump := s.bump + tx + rx
        epr := eprAfter s n.toNat (allocWord (s.eprAt n.toNat) t n)
        result := .alloc 0#3 }

/-- R161, R166, R109: the first check that fails decides the result code, and nothing else changes. -/
def Obligations.AllocateFailsWithoutEffect : Prop :=
  ∀ (s : State) (n : BitVec 4) (t : EpType) (tx rx : Half) (h : BitVec 1),
    (tx.toNat % 2 = 1 → exec (.allocate n t tx rx h) s = .refused (.oddTxSize tx)) ∧
    (tx.toNat % 2 = 0 →
      (8 ≤ n.toNat → exec (.allocate n t tx rx h) s = .next { s with result := .alloc 4#3 }) ∧
      (n.toNat < 8 → (s.cfg.pmaSize < tx.toNat ∨ s.cfg.pmaSize < rx.toNat) →
        exec (.allocate n t tx rx h) s = .next { s with result := .alloc 1#3 }) ∧
      (n.toNat < 8 → tx.toNat ≤ s.cfg.pmaSize → rx.toNat ≤ s.cfg.pmaSize →
        s.cfg.pmaSize < s.bump.toNat + tx.toNat + rx.toNat →
        exec (.allocate n t tx rx h) s = .next { s with result := .alloc 2#3 }) ∧
      (n.toNat < 8 → tx.toNat ≤ s.cfg.pmaSize → rx.toNat ≤ s.cfg.pmaSize →
        s.bump.toNat + tx.toNat + rx.toNat ≤ s.cfg.pmaSize →
        (rx.toNat % 2 = 1 ∨ 992 < rx.toNat ∨ (64 ≤ rx.toNat ∧ rx.toNat % 32 ≠ 0)) →
        exec (.allocate n t tx rx h) s = .next { s with result := .alloc 3#3 }))

/-! ## The descriptor store -/

/-- R181: the lookup finds exactly the pairs of the table, with the lengths of the table. -/
def Obligations.LookupTable : Prop :=
  lookup 0x01#8 0x00#8 = some .dev ∧ lookup 0x02#8 0x00#8 = some .cfg ∧ lookup 0x03#8 0x00#8 = some .str0 ∧
  lookup 0x03#8 0x01#8 = some .str1 ∧ lookup 0x03#8 0x02#8 = some .str2 ∧ lookup 0x03#8 0x03#8 = some .str3 ∧
  lookup 0x06#8 0x00#8 = some .qual ∧ lookup 0x22#8 0x00#8 = some .hidRep ∧
  (∀ dt di : Byte,
    (dt, di) ∉ [(0x01#8, 0x00#8), (0x02#8, 0x00#8), (0x03#8, 0x00#8), (0x03#8, 0x01#8), (0x03#8, 0x02#8),
      (0x03#8, 0x03#8), (0x06#8, 0x00#8), (0x22#8, 0x00#8)] → lookup dt di = none) ∧
  (∀ r : Rom, blobLen r .dev = 18 ∧ blobLen r .cfg = 34 ∧ blobLen r .qual = 10 ∧
    blobLen r .str0 = (romByte r .str0 0).toNat ∧ blobLen r .str1 = (romByte r .str1 0).toNat ∧
    blobLen r .str2 = (romByte r .str2 0).toNat ∧ blobLen r .str3 = (romByte r .str3 0).toNat ∧
    blobLen r .hidRep = r.hidRep.length ∧
    ∀ b i c, (romBlob r b)[i]? = some c → romByte r b i = c)

/-! ## The control state machine: requests -/

/-- R218, R219, R201: CLEAR_FEATURE to an endpoint and SET_IDLE stage a zero-length packet and arm it; nothing else. -/
def Obligations.AcknowledgedRequestsComplete : Prop :=
  ∀ (s : State) (dir : BitVec 1) (v x l : Half), s.Quiet → TxReady s 0 →
    exec (.clearFeatureEp dir v x l) s = .next (acked s) ∧ exec (.setIdle v x l) s = .next (acked s)

/-- R210, R215, R216, R221, R313: the four catch-all operations log the request and acknowledge it with a zero-length
packet. -/
def Obligations.UnrecognizedRequestsComplete : Prop :=
  ∀ (s : State) (bm rq : Byte) (v x l : Half), s.Quiet → TxReady s 0 →
    exec (.getDescUnknown v x l) s =
      .next { acked s with diagLog := s.diagLog ++ [.unrecognized 0x80#8 0x06#8 v] } ∧
    exec (.stdDevGetUnknown rq v x l) s =
      .next { acked s with diagLog := s.diagLog ++ [.unrecognized 0x80#8 rq v] } ∧
    exec (.stdDevSetUnknown rq v x l) s =
      .next { acked s with diagLog := s.diagLog ++ [.unrecognized 0x00#8 rq v] } ∧
    exec (.fallback bm rq v x l) s =
      .next { acked s with diagLog := s.diagLog ++ [.unrecognized bm rq v] }

/-- R213: SET_ADDRESS stashes wValue[6:0], sets the latch and acknowledges; `DADDR` and the device status do not change.
R214: SET_CONFIGURATION sets CONFIGURED, records wValue[7:0] and acknowledges. -/
def Obligations.DeviceSetRequestsComplete : Prop :=
  ∀ (s : State) (v x l : Half), s.Quiet → TxReady s 0 →
    exec (.setAddress v x l) s = .next
      { acked s with dev := { s.dev with pendingAddr := v.extractLsb' 0 7 }, addrLatch := true } ∧
    exec (.setConfiguration v x l) s = .next
      { acked s with dev := { s.dev with status := .configured, config := v.extractLsb' 0 8 } }

/-- R220: HID_SET_FEATURE stages nothing and arms the receive side for a data stage. -/
def Obligations.HidSetFeatureArmsReceive : Prop :=
  ∀ (s : State) (v x l : Half), s.Quiet →
    exec (.hidSetFeature v x l) s = .next
      { s with phase := .dataStageOut
               epr := eprAfter s s.served.toNat (normalize (setValidRx (keepStatTx s.snapshotWord)))
               seq := .run .leave }

/-- R203, R230: GET_STATUS serves two zero bytes, and R212: GET_CONFIGURATION serves the recorded configuration value, one
byte, whatever `wLength` holds. -/
def Obligations.StatusAndConfigurationServed : Prop :=
  ∀ (s : State) (v x l : Half), s.Quiet → TxReady s 0 →
    exec (.getStatus v x l) s = .next (sentFirst s [0x00#8, 0x00#8] 2) ∧
    exec (.getConfiguration v x l) s = .next (sentFirst s [s.dev.config] 1)

/-- R204, R205, R211, R183: the device, configuration and qualifier descriptors are served, truncated to `wLength`. -/
def Obligations.FixedDescriptorsServed : Prop :=
  ∀ (s : State) (x l : Half), s.Quiet → TxReady s 0 → romConsistent s.cfg = true →
    exec (.getDescDevice x l) s = .next (sentFirst s s.cfg.rom.dev (min 18 l.toNat)) ∧
    exec (.getDescConfig x l) s = .next (sentFirst s s.cfg.rom.cfg (min 34 l.toNat)) ∧
    exec (.getDescQualifier x l) s = .next (sentFirst s s.cfg.rom.qual (min 10 l.toNat))

/-- R206 to R209, R183: the four strings are served, truncated to `wLength`; byte 0 of a string is its length. -/
def Obligations.StringDescriptorsServed : Prop :=
  ∀ (s : State) (x l : Half), s.Quiet → TxReady s 0 → romConsistent s.cfg = true →
    exec (.getDescString0 x l) s =
      .next (sentFirst s s.cfg.rom.str0 (min (s.cfg.rom.str0.getD 0 0).toNat l.toNat)) ∧
    exec (.getDescString1 x l) s =
      .next (sentFirst s s.cfg.rom.str1 (min (s.cfg.rom.str1.getD 0 0).toNat l.toNat)) ∧
    exec (.getDescString2 x l) s =
      .next (sentFirst s s.cfg.rom.str2 (min (s.cfg.rom.str2.getD 0 0).toNat l.toNat)) ∧
    exec (.getDescString3 x l) s =
      .next (sentFirst s s.cfg.rom.str3 (min (s.cfg.rom.str3.getD 0 0).toNat l.toNat))

/-- R217, R183: the HID report descriptor, of any length, is served, truncated to `wLength`. -/
def Obligations.HidReportServed : Prop :=
  ∀ (s : State) (x l : Half), s.Quiet → TxReady s 0 →
    exec (.getDescHidReport x l) s =
      .next (sentFirst s s.cfg.rom.hidRep (min s.cfg.rom.hidRep.length l.toNat))

/-- The frame of the operations of format SETUP: what none of them changes, and what only the named ones change (R201,
R213, R214, R220, R243). Rows are numbered from 0 as in `Instr.setupRow`: 11 SET_ADDRESS, 12 SET_CONFIGURATION; 8, 10, 13
and 18 the catch-all rows, which log; these, 15 CLEAR_FEATURE.EP, 16 SET_IDLE and 17 HID_SET_FEATURE never use the transfer
cursor. The endpoint registers other than that of the endpoint served and EPR[0], which ARM_MID writes, keep their
values. -/
def Obligations.SetupRequestsFrame : Prop :=
  ∀ (s t : State) (i : Instr), s.Quiet → i.setupRow ≠ none → exec i s = .next t →
    t.cfg = s.cfg ∧ t.ep = s.ep ∧ t.bump = s.bump ∧ t.setup = s.setup ∧ t.scratch = s.scratch ∧
    t.scratchLen = s.scratchLen ∧ t.irqMasked = s.irqMasked ∧ t.txErr = s.txErr ∧ t.istrReset = s.istrReset ∧
    t.istrIdle = s.istrIdle ∧ t.daddr = s.daddr ∧ t.wireIn = s.wireIn ∧ t.istrLatch = s.istrLatch ∧
    t.served = s.served ∧ t.hq = s.hq ∧ t.hword = s.hword ∧ t.result = s.result ∧ t.dst = s.dst ∧ t.app = s.app ∧
    t.appReg = s.appReg ∧ t.appSplit = s.appSplit ∧ t.program = s.program ∧ t.race = s.race ∧
    t.epIdDraws = s.epIdDraws ∧ t.drawCount = s.drawCount ∧
    (i.setupRow ≠ some 11 → i.setupRow ≠ some 12 → t.dev = s.dev) ∧
    (i.setupRow ≠ some 11 → t.addrLatch = s.addrLatch) ∧
    (i.setupRow ≠ some 8 → i.setupRow ≠ some 10 → i.setupRow ≠ some 13 → i.setupRow ≠ some 18 →
      t.diagLog = s.diagLog) ∧
    (∀ m, m < 8 → m ≠ s.served.toNat → m ≠ 0 → t.eprAt m = s.eprAt m) ∧
    (∀ r, i.setupRow = some r → r ∈ [8, 10, 11, 12, 13, 15, 16, 17, 18] →
      t.curOff = s.curOff ∧ t.curRem = s.curRem ∧ t.txSrc = s.txSrc ∧ t.waitCtr = s.waitCtr)

/-- The memory frame of the operations of format SETUP: every byte outside the units staged at endpoint 0's transmit
buffer and outside BT[0].COUNT_TX reads as before; HID_SET_FEATURE stores nothing (R201, R220, R281). -/
def Obligations.SetupRequestsMemoryFrame : Prop :=
  ∀ (s t : State) (i : Instr), s.Quiet → i.setupRow ≠ none → exec i s = .next t →
    (∀ c, firstPacketLength s i = some c → ∀ a : Nat,
      (a < (s.epAt 0).txBase.toNat ∨ (s.epAt 0).txBase.toNat + 2 * unitCount c ≤ a) → (a < 2 ∨ 4 ≤ a) →
      t.pma.read a = s.pma.read a) ∧
    (firstPacketLength s i = none → ∀ a, t.pma.read a = s.pma.read a)

/-! ## The control state machine: the transmit procedure and completions -/

/-- R230, R232: when the bounded wait observes `ISTR.CTR` = 1 the transfer goes on: the trailing zero-length packet after a
full last chunk, else the next chunk, which ends the invocation when it is short and is armed and waited for otherwise.
That `wait_ctr` and the cursor keep their last values is the model's choice (assumptions 31, 32); a flag of endpoint 0 that
ended the wait is cleared by the write that follows (R231, R257; assumption 34). -/
def Obligations.WaitResumes : Prop :=
  ∀ s : State, s.Quiet → TxReady s 0 → s.seq = .wait → s.istrCtr = true →
    s.curOff.toNat + s.curRem.toNat ≤ s.txSrc.length →
    let m := (s.epAt 0).txSize.toNat
    let chunk := (s.txSrc.drop s.curOff.toNat).take (min s.curRem.toNat m)
    (s.curRem = 0 → step s = .next (left (servedShort s []))) ∧
    (s.curRem ≠ 0 → s.curRem.toNat < m →
      step s = .next (left { servedShort s chunk with
        curOff := s.curOff + BitVec.ofNat 16 chunk.length, curRem := 0 })) ∧
    (s.curRem ≠ 0 → m ≤ s.curRem.toNat → step s = .next (servedChunk s chunk))

/-- R232, R82: while a wait is pending and `ISTR.CTR` = 0, a step that is no move of the SIE changes nothing but the poll
counter, and a move of the SIE is that move. -/
def Obligations.WaitHoldsWithoutCompletion : Prop :=
  ∀ s : State, s.Quiet → s.seq = .wait → s.istrCtr = false →
    ∃ c : BitVec 20,
      (∀ m rest, s.program = .sie m :: rest →
        step s = .next ({ s with waitCtr := c, program := rest }.sieMove m)) ∧
      ((∀ m rest, s.program ≠ .sie m :: rest) → step s = .next { s with waitCtr := c })

/-- R233, R312, R336: SIE.TIMEOUT during a wait with `ISTR.CTR` = 0 ends the wait; the next step logs the cursor, sets
`tx_err`, and performs the final write computed from the snapshot; the invocation is over. That `wait_ctr` and the cursor
keep their last values is the model's choice (assumptions 31, 32). -/
def Obligations.TimeoutAbandonsTransfer : Prop :=
  ∀ s : State, s.Quiet → s.seq = .wait → s.istrCtr = false →
    s.sieMove .timeout = { s with seq := .run .timeout } ∧
    step (s.sieMove .timeout) = .next
      { s with diagLog := s.diagLog ++ [.txTimeout s.curOff s.curRem]
               txErr := true
               epr := eprAfter s s.served.toNat (normalize (retTx s.snapshotWord))
               seq := .idle
               irqMasked := false }

/-- R233, R364: the final write of a timed-out transfer disarms the pending chunk: with transmit VALID in hardware and NAK
in the snapshot, transmit lands on NAK, the toggles stay and the flags are cleared. -/
def Obligations.StaleSnapshotDisarms : Prop :=
  ∀ r s : Half, statTx r = 3#2 → statTx s = 2#2 →
    statTx (writeRule r (normalize (retTx s))) = 2#2 ∧ dtogTx (writeRule r (normalize (retTx s))) = dtogTx r ∧
    ctrTx (writeRule r (normalize (retTx s))) = false

/-- R234, R235, R230: the packet-count law. From the Dispatch point of a HID report request, with a host that takes every
packet and no other transaction, the engine sends the first `min(HIDREP_LEN, wLength)` bytes of the report in packets of
M bytes and a last shorter one, which is empty exactly when the length is a multiple of M. A statement of a whole run. -/
def Obligations.PacketCountLaw : Prop :=
  ∀ (s : State) (x l : Half),
    let m := (s.epAt 0).txSize.toNat
    let len := min s.cfg.rom.hidRep.length l.toNat
    let bytes := s.cfg.rom.hidRep.take len
    let packets := packetsOf m len bytes
    s.Quiet → TxReady s 0 → 0 < m → m < 1024 → s.pma.wf = true → bumpInit ≤ (s.epAt 0).txBase.toNat →
    s.seq = .run .dispatch → s.setup = packSetup 0x81#8 0x06#8 0x2200#16 x l → s.served = 0 →
    s.daddr.getLsbD 7 = true → s.pma.read16 0 = (s.epAt 0).txBase →
    (s.epAt 0).status = s.eprAt 0 → statTx (s.eprAt 0) = 2#2 →
    (∀ n, 0 < n → n < 8 → s.flagged n = false) →
    s.program = List.replicate packets.length (.sie (.inTok 0)) →
    (∃ t, Sys2Proof.core.run (2 * packets.length) s = .next t ∧ t.seq = .idle ∧
      t.wireIn = s.wireIn ++ packets.map fun p => (0#4, p)) ∧
    packets.flatten = bytes ∧
    (packets.filter fun p => !p.isEmpty).length = (len + m - 1) / m ∧
    ([] ∈ packets ↔ len % m = 0) ∧ (0 < len → len % m = 0 → packets.getLast? = some [])

/-! ## The dispatcher -/

/-- R252, R170: the reset branch: the table rewound and endpoint 0 re-created as control type, the device state and the
latches cleared, `DADDR` = 0x80. -/
def Obligations.ResetBranchRecreatesEndpointZero : Prop :=
  ∀ s : State, s.Quiet → s.cfg.wf →
    exec .irqReset s = .next
      { s with
        istrReset := false
        ep := (Vector.replicate 8 Endpoint.zero).setIfInBounds 0
          { allocated := true, type := .control, txBase := 64#16, txSize := BitVec.ofNat 16 s.cfg.ep0Size,
            rxBase := 64#16 + BitVec.ofNat 16 s.cfg.ep0Size, rxSize := BitVec.ofNat 16 s.cfg.ep0Size, rxCount := 0,
            rxFlag := false, txFlag := false, setupFlag := false, status := 0, handler := .ep0 }
        bump := 64#16 + BitVec.ofNat 16 s.cfg.ep0Size + BitVec.ofNat 16 s.cfg.ep0Size
        dev := { status := .defaultState, pendingAddr := 0, config := 0 }
        addrLatch := false
        scratchLen := 0
        txErr := false
        pma := (((s.pma.write16 0 64#16).write16 2 0x0000#16).write16 4
          (64#16 + BitVec.ofNat 16 s.cfg.ep0Size)).write16 6 (countRxWord s.cfg.ep0Size)
        epr := eprAfter s 0 (allocWord (s.eprAt 0) .control 0#4)
        daddr := 0x80#8
        phase := .waitSetup }

/-- R253 to R256, R259: a reception with the SETUP bit set on endpoint 0 is latched into `setup`, eight bytes in wire order
whatever the count, `scratch_len` is 0, and the control handler enters Dispatch. That the bytes of `scratch` stay is the
model's choice (assumption 33). -/
def Obligations.SetupPacketLatched : Prop :=
  ∀ s : State, s.Quiet → s.cfg.wf → (s.epAt 0).allocated = true → (s.epAt 0).handler = .ep0 →
    ctrRx (s.eprAt 0) = true → setupBit (s.eprAt 0) = true → RxReady s 0 8 →
    exec (.irqCtrOut 0) s = .next
      { afterSnapshot s 0 with
        setup := setupWord (s.pma.readBytes (s.epAt 0).rxBase.toNat 8)
        scratchLen := 0
        phase := .dispatch
        seq := .run .dispatch } ∧
    setupBytes (setupWord (s.pma.readBytes (s.epAt 0).rxBase.toNat 8)) =
      s.pma.readBytes (s.epAt 0).rxBase.toNat 8

/-- R255, R241: a plain reception on endpoint 0 goes to the scratch buffer, cut to its capacity, and completes: both
directions VALID, phase WaitSetup; a transmit completion latched with it applies the address first (R200, R240). That the
bytes of `scratch` above the payload stay is the model's choice (assumption 33). -/
def Obligations.OutPayloadToScratch : Prop :=
  ∀ s : State,
    let count := min (receivedCount (s.pma.read16 6)).toNat s.cfg.ep0Size
    s.Quiet → s.cfg.wf → (s.epAt 0).allocated = true → (s.epAt 0).handler = .ep0 →
    ctrRx (s.eprAt 0) = true → setupBit (s.eprAt 0) = false → RxReady s 0 count →
    let copied : State := { afterSnapshot s 0 with
      scratch := s.pma.readBytes (s.epAt 0).rxBase.toNat count ++ s.scratch.drop count
      scratchLen := BitVec.ofNat 16 count }
    exec (.irqCtrOut 0) s = .next
      (afterFinal { (if ctrTx (s.eprAt 0) then afterAddress copied else copied) with phase := .waitSetup } 0
        (setValidTx (setValidRx (s.eprAt 0))))

/-- R200, R240, R241, R242: what the control handler does with an event of an endpoint it is registered for, in either
direction: a latched SETUP enters Dispatch; otherwise a transmit completion applies the deferred address as the mode says,
and any completion re-arms both directions and returns to WaitSetup; without a flag nothing changes but the final write.
The bytes of `scratch` above a payload are assumption 33, the handler on an endpoint other than 0 is assumption 16. -/
def Obligations.ControlHandlerCases : Prop :=
  ∀ (s : State) (n : BitVec 4) (out : Bool),
    let i : Instr := if out then .irqCtrOut n else .irqCtrIn n
    let r := s.eprAt n.toNat
    let e := afterEvent s n out
    s.Quiet → s.cfg.wf → n.toNat < 8 → CopyReady s n out → (s.epAt n.toNat).allocated = true →
    (s.epAt n.toNat).handler = .ep0 →
    (ctrRx r = true → setupBit r = true → exec i s = .next { e with phase := .dispatch, seq := .run .dispatch }) ∧
    (¬ (ctrRx r = true ∧ setupBit r = true) → ctrTx r = true →
      exec i s = .next (afterFinal { afterAddress e with phase := .waitSetup } n.toNat (setValidTx (setValidRx r)))) ∧
    (ctrRx r = true → setupBit r = false → ctrTx r = false →
      exec i s = .next (afterFinal { e with phase := .waitSetup } n.toNat (setValidTx (setValidRx r)))) ∧
    (ctrRx r = false → ctrTx r = false →
      exec i s = .next (afterFinal e n.toNat (keepStatTx (keepStatRx r))))

/-- R256, R257: an event on an endpoint that is not allocated leaves the snapshot (and, on endpoint 0, the copy), clears the
flags by the final write and keeps the status fields (the bytes of `scratch` above a payload: assumption 33). -/
def Obligations.UnallocatedEndpointDefault : Prop :=
  ∀ (s : State) (n : BitVec 4) (out : Bool),
    s.Quiet → s.cfg.wf → n.toNat < 8 → CopyReady s n out → (s.epAt n.toNat).allocated = false →
    exec (if out then .irqCtrOut n else .irqCtrIn n) s = .next
      (afterFinal (afterEvent s n out) n.toNat (keepStatTx (keepStatRx (s.eprAt n.toNat))))

/-- R256, R261, R27: an event on an endpoint with an external handler calls it with the snapshot, whatever function it is:
without WRITE_IRQ operations its word goes to the final write at once, else they are outstanding. That `EXT(0)` has a
function of its own is the model's choice (assumption 30). -/
def Obligations.ExternalHandlerCalled : Prop :=
  ∀ (s : State) (n : BitVec 4) (out : Bool) (k : Nat),
    s.Quiet → s.cfg.wf → n.toNat < 8 → CopyReady s n out →
    (s.epAt n.toNat).allocated = true → (s.epAt n.toNat).handler = .ext k →
    let a := extAction (s.cfg.ext[k]?.getD .param) (BitVec.ofNat 4 k) ((afterSnapshot s n).epAt n.toNat)
    exec (if out then .irqCtrOut n else .irqCtrIn n) s = .next
      (if a.writes.isEmpty then afterFinal (afterEvent s n out) n.toNat a.word
       else { afterEvent s n out with hq := a.writes, hword := a.word, seq := .run .ext })

/-- R111, R253: an event whose EP_ID is outside the table is refused. -/
def Obligations.EndpointNumberOutOfRangeRefused : Prop :=
  ∀ (s : State) (n : BitVec 4), 8 ≤ n.toNat →
    exec (.irqCtrOut n) s = .refused (.epIdOutOfRange n) ∧ exec (.irqCtrIn n) s = .refused (.epIdOutOfRange n)

/-- R317, R318, R258: taking the interrupt changes the mask and the sequencer and nothing else; so does the exit. That the
exit keeps `cur_off` and `cur_rem` is the model's choice (assumption 31). -/
def Obligations.InterruptEntryAndExit : Prop :=
  ∀ (s : State) (rest : List Line),
    (s.seq = .idle → s.irqMasked = false → s.program = .irq :: rest →
      step s = .next { s with program := rest, irqMasked := true, seq := .run .resetTest }) ∧
    (s.seq = .idle → s.irqMasked = false → s.program = [] → (s.istrReset = true ∨ s.istrCtr = true) →
      step s = .next { s with irqMasked := true, seq := .run .resetTest }) ∧
    (s.seq = .run .leave → step s = .next { s with irqMasked := false, seq := .idle })

/-- The frame of IRQ_CTR_OUT and IRQ_CTR_IN: no byte of packet memory changes, only the served entry of the endpoint table
and the served endpoint register change, and only endpoint 0's control handler touches device state, phase and address
(R25, R43, R253 to R257, R261, R262). -/
def Obligations.TransactionCompleteFrame : Prop :=
  ∀ (s t : State) (n : BitVec 4) (i : Instr), s.Quiet → i = .irqCtrOut n ∨ i = .irqCtrIn n → exec i s = .next t →
    t.cfg = s.cfg ∧ t.bump = s.bump ∧ t.irqMasked = s.irqMasked ∧ t.diagLog = s.diagLog ∧ t.txErr = s.txErr ∧
    t.waitCtr = s.waitCtr ∧ t.curOff = s.curOff ∧ t.curRem = s.curRem ∧ t.txSrc = s.txSrc ∧
    t.istrReset = s.istrReset ∧ t.istrIdle = s.istrIdle ∧ t.wireIn = s.wireIn ∧ t.istrLatch = s.istrLatch ∧
    t.result = s.result ∧ t.dst = s.dst ∧ t.app = s.app ∧ t.appReg = s.appReg ∧ t.appSplit = s.appSplit ∧
    t.program = s.program ∧ t.race = s.race ∧ t.epIdDraws = s.epIdDraws ∧ t.drawCount = s.drawCount ∧
    (∀ m, m < 8 → m ≠ n.toNat → t.epAt m = s.epAt m ∧ t.eprAt m = s.eprAt m) ∧
    ((s.epAt n.toNat).handler ≠ .ep0 ∨ (s.epAt n.toNat).allocated = false →
      t.dev = s.dev ∧ t.daddr = s.daddr ∧ t.addrLatch = s.addrLatch ∧ t.phase = s.phase) ∧
    (n ≠ 0 ∨ i = .irqCtrIn n → t.setup = s.setup ∧ t.scratch = s.scratch ∧ t.scratchLen = s.scratchLen) ∧
    (∀ a, t.pma.read a = s.pma.read a)

/-! ## The command port -/

/-- R290: GET_STATE returns the code of `dev.status` and changes nothing else. -/
def Obligations.GetStateReturnsStatus : Prop :=
  ∀ s : State, exec .getState s = .next
    { s with result := .state (match s.dev.status with
      | .defaultState => 0#2 | .addressed => 1#2 | .configured => 2#2) }

/-- R285, R281: WRITE copies at most `tx_size` bytes, sets COUNT_TX, and arms transmit VALID, receive NAK by one write; no
byte of packet memory outside the units it stores and COUNT_TX changes. -/
def Obligations.WriteCopiesAndArms : Prop :=
  ∀ (s : State) (n : BitVec 4) (data : List Byte), s.Quiet → s.appSplit = none → TxReady s n.toNat →
    let staged := stagedPma s n.toNat (data.take (s.epAt n.toNat).txSize.toNat)
    (∀ a : Nat, (a < (s.epAt n.toNat).txBase.toNat ∨
        (s.epAt n.toNat).txBase.toNat + 2 * unitCount (copyLength data.length (s.epAt n.toNat)) ≤ a) →
      (a < 8 * n.toNat + 2 ∨ 8 * n.toNat + 4 ≤ a) → staged.read a = s.pma.read a) ∧
    exec (.write n data) s = .next
      { s with
        pma := staged
        appReg := s.eprAt n.toNat
        epr := eprAfter s n.toNat
          (keepCtr (keepDtogTx (keepDtogRx (setValidTx (setNakRx (s.eprAt n.toNat)))))) }

/-- R280, R281: WRITE_IRQ inside an invocation copies and sets COUNT_TX, and touches no register and no other byte. -/
def Obligations.WriteIrqCopiesOnly : Prop :=
  ∀ (s : State) (n : BitVec 4) (data : List Byte), s.Quiet → s.seq ≠ .idle → TxReady s n.toNat →
    let staged := stagedPma s n.toNat (data.take (s.epAt n.toNat).txSize.toNat)
    (∀ a : Nat, (a < (s.epAt n.toNat).txBase.toNat ∨
        (s.epAt n.toNat).txBase.toNat + 2 * unitCount (copyLength data.length (s.epAt n.toNat)) ≤ a) →
      (a < 8 * n.toNat + 2 ∨ 8 * n.toNat + 4 ≤ a) → staged.read a = s.pma.read a) ∧
    exec (.writeIrq n data) s = .next { s with pma := staged }

/-- R281, R73, R74: what COPY_IN stages reads back as the bytes of the linear buffer, COUNT_TX is their number, an odd
trailing byte's unit is padded with 0x00, and every other byte of packet memory is unchanged. -/
def Obligations.StagedBytesReadBack : Prop :=
  ∀ (s : State) (n : Nat) (bytes : List Byte), s.pma.wf = true → n < 8 → bytes.length < 1024 →
    bumpInit ≤ (s.epAt n).txBase.toNat →
    (stagedPma s n bytes).readBytes (s.epAt n).txBase.toNat bytes.length = bytes ∧
    (stagedPma s n bytes).read16 (8 * n + 2) = BitVec.ofNat 16 bytes.length ∧
    (bytes.length % 2 = 1 → (stagedPma s n bytes).read ((s.epAt n).txBase.toNat + bytes.length) = 0x00#8) ∧
    (∀ a : Nat, (a < (s.epAt n).txBase.toNat ∨ (s.epAt n).txBase.toNat + 2 * ((bytes.length + 1) / 2) ≤ a) →
      (a < 8 * n + 2 ∨ 8 * n + 4 ≤ a) → (stagedPma s n bytes).read a = s.pma.read a) ∧
    (stagedPma s n bytes).wf = true

/-- R288: READ returns the latched count bounded by the buffer size and the bytes of the receive buffer; it is not
consuming and writes no register and no byte of packet memory. -/
def Obligations.ReadReturnsReceivedBytes : Prop :=
  ∀ (s : State) (n : BitVec 4),
    let count := min (s.epAt n.toNat).rxCount.toNat (s.epAt n.toNat).rxSize.toNat
    s.Quiet → s.appSplit = none → n.toNat < 8 → (s.epAt n.toNat).allocated = true → RxReady s n.toNat count →
    exec (.read n) s = .next
      { s with dst := s.pma.readBytes (s.epAt n.toNat).rxBase.toNat count
               result := .read (BitVec.ofNat 10 count) }

/-- R280, R285, R288, R294: WRITE, WRITE_IRQ and READ on a number outside the table or on an endpoint never allocated are
refused, and so is WRITE_IRQ outside an invocation. -/
def Obligations.CommandsRefusedWithoutEndpoint : Prop :=
  ∀ (s : State) (n : BitVec 4) (data : List Byte),
    (8 ≤ n.toNat →
      exec (.write n data) s = .refused (.endpointOutOfRange n) ∧ exec (.read n) s = .refused (.endpointOutOfRange n) ∧
      (s.seq ≠ .idle → exec (.writeIrq n data) s = .refused (.endpointOutOfRange n))) ∧
    (n.toNat < 8 → (s.epAt n.toNat).allocated = false →
      exec (.write n data) s = .refused (.endpointNotAllocated n) ∧
      exec (.read n) s = .refused (.endpointNotAllocated n) ∧
      (s.seq ≠ .idle → exec (.writeIrq n data) s = .refused (.endpointNotAllocated n))) ∧
    (s.seq = .idle → exec (.writeIrq n data) s = .refused .writeIrqOutsideInterrupt)

/-- R317, R370: a command of APP that is preempted after any number of its accesses and goes on with nothing in between
ends as the command that is not preempted. -/
def Obligations.PreemptedCommandResumes : Prop :=
  ∀ (as : List Access) (s : State) (j : Nat), s.app = [] →
    andThen (runApp as { s with appSplit := some j }) (resumeApp none) = runApp as { s with appSplit := none }

/-! ## The environment -/

/-- R330 to R334, R336: each move of the SIE takes place exactly under its precondition, and what it does, the endpoint
register field by field. RESET has no precondition, clears every endpoint register and sets ISTR.RESET. That a move whose
precondition fails changes nothing is the model's reading of U12 (assumption 10); that the whole buffer of an OUT lies inside
packet memory is its reading of R333 (assumption 25); that a pending bus reset is no condition of a move is its reading of
R331's last sentence (assumption 35). -/
def Obligations.SieRegisterEffects : Prop :=
  ∀ s : State,
    s.sieMove .reset = { s with istrReset := true, epr := Vector.replicate 8 0x0000#16 } ∧
    (∀ (w : BitVec 64) (drx dtx : Bool),
      let t := s.sieMove (.setup w drx dtx)
      let old := s.eprAt 0
      let new := t.eprAt 0
      let enabled := s.daddr.getLsbD 7 = true ∧ epTypeField old = 1#2 ∧ ctrRx old = false ∧
        (statRx old = 2#2 ∨ statRx old = 3#2) ∧ (s.pma.read16 4).toNat + 8 ≤ s.cfg.pmaSize
      (¬ enabled → t = s) ∧
      (enabled →
        t = { s with pma := sieReceive s.pma 0 (setupBytes w), epr := t.epr } ∧
        (∀ m, m ≠ 0 → t.eprAt m = s.eprAt m) ∧
        ctrRx new = true ∧ setupBit new = true ∧ statRx new = 2#2 ∧ statTx new = 2#2 ∧ dtogRx new = drx ∧
        dtogTx new = dtx ∧ ctrTx new = ctrTx old ∧ epTypeField new = epTypeField old ∧ epKind new = epKind old ∧
        epAddress new = epAddress old)) ∧
    (∀ (n : BitVec 4) (data : List Byte),
      let t := s.sieMove (.out n data)
      let old := s.eprAt n.toNat
      let new := t.eprAt n.toNat
      let size := codeSize (sizeCodeOf (s.pma.read16 (8 * n.toNat + 6))).toNat
      let enabled := s.daddr.getLsbD 7 = true ∧ n.toNat < 8 ∧ statRx old = 3#2 ∧ ctrRx old = false ∧
        data.length ≤ size ∧ data.length ≤ 1023 ∧ (s.pma.read16 (8 * n.toNat + 4)).toNat + size ≤ s.cfg.pmaSize
      (¬ enabled → t = s) ∧
      (enabled →
        t = { s with pma := sieReceive s.pma n.toNat data, epr := t.epr } ∧
        (∀ m, m ≠ n.toNat → t.eprAt m = s.eprAt m) ∧
        ctrRx new = true ∧ setupBit new = false ∧ statRx new = 2#2 ∧ statTx new = statTx old ∧
        dtogRx new = !dtogRx old ∧ dtogTx new = dtogTx old ∧ ctrTx new = ctrTx old ∧
        epTypeField new = epTypeField old ∧ epKind new = epKind old ∧ epAddress new = epAddress old)) ∧
    (∀ n : BitVec 4,
      let t := s.sieMove (.inTok n)
      let old := s.eprAt n.toNat
      let new := t.eprAt n.toNat
      let len := ((s.pma.read16 (8 * n.toNat + 2)).extractLsb' 0 10).toNat
      let enabled := s.daddr.getLsbD 7 = true ∧ n.toNat < 8 ∧ statTx old = 3#2 ∧
        (s.pma.read16 (8 * n.toNat)).toNat + len ≤ s.cfg.pmaSize
      (¬ enabled → t = s) ∧
      (enabled →
        t = { s with wireIn := s.wireIn ++ [(n, s.pma.readBytes (s.pma.read16 (8 * n.toNat)).toNat len)]
                     epr := t.epr } ∧
        (∀ m, m ≠ n.toNat → t.eprAt m = s.eprAt m) ∧
        ctrTx new = true ∧ statTx new = 2#2 ∧ dtogTx new = !dtogTx old ∧ ctrRx new = ctrRx old ∧
        setupBit new = setupBit old ∧ statRx new = statRx old ∧ dtogRx new = dtogRx old ∧
        epTypeField new = epTypeField old ∧ epKind new = epKind old ∧ epAddress new = epAddress old)) ∧
    (let t := s.sieMove .timeout
     (¬ (s.seq = .wait ∧ s.istrCtr = false) → t = s) ∧
     (s.seq = .wait ∧ s.istrCtr = false → t = { s with seq := .run .timeout }))

/-- R333, R332: a reception stores the bytes at ADDR_RX, sets the received count and keeps the size code; no other byte
changes. The buffer lies above the buffer table. -/
def Obligations.ReceptionStoresBytes : Prop :=
  ∀ (m : Memory) (n : Nat) (data : List Byte), m.wf = true → n < 8 → data.length ≤ 1023 →
    bumpInit ≤ (m.read16 (8 * n + 4)).toNat →
    (sieReceive m n data).readBytes (m.read16 (8 * n + 4)).toNat data.length = data ∧
    receivedCount ((sieReceive m n data).read16 (8 * n + 6)) = BitVec.ofNat 10 data.length ∧
    sizeCodeOf ((sieReceive m n data).read16 (8 * n + 6)) = sizeCodeOf (m.read16 (8 * n + 6)) ∧
    (∀ a : Nat, (a < (m.read16 (8 * n + 4)).toNat ∨ (m.read16 (8 * n + 4)).toNat + data.length ≤ a) →
      (a < 8 * n + 6 ∨ 8 * n + 8 ≤ a) → (sieReceive m n data).read a = m.read a)

/-! ## The step -/

/-- A step runs the decoded operation: at the Dispatch point that of `setup` (R85, R202), at the reset test the reset branch
(R250), at the transaction-complete branch that of the latched word (R253), in an external handler its next WRITE_IRQ
(R27), and between invocations that of the command port (R108); an invocation that is done leaves. The steps that run no
operation: the reset test without RESET goes on to the test of `ISTR.CTR`; that test reads `ISTR` once, latches the word and
goes on to the transaction-complete branch, or leaves (R250, R251, R253, R106); an external handler with no WRITE_IRQ
outstanding returns its word to the final write and the invocation leaves (R256, R257, R258); between invocations a line of
the SIE is its move (R116), and a preempted command goes on (R317; the order of the lines is assumption 7). The points are
the model's cut of an invocation (assumptions 6, 17). -/
def Obligations.StepRunsDecodedInstruction : Prop :=
  ∀ s : State,
    (∀ i : Instr,
      (s.seq = .run .dispatch → i.wellFormed s.cfg.rqHidSetFeature = true →
        encode s.cfg.rqHidSetFeature i = .setup s.setup → step s = leaving (exec i s)) ∧
      (s.seq = .run .serve → decodeCtr s.istrLatch = some i → step s = leaving (exec i s)) ∧
      (∀ p split rest, s.seq = .idle → s.app = [] → s.program = .cmd p split :: rest → decodeCmd p = .ok i →
        step s = leaving (exec i { s with program := rest, appSplit := split }))) ∧
    (s.seq = .run .resetTest →
      (s.pause.istrReset = true → step s = leaving (exec .irqReset { s.pause with seq := .run .ctrTest })) ∧
      (s.pause.istrReset = false → step s = .next { s.pause with seq := .run .ctrTest })) ∧
    (readIstr s).1.getLsbD 15 = s.pause.istrCtr ∧
    (s.seq = .run .ctrTest →
      (s.pause.istrCtr = true → ∃ draws count, step s = .next
        { s.pause with epIdDraws := draws, drawCount := count, istrLatch := (readIstr s).1, seq := .run .serve }) ∧
      (s.pause.istrCtr = false → step s = .next { s.pause with irqMasked := false, seq := .idle })) ∧
    (s.seq = .run .ext →
      (∀ w rest, s.hq = w :: rest → step s = leaving (exec (.writeIrq w.n w.data) { s with hq := rest })) ∧
      (s.hq = [] → step s = .next
        { s.pause with epr := eprAfter s.pause s.served.toNat (normalize s.hword), irqMasked := false, seq := .idle })) ∧
    (s.seq = .idle →
      (∀ m rest, s.program = .sie m :: rest → step s = .next ({ s with program := rest }.sieMove m)) ∧
      (∀ split rest, s.program = .app split :: rest → step s = leaving (resumeApp split { s with program := rest })) ∧
      (∀ p split rest, s.program = .cmd p split :: rest → s.app ≠ [] → step s = leaving (resumeApp none s)) ∧
      (s.program = [] → s.irqRequest = false → s.app ≠ [] → step s = leaving (resumeApp none s)))

/-- R44, R335, R253: the word an invocation reads from `ISTR` when some endpoint has a flag set has CTR = 1, names in EP_ID
an endpoint that has a flag set, and DIR is that endpoint's CTR_RX. -/
def Obligations.InterruptStatusNamesFlaggedEndpoint : Prop :=
  ∀ s : State, s.Quiet → s.istrCtr = true →
    let i := (readIstr s).1
    i.getLsbD 15 = true ∧ i.getLsbD 10 = s.istrReset ∧ (interruptingEndpoint i).toNat < 8 ∧
    s.flagged (interruptingEndpoint i).toNat = true ∧
    i.getLsbD 4 = ctrRx (s.eprAt (interruptingEndpoint i).toNat)

/-! ## Whole-machine rules -/

/-- R71: every step keeps packet memory in its canonical form and inside its bounds. -/
def Obligations.StepKeepsPacketMemory : Prop :=
  ∀ s t : State, s.cfg.wf → MemInv s → step s = .next t → MemInv t

/-- R22, R28, R167: every step keeps the allocator's invariant. -/
def Obligations.StepKeepsAllocator : Prop :=
  ∀ s t : State, s.cfg.wf → AllocInv s → step s = .next t → AllocInv t

/-- R35, R243, R258, R318: every step keeps interrupts masked exactly during an invocation, and no invocation is left, and no
wait entered, in phase Dispatch. -/
def Obligations.StepKeepsMode : Prop :=
  ∀ s t : State, ModeInv s → step s = .next t → ModeInv t

/-- R30: every step keeps the scratch length within the scratch capacity. -/
def Obligations.StepKeepsScratchBound : Prop :=
  ∀ s t : State, s.cfg.wf → s.scratchLen.toNat ≤ s.cfg.scratchCap → step s = .next t →
    t.scratchLen.toNat ≤ t.cfg.scratchCap

/-- The invariants hold at reset, with the power-on values R50 states, under the test configuration that `State.reset`
chooses (assumption 1). -/
def Obligations.ResetState : Prop :=
  let s := State.reset
  s.cfg.wf ∧ MemInv s ∧ AllocInv s ∧ ModeInv s ∧ s.bump = 64#16 ∧ (∀ n, s.epAt n = Endpoint.zero) ∧
  (∀ n, s.eprAt n = 0x0000#16) ∧ s.istrReset = false ∧ s.istrCtr = false ∧ s.daddr = 0x00#8 ∧
  s.dev = { status := .defaultState, pendingAddr := 0, config := 0 } ∧ s.addrLatch = false ∧ s.phase = .waitSetup ∧
  s.seq = .idle ∧ s.irqMasked = false ∧ s.scratchLen = 0 ∧ s.diagLog = [] ∧ s.txErr = false ∧ s.wireIn = []

/-- U3, R167, R75: from a state that meets the allocator's invariant, with endpoint 0 as the reset branch creates it and no
preempted command, no step faults: the engine issues no access outside packet memory. It says nothing of a step that goes
on with a preempted command, nor of a state whose endpoint 0 is not created yet or was allocated again with another size. -/
def Obligations.NoFaultUnderAllocator : Prop :=
  ∀ (s : State) (f : Fault), s.cfg.wf → AllocInv s → Ep0Sized s → s.app = [] →
    step s ≠ .fault f

/-- R36, R323, R334: the diagnostic log and the wire log are append-only: every step leaves both extended or as they were,
and the configuration with the descriptor ROM never changes (R47). -/
def Obligations.LogsAppendOnly : Prop :=
  ∀ s t : State, step s = .next t → s.diagLog <+: t.diagLog ∧ s.wireIn <+: t.wireIn ∧ t.cfg = s.cfg

/-- R262, R213, R240: `DADDR` changes only in the reset branch, to 0x80, and in the transaction-complete branch, to the
pending address with the enable bit; no operation of format SETUP and no command writes it. -/
def Obligations.AddressRegisterWriters : Prop :=
  ∀ s t : State, step s = .next t →
    t.daddr = s.daddr ∨ (s.seq = .run .resetTest ∧ t.daddr = 0x80#8) ∨
    (s.seq = .run .serve ∧ t.daddr = 0x80#8 ||| s.dev.pendingAddr.setWidth 8 ∧ t.dev.status = .addressed)

/-- R31: the device status moves to DEFAULT only in the reset branch, to ADDRESSED only with the address applied, to
CONFIGURED only by SET_CONFIGURATION. -/
def Obligations.DeviceStatusTransitions : Prop :=
  ∀ s t : State, step s = .next t → t.dev.status ≠ s.dev.status →
    (t.dev.status = .defaultState ∧ s.seq = .run .resetTest) ∨
    (t.dev.status = .addressed ∧ s.seq = .run .serve ∧ t.daddr = 0x80#8 ||| s.dev.pendingAddr.setWidth 8) ∨
    (t.dev.status = .configured ∧ s.seq = .run .dispatch ∧
      ∃ v x l, decodeSetup s.cfg.rqHidSetFeature s.setup = .setConfiguration v x l ∧ t.dev.config = v.extractLsb' 0 8)
end

