-- ==== Sys2Proof/Laws/Decode.lean ====
section
/-! SUPPORT. Laws of the encodings: the fields of a packed Setup Packet, the packet of its fields, the type code, and the
rows a decoded Setup Packet can stand in. -/

namespace Sys2Proof

/-- The bits of a packed Setup Packet, field by field (R101). -/
theorem getLsbD_packSetup (bm rq : Byte) (v i l : Half) (k : Nat) :
    (packSetup bm rq v i l).getLsbD k =
      if k < 8 then bm.getLsbD k else if k < 16 then rq.getLsbD (k - 8) else if k < 32 then v.getLsbD (k - 16)
      else if k < 48 then i.getLsbD (k - 32) else l.getLsbD (k - 48) := by
  show BitVec.getLsbD (w := 16 + 16 + 16 + 8 + 8) (l ++ i ++ v ++ rq ++ bm) k = _
  rw [BitVec.getLsbD_append, BitVec.getLsbD_append, BitVec.getLsbD_append, BitVec.getLsbD_append]
  split
  · rfl
  · split
    · rw [if_pos (by omega)]
    · split
      · rw [if_neg (by omega), if_pos (by omega), Nat.sub_sub]
      · split
        · rw [if_neg (by omega), if_neg (by omega), if_pos (by omega), Nat.sub_sub, Nat.sub_sub]
        · rw [if_neg (by omega), if_neg (by omega), if_neg (by omega), Nat.sub_sub, Nat.sub_sub, Nat.sub_sub]

@[simp] theorem bmRequestTypeOf_packSetup (bm rq : Byte) (v i l : Half) :
    bmRequestTypeOf (packSetup bm rq v i l) = bm := by
  apply BitVec.eq_of_getLsbD_eq
  intro k hk
  simp only [bmRequestTypeOf, BitVec.getLsbD_extractLsb', hk, decide_true, Bool.true_and]
  rw [getLsbD_packSetup, if_pos (by omega), show 0 + k = k by omega]

@[simp] theorem bRequestOf_packSetup (bm rq : Byte) (v i l : Half) :
    bRequestOf (packSetup bm rq v i l) = rq := by
  apply BitVec.eq_of_getLsbD_eq
  intro k hk
  simp only [bRequestOf, BitVec.getLsbD_extractLsb', hk, decide_true, Bool.true_and]
  rw [getLsbD_packSetup, if_neg (by omega), if_pos (by omega), show 8 + k - 8 = k by omega]

@[simp] theorem wValueOf_packSetup (bm rq : Byte) (v i l : Half) :
    wValueOf (packSetup bm rq v i l) = v := by
  apply BitVec.eq_of_getLsbD_eq
  intro k hk
  simp only [wValueOf, BitVec.getLsbD_extractLsb', hk, decide_true, Bool.true_and]
  rw [getLsbD_packSetup, if_neg (by omega), if_neg (by omega), if_pos (by omega), show 16 + k - 16 = k by omega]

@[simp] theorem wIndexOf_packSetup (bm rq : Byte) (v i l : Half) :
    wIndexOf (packSetup bm rq v i l) = i := by
  apply BitVec.eq_of_getLsbD_eq
  intro k hk
  simp only [wIndexOf, BitVec.getLsbD_extractLsb', hk, decide_true, Bool.true_and]
  rw [getLsbD_packSetup, if_neg (by omega), if_neg (by omega), if_neg (by omega), if_pos (by omega), show 32 + k - 32 = k by omega]

@[simp] theorem wLengthOf_packSetup (bm rq : Byte) (v i l : Half) :
    wLengthOf (packSetup bm rq v i l) = l := by
  apply BitVec.eq_of_getLsbD_eq
  intro k hk
  simp only [wLengthOf, BitVec.getLsbD_extractLsb', hk, decide_true, Bool.true_and]
  rw [getLsbD_packSetup, if_neg (by omega), if_neg (by omega), if_neg (by omega), if_neg (by omega), show 48 + k - 48 = k by omega]

/-- A Setup Packet is the word of its five fields (R101). -/
theorem packSetup_fields (w : BitVec 64) :
    packSetup (bmRequestTypeOf w) (bRequestOf w) (wValueOf w) (wIndexOf w) (wLengthOf w) = w := by
  apply BitVec.eq_of_getLsbD_eq
  intro k hk
  simp only [getLsbD_packSetup, bmRequestTypeOf, bRequestOf, wValueOf, wIndexOf, wLengthOf, BitVec.getLsbD_extractLsb']
  split
  · simp [*]
  · split
    · rw [show 8 + (k - 8) = k by omega, decide_eq_true (by omega), Bool.true_and]
    · split
      · rw [show 16 + (k - 16) = k by omega, decide_eq_true (by omega), Bool.true_and]
      · split
        · rw [show 32 + (k - 32) = k by omega, decide_eq_true (by omega), Bool.true_and]
        · rw [show 48 + (k - 48) = k by omega, decide_eq_true (by omega), Bool.true_and]

@[simp] theorem ofCode_code (t : EpType) : EpType.ofCode t.code = t := by cases t <;> rfl

/-- A Setup Packet decodes to an operation of format SETUP (R105, R111). -/
theorem setupRow_decodeSetup (rqHid : Byte) (w : BitVec 64) : (decodeSetup rqHid w).setupRow ≠ none := by
  unfold decodeSetup decodeFields decodeGetGroup decodeSetGroup
  repeat' split
  all_goals exact fun h => nomatch h

/-- A command decodes to no operation of the other formats (R108). -/
theorem setupRow_decodeCmd {p : Port} {i : Instr} (h : decodeCmd p = .ok i) : i.setupRow = none := by
  unfold decodeCmd at h
  repeat' split at h
  all_goals cases h <;> rfl

theorem decodeCmd_cases {p : Port} {i : Instr} (h : decodeCmd p = .ok i) :
    i = .getState ∨ (∃ n t x r k, i = .allocate n t x r k) ∨ (∃ n d, i = .write n d ∧ d.length < 65536) ∨
    (∃ n d, i = .writeIrq n d ∧ d.length < 65536) ∨ ∃ n, i = .read n := by
  unfold decodeCmd at h
  repeat' split at h
  all_goals cases h
  · exact .inl rfl
  · exact .inr (.inl ⟨_, _, _, _, _, rfl⟩)
  · exact .inr (.inr (.inl ⟨_, _, rfl, ‹_›⟩))
  · exact .inr (.inr (.inr (.inl ⟨_, _, rfl, ‹_›⟩)))
  · exact .inr (.inr (.inr (.inr ⟨_, rfl⟩)))

/-- A latched interrupt-status word decodes to a transaction-complete operation (R106). -/
theorem decodeCtr_cases {w : Half} {i : Instr} (h : decodeCtr w = some i) :
    i = .irqCtrOut (w.extractLsb' 0 4) ∨ i = .irqCtrIn (w.extractLsb' 0 4) := by
  unfold decodeCtr at h
  repeat' split at h
  all_goals cases h
  · exact .inl rfl
  · exact .inr rfl

end Sys2Proof
end

