-- ==== Sys2Proof/Laws/State.lean ====
section
/-! SUPPORT. The small laws of the state: the indexed registers read after write, what each update leaves unchanged, what
a move of the SIE and the pause before an access can change. -/

namespace Sys2Proof.Machine

/-! ## The endpoint table -/

@[simp] theorem epAt_setEp_self (s : State) (n : Nat) (e : Endpoint) (h : n < 8) : (s.setEp n e).epAt n = e := by
  simp [State.epAt, State.setEp, h]

theorem epAt_setEp_ne (s : State) (n m : Nat) (e : Endpoint) (h : n ≠ m) : (s.setEp n e).epAt m = s.epAt m := by
  simp only [State.epAt, State.setEp]
  rw [Vector.getElem?_setIfInBounds_ne h]

theorem epAt_setEp (s : State) (n m : Nat) (e : Endpoint) (h : n < 8) :
    (s.setEp n e).epAt m = if n = m then e else s.epAt m := by
  split
  · rename_i e; subst e; exact epAt_setEp_self s n _ h
  · exact epAt_setEp_ne s n m e ‹_›

theorem epAt_congr {s t : State} (h : t.ep = s.ep) (n : Nat) : t.epAt n = s.epAt n := by simp only [State.epAt, h]

theorem epAt_of_ge (s : State) (n : Nat) (h : 8 ≤ n) : s.epAt n = Endpoint.zero := by
  have : ¬ n < 8 := by omega
  simp [State.epAt, this]

@[simp] theorem setEp_cfg (s : State) (n : Nat) (e : Endpoint) : (s.setEp n e).cfg = s.cfg := rfl
@[simp] theorem setEp_bump (s : State) (n : Nat) (e : Endpoint) : (s.setEp n e).bump = s.bump := rfl
@[simp] theorem setEp_setup (s : State) (n : Nat) (e : Endpoint) : (s.setEp n e).setup = s.setup := rfl
@[simp] theorem setEp_scratch (s : State) (n : Nat) (e : Endpoint) : (s.setEp n e).scratch = s.scratch := rfl
@[simp] theorem setEp_scratchLen (s : State) (n : Nat) (e : Endpoint) : (s.setEp n e).scratchLen = s.scratchLen := rfl
@[simp] theorem setEp_dev (s : State) (n : Nat) (e : Endpoint) : (s.setEp n e).dev = s.dev := rfl
@[simp] theorem setEp_phase (s : State) (n : Nat) (e : Endpoint) : (s.setEp n e).phase = s.phase := rfl
@[simp] theorem setEp_seq (s : State) (n : Nat) (e : Endpoint) : (s.setEp n e).seq = s.seq := rfl
@[simp] theorem setEp_irqMasked (s : State) (n : Nat) (e : Endpoint) : (s.setEp n e).irqMasked = s.irqMasked := rfl
@[simp] theorem setEp_diagLog (s : State) (n : Nat) (e : Endpoint) : (s.setEp n e).diagLog = s.diagLog := rfl
@[simp] theorem setEp_epr (s : State) (n : Nat) (e : Endpoint) : (s.setEp n e).epr = s.epr := rfl
@[simp] theorem setEp_daddr (s : State) (n : Nat) (e : Endpoint) : (s.setEp n e).daddr = s.daddr := rfl
@[simp] theorem setEp_pma (s : State) (n : Nat) (e : Endpoint) : (s.setEp n e).pma = s.pma := rfl
@[simp] theorem setEp_wireIn (s : State) (n : Nat) (e : Endpoint) : (s.setEp n e).wireIn = s.wireIn := rfl
@[simp] theorem setEp_served (s : State) (n : Nat) (e : Endpoint) : (s.setEp n e).served = s.served := rfl
@[simp] theorem setEp_race (s : State) (n : Nat) (e : Endpoint) : (s.setEp n e).race = s.race := rfl

/-! ## The endpoint registers -/

@[simp] theorem eprAt_setEpr_self (s : State) (n : Nat) (v : Half) (h : n < 8) : (s.setEpr n v).eprAt n = v := by
  simp [State.eprAt, State.setEpr, h]

theorem eprAt_setEpr_ne (s : State) (n m : Nat) (v : Half) (h : n ≠ m) : (s.setEpr n v).eprAt m = s.eprAt m := by
  simp only [State.eprAt, State.setEpr]
  rw [Vector.getElem?_setIfInBounds_ne h]

theorem eprAt_congr {s t : State} (h : t.epr = s.epr) (n : Nat) : t.eprAt n = s.eprAt n := by
  simp only [State.eprAt, h]

@[simp] theorem setEpr_cfg (s : State) (n : Nat) (v : Half) : (s.setEpr n v).cfg = s.cfg := rfl
@[simp] theorem setEpr_ep (s : State) (n : Nat) (v : Half) : (s.setEpr n v).ep = s.ep := rfl
@[simp] theorem setEpr_bump (s : State) (n : Nat) (v : Half) : (s.setEpr n v).bump = s.bump := rfl
@[simp] theorem setEpr_setup (s : State) (n : Nat) (v : Half) : (s.setEpr n v).setup = s.setup := rfl
@[simp] theorem setEpr_scratch (s : State) (n : Nat) (v : Half) : (s.setEpr n v).scratch = s.scratch := rfl
@[simp] theorem setEpr_scratchLen (s : State) (n : Nat) (v : Half) : (s.setEpr n v).scratchLen = s.scratchLen := rfl
@[simp] theorem setEpr_dev (s : State) (n : Nat) (v : Half) : (s.setEpr n v).dev = s.dev := rfl
@[simp] theorem setEpr_phase (s : State) (n : Nat) (v : Half) : (s.setEpr n v).phase = s.phase := rfl
@[simp] theorem setEpr_seq (s : State) (n : Nat) (v : Half) : (s.setEpr n v).seq = s.seq := rfl
@[simp] theorem setEpr_irqMasked (s : State) (n : Nat) (v : Half) : (s.setEpr n v).irqMasked = s.irqMasked := rfl
@[simp] theorem setEpr_diagLog (s : State) (n : Nat) (v : Half) : (s.setEpr n v).diagLog = s.diagLog := rfl
@[simp] theorem setEpr_daddr (s : State) (n : Nat) (v : Half) : (s.setEpr n v).daddr = s.daddr := rfl
@[simp] theorem setEpr_pma (s : State) (n : Nat) (v : Half) : (s.setEpr n v).pma = s.pma := rfl
@[simp] theorem setEpr_wireIn (s : State) (n : Nat) (v : Half) : (s.setEpr n v).wireIn = s.wireIn := rfl
@[simp] theorem setEpr_served (s : State) (n : Nat) (v : Half) : (s.setEpr n v).served = s.served := rfl
@[simp] theorem setEpr_race (s : State) (n : Nat) (v : Half) : (s.setEpr n v).race = s.race := rfl

/-- The engine's write lands by the write rule (R42). -/
theorem eprAt_writeEpr_self (s : State) (n : Nat) (v : Half) (h : n < 8) :
    (s.writeEpr n v).eprAt n = writeRule (s.eprAt n) v := eprAt_setEpr_self s n _ h

/-- The engine's write leaves the other registers. -/
theorem eprAt_writeEpr_ne (s : State) (n m : Nat) (v : Half) (h : n ≠ m) : (s.writeEpr n v).eprAt m = s.eprAt m :=
  eprAt_setEpr_ne s n m _ h

/-- The engine's write of an endpoint register changes the register file only. -/
theorem writeEpr_eq (s : State) (n : Nat) (v : Half) :
    s.writeEpr n v = { s with epr := s.epr.setIfInBounds n (writeRule (s.eprAt n) v) } := rfl

/-! ## Moves of the SIE -/

/-- All a move of the SIE can change: the endpoint registers, the reset bit, packet memory, the wire log, and the end of
a wait; the packet memory and the sequencer as the move says. -/
theorem sieMove_cases (s : State) (m : SieMove) :
    s.sieMove m = s ∨
    (m = .reset ∧ s.sieMove m = { s with istrReset := true, epr := Vector.replicate 8 0x0000#16 }) ∨
    (∃ w d e, m = .setup w d e ∧ s.sieEnabled m = true ∧
      s.sieMove m = { s with pma := sieReceive s.pma 0 (setupBytes w)
                             epr := s.epr.setIfInBounds 0 (sieSetupReg (s.eprAt 0) d e) }) ∨
    (∃ n data, m = .out n data ∧ s.sieEnabled m = true ∧
      s.sieMove m = { s with pma := sieReceive s.pma n.toNat data
                             epr := s.epr.setIfInBounds n.toNat (sieOutReg (s.eprAt n.toNat)) }) ∨
    (∃ n, m = .inTok n ∧ s.sieEnabled m = true ∧
      s.sieMove m = { s with wireIn := s.wireIn ++ [(n, s.pma.readBytes (s.pma.read16 (btAddrTx n.toNat)).toNat
                                (s.inLength n.toNat))]
                             epr := s.epr.setIfInBounds n.toNat (sieInReg (s.eprAt n.toNat)) }) ∨
    (m = .timeout ∧ s.seq = .wait ∧ s.istrCtr = false ∧ s.sieMove m = { s with seq := .run .timeout }) := by
  unfold State.sieMove
  split
  · rename_i h
    cases m with
    | reset => exact .inr (.inl ⟨rfl, rfl⟩)
    | setup w d e => exact .inr (.inr (.inl ⟨w, d, e, rfl, h, rfl⟩))
    | out n data => exact .inr (.inr (.inr (.inl ⟨n, data, rfl, h, rfl⟩)))
    | inTok n => exact .inr (.inr (.inr (.inr (.inl ⟨n, rfl, h, rfl⟩))))
    | timeout =>
      simp only [State.sieEnabled, Bool.and_eq_true, beq_iff_eq, Bool.not_eq_true'] at h
      exact .inr (.inr (.inr (.inr (.inr ⟨rfl, h.1, h.2, rfl⟩))))
  · exact .inl rfl

/-- The shape of the state after moves of the SIE: five fields may differ. -/
theorem sieMove_shape (s : State) (m : SieMove) :
    ∃ r p q w e, s.sieMove m = { s with istrReset := r, pma := p, seq := q, wireIn := w, epr := e } := by
  rcases sieMove_cases s m with h | ⟨-, h⟩ | ⟨_, _, _, -, -, h⟩ | ⟨_, _, -, -, h⟩ | ⟨_, -, -, h⟩ | ⟨-, -, -, h⟩ <;>
    rw [h]
  all_goals first
    | exact ⟨s.istrReset, s.pma, s.seq, s.wireIn, s.epr, rfl⟩
    | exact ⟨_, _, _, _, _, rfl⟩

theorem sieMoves_shape (ms : List SieMove) (s : State) :
    ∃ r p q w e, s.sieMoves ms = { s with istrReset := r, pma := p, seq := q, wireIn := w, epr := e } := by
  induction ms generalizing s with
  | nil => exact ⟨s.istrReset, s.pma, s.seq, s.wireIn, s.epr, rfl⟩
  | cons m ms ih =>
    obtain ⟨r, p, q, w, e, h⟩ := sieMove_shape s m
    obtain ⟨r', p', q', w', e', h'⟩ := ih (s.sieMove m)
    exact ⟨r', p', q', w', e', by rw [State.sieMoves, h', h]⟩

/-- What the pause before an access can change: the schedule of the pauses and the five fields the SIE writes. -/
theorem pause_shape (s : State) :
    ∃ r p q w e c, s.pause = { s with istrReset := r, pma := p, seq := q, wireIn := w, epr := e, race := c } := by
  unfold State.pause
  split
  · exact ⟨s.istrReset, s.pma, s.seq, s.wireIn, s.epr, s.race, rfl⟩
  · rename_i ms rest _
    obtain ⟨r, p, q, w, e, h⟩ := sieMoves_shape ms { s with race := rest }
    exact ⟨r, p, q, w, e, rest, h⟩

/-- With no SIE move scheduled the pause does nothing. -/
theorem pause_of_quiet {s : State} (h : s.race = []) : s.pause = s := by simp [State.pause, h]

@[simp] theorem pause_cfg (s : State) : s.pause.cfg = s.cfg := by obtain ⟨_, _, _, _, _, _, h⟩ := pause_shape s; rw [h]
@[simp] theorem pause_ep (s : State) : s.pause.ep = s.ep := by obtain ⟨_, _, _, _, _, _, h⟩ := pause_shape s; rw [h]
@[simp] theorem pause_bump (s : State) : s.pause.bump = s.bump := by obtain ⟨_, _, _, _, _, _, h⟩ := pause_shape s; rw [h]
@[simp] theorem pause_setup (s : State) : s.pause.setup = s.setup := by obtain ⟨_, _, _, _, _, _, h⟩ := pause_shape s; rw [h]
@[simp] theorem pause_scratch (s : State) : s.pause.scratch = s.scratch := by obtain ⟨_, _, _, _, _, _, h⟩ := pause_shape s; rw [h]
@[simp] theorem pause_scratchLen (s : State) : s.pause.scratchLen = s.scratchLen := by obtain ⟨_, _, _, _, _, _, h⟩ := pause_shape s; rw [h]
@[simp] theorem pause_dev (s : State) : s.pause.dev = s.dev := by obtain ⟨_, _, _, _, _, _, h⟩ := pause_shape s; rw [h]
@[simp] theorem pause_addrLatch (s : State) : s.pause.addrLatch = s.addrLatch := by obtain ⟨_, _, _, _, _, _, h⟩ := pause_shape s; rw [h]
@[simp] theorem pause_phase (s : State) : s.pause.phase = s.phase := by obtain ⟨_, _, _, _, _, _, h⟩ := pause_shape s; rw [h]
@[simp] theorem pause_curOff (s : State) : s.pause.curOff = s.curOff := by obtain ⟨_, _, _, _, _, _, h⟩ := pause_shape s; rw [h]
@[simp] theorem pause_curRem (s : State) : s.pause.curRem = s.curRem := by obtain ⟨_, _, _, _, _, _, h⟩ := pause_shape s; rw [h]
@[simp] theorem pause_irqMasked (s : State) : s.pause.irqMasked = s.irqMasked := by obtain ⟨_, _, _, _, _, _, h⟩ := pause_shape s; rw [h]
@[simp] theorem pause_diagLog (s : State) : s.pause.diagLog = s.diagLog := by obtain ⟨_, _, _, _, _, _, h⟩ := pause_shape s; rw [h]
@[simp] theorem pause_txErr (s : State) : s.pause.txErr = s.txErr := by obtain ⟨_, _, _, _, _, _, h⟩ := pause_shape s; rw [h]
@[simp] theorem pause_daddr (s : State) : s.pause.daddr = s.daddr := by obtain ⟨_, _, _, _, _, _, h⟩ := pause_shape s; rw [h]
@[simp] theorem pause_served (s : State) : s.pause.served = s.served := by obtain ⟨_, _, _, _, _, _, h⟩ := pause_shape s; rw [h]
@[simp] theorem pause_txSrc (s : State) : s.pause.txSrc = s.txSrc := by obtain ⟨_, _, _, _, _, _, h⟩ := pause_shape s; rw [h]
@[simp] theorem pause_hq (s : State) : s.pause.hq = s.hq := by obtain ⟨_, _, _, _, _, _, h⟩ := pause_shape s; rw [h]
@[simp] theorem pause_result (s : State) : s.pause.result = s.result := by obtain ⟨_, _, _, _, _, _, h⟩ := pause_shape s; rw [h]
@[simp] theorem pause_dst (s : State) : s.pause.dst = s.dst := by obtain ⟨_, _, _, _, _, _, h⟩ := pause_shape s; rw [h]
@[simp] theorem pause_app (s : State) : s.pause.app = s.app := by obtain ⟨_, _, _, _, _, _, h⟩ := pause_shape s; rw [h]
@[simp] theorem pause_appReg (s : State) : s.pause.appReg = s.appReg := by obtain ⟨_, _, _, _, _, _, h⟩ := pause_shape s; rw [h]
@[simp] theorem pause_appSplit (s : State) : s.pause.appSplit = s.appSplit := by obtain ⟨_, _, _, _, _, _, h⟩ := pause_shape s; rw [h]
@[simp] theorem pause_program (s : State) : s.pause.program = s.program := by obtain ⟨_, _, _, _, _, _, h⟩ := pause_shape s; rw [h]
@[simp] theorem pause_epAt (s : State) (n : Nat) : s.pause.epAt n = s.epAt n := epAt_congr (pause_ep s) n

end Sys2Proof.Machine
end

