-- ==== Sys2Proof/Laws/Mem.lean ====
section
/-! SUPPORT. Laws of packet memory: read after write, frames, the canonical form, and the bounds. -/

namespace Sys2Proof.Machine

/-! ## One byte -/

theorem read_write_self (m : Memory) (a : Nat) (b : Byte) (h : m.wf = true) : (m.write a b).read a = b := by
  suffices key : ∀ lo, Memory.wfFrom lo m = true → (m.write a b).read a = b from key 0 h
  clear h
  intro lo h
  induction m generalizing lo with
  | nil => unfold Memory.write; split <;> simp_all [Memory.read]
  | cons c t ih =>
    obtain ⟨k, d⟩ := c
    simp only [Memory.wfFrom, Bool.and_eq_true, decide_eq_true_eq] at h
    have below : ∀ (t : Memory) lo, Memory.wfFrom lo t = true → ∀ x, x < lo → Memory.read t x = Memory.unlisted x := by
      intro t
      induction t with
      | nil => intros; rfl
      | cons e t ih =>
        obtain ⟨k', d'⟩ := e
        intro lo h x hx
        simp only [Memory.wfFrom, Bool.and_eq_true, decide_eq_true_eq] at h
        have : k' ≠ x := by omega
        simp only [Memory.read, this, if_false]
        exact ih _ h.2 x (by omega)
    unfold Memory.write
    split
    · split
      · rename_i hak hb
        have : k ≠ a := by omega
        simp only [Memory.read, this, if_false]
        rw [below t _ h.2 a (by omega), hb]
      · simp [Memory.read]
    · split
      · rename_i hak hk
        subst hk
        split
        · rename_i hb
          rw [below t _ h.2 a (by omega), hb]
        · simp [Memory.read]
      · rename_i hak hk
        have : k ≠ a := fun e => hk e.symm
        simp only [Memory.read, this, if_false]
        exact ih _ h.2

theorem read_write_ne (m : Memory) (a x : Nat) (b : Byte) (h : x ≠ a) : (m.write a b).read x = m.read x := by
  induction m with
  | nil =>
    unfold Memory.write
    split
    · rfl
    · have : a ≠ x := fun e => h e.symm
      simp [Memory.read, this]
  | cons c t ih =>
    obtain ⟨k, d⟩ := c
    have hax : a ≠ x := fun e => h e.symm
    unfold Memory.write
    split
    · split
      · rfl
      · simp [Memory.read, hax]
    · split
      · rename_i hk
        subst hk
        split <;> simp [Memory.read, hax]
      · by_cases hkx : k = x
        · simp [Memory.read, hkx]
        · simp only [Memory.read, hkx, if_false]
          exact ih

theorem wfFrom_mono (m : Memory) {lo lo' : Nat} (hl : lo' ≤ lo) (h : Memory.wfFrom lo m = true) :
    Memory.wfFrom lo' m = true := by
  cases m with
  | nil => rfl
  | cons c t =>
    obtain ⟨k, d⟩ := c
    simp only [Memory.wfFrom, Bool.and_eq_true, decide_eq_true_eq] at h ⊢
    exact ⟨⟨by omega, h.1.2⟩, h.2⟩

theorem wfFrom_write (m : Memory) (a lo : Nat) (b : Byte) (hlo : lo ≤ a) (h : Memory.wfFrom lo m = true) :
    Memory.wfFrom lo (m.write a b) = true := by
  induction m generalizing lo with
  | nil => unfold Memory.write; split <;> simp_all [Memory.wfFrom]
  | cons c t ih =>
    obtain ⟨k, d⟩ := c
    have h' := h
    simp only [Memory.wfFrom, Bool.and_eq_true, decide_eq_true_eq] at h'
    unfold Memory.write
    split
    · split
      · exact h
      · rename_i hak hb
        simp only [Memory.wfFrom, Bool.and_eq_true, decide_eq_true_eq]
        exact ⟨⟨hlo, by simpa using hb⟩, ⟨by omega, h'.1.2⟩, h'.2⟩
    · split
      · rename_i hak hk
        subst hk
        split
        · exact wfFrom_mono t (by omega) h'.2
        · rename_i hb
          simp only [Memory.wfFrom, Bool.and_eq_true, decide_eq_true_eq]
          exact ⟨⟨hlo, by simpa using hb⟩, h'.2⟩
      · simp only [Memory.wfFrom, Bool.and_eq_true, decide_eq_true_eq]
        exact ⟨h'.1, ih (k + 1) (by omega) h'.2⟩

/-- A write keeps the canonical form. -/
theorem wf_write (m : Memory) (a : Nat) (b : Byte) (h : m.wf = true) : (m.write a b).wf = true :=
  wfFrom_write m a 0 b (Nat.zero_le a) h

theorem mem_write {m : Memory} {a : Nat} {b : Byte} {c : Host.Cell} (h : c ∈ m.write a b) : c = (a, b) ∨ c ∈ m := by
  induction m with
  | nil => unfold Memory.write at h; split at h <;> simp_all
  | cons d t ih =>
    obtain ⟨k, e⟩ := d
    unfold Memory.write at h
    split at h
    · split at h <;> simp_all
    · split at h
      · split at h
        · exact .inr (List.mem_cons_of_mem _ h)
        · rcases List.mem_cons.mp h with h | h
          · exact .inl h
          · exact .inr (List.mem_cons_of_mem _ h)
      · rcases List.mem_cons.mp h with h | h
        · exact .inr (h ▸ List.mem_cons_self)
        · rcases ih h with h | h
          · exact .inl h
          · exact .inr (List.mem_cons_of_mem _ h)

/-- A write inside the bounds keeps every listed offset inside them. -/
theorem within_write (m : Memory) (a : Nat) (b : Byte) (size : Nat) (ha : a < size) (h : m.within size = true) :
    (m.write a b).within size = true := by
  simp only [Memory.within, List.all_eq_true, decide_eq_true_eq] at h ⊢
  intro c hc
  rcases mem_write hc with rfl | hc
  · exact ha
  · exact h c hc

/-! ## Units -/

theorem loByte_mkUnit (lo hi : Byte) : loByte (mkUnit lo hi) = lo := by
  apply BitVec.eq_of_toNat_eq
  simp only [loByte, mkUnit, BitVec.extractLsb'_toNat, BitVec.toNat_append, Nat.shiftLeft_eq, Nat.shiftRight_eq_div_pow]
  rw [← Nat.shiftLeft_eq, ← Nat.shiftLeft_add_eq_or_of_lt lo.isLt, Nat.shiftLeft_eq]
  have := lo.isLt
  omega

theorem hiByte_mkUnit (lo hi : Byte) : hiByte (mkUnit lo hi) = hi := by
  apply BitVec.eq_of_toNat_eq
  simp only [hiByte, mkUnit, BitVec.extractLsb'_toNat, BitVec.toNat_append, Nat.shiftLeft_eq, Nat.shiftRight_eq_div_pow]
  rw [← Nat.shiftLeft_eq, ← Nat.shiftLeft_add_eq_or_of_lt lo.isLt, Nat.shiftLeft_eq]
  have := lo.isLt
  have := hi.isLt
  omega

theorem mkUnit_loByte_hiByte (w : Half) : mkUnit (loByte w) (hiByte w) = w := by
  apply BitVec.eq_of_toNat_eq
  simp only [loByte, hiByte, mkUnit, BitVec.extractLsb'_toNat, BitVec.toNat_append, Nat.shiftRight_eq_div_pow]
  rw [← Nat.shiftLeft_add_eq_or_of_lt (Nat.mod_lt _ (by decide)), Nat.shiftLeft_eq]
  have := w.isLt
  omega

theorem wf_write16 (m : Memory) (a : Nat) (w : Half) (h : m.wf = true) : (m.write16 a w).wf = true :=
  wf_write _ _ _ (wf_write _ _ _ h)

theorem within_write16 (m : Memory) (a : Nat) (w : Half) (size : Nat) (ha : a + 2 ≤ size) (h : m.within size = true) :
    (m.write16 a w).within size = true :=
  within_write _ _ _ _ (by omega) (within_write _ _ _ _ (by omega) h)

theorem read_write16_lo (m : Memory) (a : Nat) (w : Half) (h : m.wf = true) : (m.write16 a w).read a = loByte w := by
  rw [Memory.write16, read_write_ne _ _ _ _ (by omega), read_write_self _ _ _ h]

theorem read_write16_hi (m : Memory) (a : Nat) (w : Half) (h : m.wf = true) :
    (m.write16 a w).read (a + 1) = hiByte w := read_write_self _ _ _ (wf_write _ _ _ h)

theorem read_write16_ne (m : Memory) (a x : Nat) (w : Half) (h : x < a ∨ a + 2 ≤ x) :
    (m.write16 a w).read x = m.read x := by
  rw [Memory.write16, read_write_ne _ _ _ _ (by omega), read_write_ne _ _ _ _ (by omega)]

/-- A unit reads back as it was stored. -/
theorem read16_write16_self (m : Memory) (a : Nat) (w : Half) (h : m.wf = true) : (m.write16 a w).read16 a = w := by
  rw [Memory.read16, read_write16_lo m a w h, read_write16_hi m a w h, mkUnit_loByte_hiByte]

/-- A store of another unit leaves a unit as it was. -/
theorem read16_write16_ne (m : Memory) (a x : Nat) (w : Half) (h : x + 2 ≤ a ∨ a + 2 ≤ x) :
    (m.write16 a w).read16 x = m.read16 x := by
  rw [Memory.read16, read_write16_ne m a x w (by omega), read_write16_ne m a (x + 1) w (by omega)]
  rfl

/-! ## Byte and unit sequences -/

theorem wf_writeBytes (bs : List Byte) (m : Memory) (a : Nat) (h : m.wf = true) : (m.writeBytes a bs).wf = true := by
  induction bs generalizing m a with
  | nil => exact h
  | cons b bs ih => exact ih _ _ (wf_write _ _ _ h)

theorem within_writeBytes (bs : List Byte) (m : Memory) (a size : Nat) (ha : a + bs.length ≤ size)
    (h : m.within size = true) : (m.writeBytes a bs).within size = true := by
  induction bs generalizing m a with
  | nil => exact h
  | cons b bs ih =>
    simp only [List.length_cons] at ha
    exact ih _ _ (by omega) (within_write _ _ _ _ (by omega) h)

theorem read_writeBytes_ne (bs : List Byte) (m : Memory) (a x : Nat) (h : x < a ∨ a + bs.length ≤ x) :
    (m.writeBytes a bs).read x = m.read x := by
  induction bs generalizing m a with
  | nil => rfl
  | cons b bs ih =>
    simp only [List.length_cons] at h
    rw [Memory.writeBytes, ih _ _ (by omega), read_write_ne _ _ _ _ (by omega)]

theorem readBytes_writeBytes_self (bs : List Byte) (m : Memory) (a : Nat) (h : m.wf = true) :
    (m.writeBytes a bs).readBytes a bs.length = bs := by
  induction bs generalizing m a with
  | nil => rfl
  | cons b bs ih =>
    rw [List.length_cons, Memory.readBytes, Memory.writeBytes, ih _ _ (wf_write _ _ _ h),
      read_writeBytes_ne _ _ _ _ (by omega), read_write_self _ _ _ h]

theorem wf_writeUnits (ws : List Half) (m : Memory) (a : Nat) (h : m.wf = true) : (m.writeUnits a ws).wf = true := by
  induction ws generalizing m a with
  | nil => exact h
  | cons w ws ih => exact ih _ _ (wf_write16 _ _ _ h)

theorem read_writeUnits_ne (ws : List Half) (m : Memory) (a x : Nat) (h : x < a ∨ a + 2 * ws.length ≤ x) :
    (m.writeUnits a ws).read x = m.read x := by
  induction ws generalizing m a with
  | nil => rfl
  | cons w ws ih =>
    simp only [List.length_cons] at h
    rw [Memory.writeUnits, ih _ _ (by omega), read_write16_ne _ _ _ _ (by omega)]

theorem length_readBytes (m : Memory) (n a : Nat) : (m.readBytes a n).length = n := by
  induction n generalizing a with
  | zero => rfl
  | succ n ih => simp [Memory.readBytes, ih]

theorem readBytes_congr {m m' : Memory} (n a : Nat) (h : ∀ x, a ≤ x → x < a + n → m'.read x = m.read x) :
    m'.readBytes a n = m.readBytes a n := by
  induction n generalizing a with
  | zero => rfl
  | succ n ih =>
    rw [Memory.readBytes, Memory.readBytes, h a (by omega) (by omega), ih]
    intro x h1 h2
    exact h x (by omega) (by omega)

end Sys2Proof.Machine
end

