-- ==== Sys2Proof/Laws/Units.lean ====
section
/-! SUPPORT. Laws of the copies: what COPY_IN stages reads back as the copied bytes, what the unit reads return. -/

namespace Sys2Proof.Machine

theorem length_copyUnits (bs : List Byte) : (copyUnits bs).length = unitCount bs.length := by
  induction bs using copyUnits.induct with
  | case1 => rfl
  | case2 lo => simp [copyUnits, unitCount]
  | case3 lo hi t ih => simp only [copyUnits, List.length_cons, ih, unitCount]; omega

/-- The bytes COPY_IN stages are the bytes of the linear buffer (R281). -/
theorem readBytes_writeUnits_copyUnits (bs : List Byte) (m : Memory) (a : Nat) (h : m.wf = true) :
    (m.writeUnits a (copyUnits bs)).readBytes a bs.length = bs := by
  induction bs using copyUnits.induct generalizing m a with
  | case1 => rfl
  | case2 lo =>
    simp only [copyUnits, Memory.writeUnits, List.length_cons, List.length_nil, Memory.readBytes]
    rw [read_write16_lo _ _ _ h, loByte_mkUnit]
  | case3 lo hi t ih =>
    simp only [copyUnits, Memory.writeUnits, List.length_cons, Memory.readBytes]
    rw [ih _ _ (wf_write16 _ _ _ h), read_writeUnits_ne _ _ _ _ (by omega), read_writeUnits_ne _ _ _ _ (by omega),
      read_write16_lo _ _ _ h, read_write16_hi _ _ _ h, loByte_mkUnit, hiByte_mkUnit]

/-- Bytes outside the units COPY_IN stages are unchanged. -/
theorem read_writeUnits_copyUnits_ne (bs : List Byte) (m : Memory) (a x : Nat)
    (h : x < a ∨ a + 2 * unitCount bs.length ≤ x) : (m.writeUnits a (copyUnits bs)).read x = m.read x :=
  read_writeUnits_ne _ _ _ _ (by rw [length_copyUnits]; exact h)

/-- A Setup Packet latched from eight bytes in wire order is those eight bytes (R101). -/
theorem setupBytes_setupWord (bs : List Byte) (h : bs.length = 8) : setupBytes (setupWord bs) = bs := by
  match bs, h with
  | [a, b, c, d, e, f, g, i], _ =>
    simp only [setupBytes, List.range, List.range.loop, List.map, setupByte, setupWord]
    simp only [List.cons.injEq, and_true]
    refine ⟨?_, ?_, ?_, ?_, ?_, ?_, ?_, ?_⟩ <;>
    · apply BitVec.eq_of_getLsbD_eq
      intro j hj
      interval_cases j <;> simp

theorem read_writeUnits_two (m : Memory) (a : Nat) (lo hi : Byte) (ws : List Half) (h : m.wf = true) :
    (m.writeUnits a (mkUnit lo hi :: ws)).read a = lo ∧ (m.writeUnits a (mkUnit lo hi :: ws)).read (a + 1) = hi := by
  rw [Memory.writeUnits, read_writeUnits_ne _ _ _ _ (by omega), read_writeUnits_ne _ _ _ _ (by omega),
    read_write16_lo _ _ _ h, read_write16_hi _ _ _ h, loByte_mkUnit, hiByte_mkUnit]
  exact ⟨rfl, rfl⟩

end Sys2Proof.Machine
end

