-- ==== Sys2Proof/Laws/Ops.lean ====
section
/-! SUPPORT. What the shared operations answer when no move of the SIE is scheduled between their accesses: the pure
effect of each, which the laws of the operations cite. -/

namespace Sys2Proof.Machine

/-! ## Sequencing -/

@[simp] theorem andThen_next (s : State) (k : State → Out) : andThen (.next s) k = k s := rfl
@[simp] theorem andThen_fault (r : Fault) (k : State → Out) : andThen (.fault r) k = .fault r := rfl
@[simp] theorem andThen_refused (r : Refusal) (k : State → Out) : andThen (.refused r) k = .refused r := rfl

theorem andThen_assoc (o : Out) (j k : State → Out) :
    andThen (andThen o j) k = andThen o fun s => andThen (j s) k := by cases o <;> rfl

/-- A sequence answers a next state exactly through an intermediate one. -/
theorem andThen_eq_next {o : Out} {k : State → Out} {t : State} :
    andThen o k = .next t ↔ ∃ s, o = .next s ∧ k s = .next t := by
  cases o <;> simp

@[simp] theorem finish_next (s : State) : finish (.next s) = .next (left s) := by
  simp only [finish, left]; rfl

theorem finish_eq_leaving (o : Out) : finish o = leaving o := by cases o <;> rfl

/-- A finished outcome is a next state exactly when the outcome is. -/
theorem finish_eq_next {o : Out} {t : State} : finish o = .next t ↔ ∃ s, o = .next s ∧ t = left s := by
  cases o with
  | next s => simp [eq_comm]
  | fault r => simp [finish]
  | refused r => simp [finish]

theorem finish_eq_fault {o : Out} {f : Fault} : finish o = .fault f ↔ o = .fault f := by
  cases o <;> simp [finish]

theorem left_of_ne {s : State} (h : s.seq ≠ .run .leave) : left s = s := by simp [left, h]

theorem left_of_leave {s : State} (h : s.seq = .run .leave) : left s = { s with irqMasked := false, seq := .idle } := by
  simp [left, h]

/-! ## Single accesses -/

theorem store16_of_quiet {s : State} (h : s.Quiet) {a : Nat} (w : Half) (ha : s.unitOk a = true) :
    store16 a w s = .next { s with pma := s.pma.write16 a w } := by
  simp [store16, ha, pause_of_quiet h]

theorem load16_of_quiet {s : State} (h : s.Quiet) {a : Nat} (ha : s.unitOk a = true) (k : Half → State → Out) :
    load16 a s k = k (s.pma.read16 a) s := by
  simp [load16, ha, pause_of_quiet h]

theorem readReg_of_quiet {s : State} (h : s.Quiet) (n : Nat) (k : Half → State → Out) :
    readReg n s k = k (s.eprAt n) s := by
  simp [readReg, pause_of_quiet h]

theorem writeReg_of_quiet {s : State} (h : s.Quiet) (n : Nat) (v : Half) :
    writeReg n v s = { s with epr := eprAfter s n v } := by
  simp [writeReg, pause_of_quiet h, State.writeEpr, State.setEpr, eprAfter]

theorem handlerReturn_of_quiet {s : State} (h : s.Quiet) (w : Half) :
    handlerReturn w s = .next { s with epr := eprAfter s s.served.toNat (normalize w), seq := .run .leave } := by
  simp [handlerReturn, writeReg_of_quiet h]

/-- The final write, in the words of the statements (R257). -/
theorem handlerReturn_eq_afterFinal {s : State} (h : s.Quiet) {n : BitVec 4} (hn : s.served = n) (w : Half) :
    handlerReturn w s = .next (afterFinal s n.toNat w) := by
  subst hn
  exact handlerReturn_of_quiet h w

theorem returnTx_of_quiet {s : State} (h : s.Quiet) :
    returnTx s = .next { s with epr := eprAfter s s.served.toNat (normalize (retTx s.snapshotWord)), seq := .run .leave } :=
  handlerReturn_of_quiet h _

theorem unitOk_iff (s : State) (a : Nat) : s.unitOk a = true ↔ a % 2 = 0 ∧ a + 2 ≤ s.cfg.pmaSize := by
  simp [State.unitOk]

/-- A buffer-table word is a unit inside packet memory. -/
theorem unitOk_buffer_table {s : State} (h : s.cfg.wf) {n k : Nat} (hn : n < 8) (hk : k % 2 = 0) (hk' : k ≤ 6) :
    s.unitOk (8 * n + k) = true := by
  rw [unitOk_iff]
  have := h.pmaLower
  simp only [bumpInit] at this
  omega

/-! ## Copies -/

theorem runAccesses_append (as bs : List Access) (s : State) :
    runAccesses (as ++ bs) s = andThen (runAccesses as s) (runAccesses bs) := by
  induction as generalizing s with
  | nil => rfl
  | cons a as ih =>
    simp only [List.cons_append, runAccesses]
    rw [andThen_assoc]
    congr 1
    funext t
    exact ih t

/-- A command that is not preempted makes all of its accesses. -/
theorem runApp_of_whole {s : State} (h : s.appSplit = none) (as : List Access) : runApp as s = runAccesses as s := by
  unfold runApp; rw [h]

/-- The stores of COPY_IN, unit after unit. -/
theorem runAccesses_storeAccesses_of_quiet (n : BitVec 4) (ws : List Half) (k : Nat) (s : State) (h : s.Quiet)
    (he : (s.epAt n.toNat).txBase.toNat % 2 = 0)
    (hr : (s.epAt n.toNat).txBase.toNat + 2 * (k + ws.length) ≤ s.cfg.pmaSize) :
    runAccesses (storeAccesses n k ws) s =
      .next { s with pma := s.pma.writeUnits ((s.epAt n.toNat).txBase.toNat + 2 * k) ws } := by
  induction ws generalizing k s with
  | nil => simp [storeAccesses, runAccesses, Memory.writeUnits]
  | cons w ws ih =>
    simp only [List.length_cons] at hr
    simp only [storeAccesses, runAccesses, doAccess]
    rw [store16_of_quiet h w (by rw [unitOk_iff]; omega)]
    simp only [andThen_next]
    rw [ih]
    · simp only [Memory.writeUnits, State.epAt]
      rw [show ∀ x, x + 2 * (k + 1) = x + 2 * k + 2 by intro; omega]
    · exact h
    · exact he
    · simp only [State.epAt] at hr ⊢
      omega

theorem unitCount_le {c m : Nat} (h : c ≤ m) (hm : m % 2 = 0) : 2 * unitCount c ≤ m := by
  unfold unitCount; omega

/-- COPY_IN stages the bytes, cut to the transmit size (R281). -/
theorem copyIn_of_ready {s : State} {n : BitVec 4} (h : s.Quiet) (hr : TxReady s n.toNat) (data : List Byte) :
    runAccesses (copyInAccesses s n data) s =
      .next { s with pma := stagedPma s n.toNat (data.take (s.epAt n.toNat).txSize.toNat) } := by
  have hlen : (data.take (copyLength data.length (s.epAt n.toNat))) = data.take (s.epAt n.toNat).txSize.toNat := by
    unfold copyLength
    rcases Nat.le_total data.length (s.epAt n.toNat).txSize.toNat with h1 | h1
    · rw [Nat.min_eq_left h1, List.take_of_length_le (Nat.le_refl _), List.take_of_length_le h1]
    · rw [Nat.min_eq_right h1]
  have hcount : (data.take (s.epAt n.toNat).txSize.toNat).length = copyLength data.length (s.epAt n.toNat) := by
    simp [copyLength, Nat.min_comm]
  have hu : 2 * unitCount (copyLength data.length (s.epAt n.toNat)) ≤ (s.epAt n.toNat).txSize.toNat :=
    unitCount_le (Nat.min_le_right _ _) hr.evenSize
  have := hr.room
  unfold copyInAccesses
  rw [runAccesses_append, runAccesses_storeAccesses_of_quiet n _ 0 s h hr.evenBase
    (by rw [length_copyUnits, hlen, hcount]; omega)]
  simp only [andThen_next, runAccesses, doAccess]
  rw [btCountTx, store16_of_quiet (by exact h) _ (by exact unitOk_buffer_table hr.cfgOk hr.inTable (by decide) (by decide))]
  simp only [andThen_next, stagedPma, hlen, hcount, Nat.mul_zero, Nat.add_zero]

/-- WRITE_IRQ stages and touches nothing else (R280, R281). -/
theorem writeIrqOp_of_ready {s : State} {n : BitVec 4} (h : s.Quiet) (hr : TxReady s n.toNat) (data : List Byte) :
    writeIrqOp n data s = .next { s with pma := stagedPma s n.toNat (data.take (s.epAt n.toNat).txSize.toNat) } := by
  rw [writeIrqOp, onEndpoint, if_pos hr.inTable, if_pos hr.allocated, copyIn_of_ready h hr]

theorem writeIrqOp_ep0 {s : State} (h : s.Quiet) (hr : TxReady s 0) (data : List Byte) :
    writeIrqOp 0 data s = .next { s with pma := stagedPma s 0 (data.take (s.epAt 0).txSize.toNat) } :=
  writeIrqOp_of_ready (n := 0) h hr data

/-! ## Unit reads -/

theorem readUnits_of_quiet (count a : Nat) (s : State) (h : s.Quiet) :
    readUnits a count s = (s.pma.readBytes a (2 * count), s) := by
  induction count generalizing a with
  | zero => rfl
  | succ count ih =>
    simp only [readUnits, pause_of_quiet h, ih]
    rw [show 2 * (count + 1) = 2 * count + 1 + 1 by omega]
    simp only [Memory.readBytes, Memory.read16, loByte_mkUnit, hiByte_mkUnit]

theorem take_readBytes (m : Memory) (n a c : Nat) (h : c ≤ n) : (m.readBytes a n).take c = m.readBytes a c := by
  induction n generalizing a c with
  | zero => obtain rfl : c = 0 := by omega
            rfl
  | succ n ih =>
    cases c with
    | zero => rfl
    | succ c => simp only [Memory.readBytes, List.take_succ_cons]; rw [ih _ _ (by omega)]

/-- The engine's byte reads by units return the bytes (R72, R255). -/
theorem loadBytes_of_quiet {s : State} (h : s.Quiet) {a c : Nat} (he : a % 2 = 0)
    (hr : a + 2 * unitCount c ≤ s.cfg.pmaSize) (k : List Byte → State → Out) :
    loadBytes a c s k = k (s.pma.readBytes a c) s := by
  unfold loadBytes
  split
  · rename_i h0
    subst h0
    rfl
  · rw [if_pos ⟨he, hr⟩]
    simp only [readUnits_of_quiet _ _ _ h]
    rw [take_readBytes _ _ _ _ (by unfold unitCount; omega)]

theorem readBytes_append (m : Memory) (a : Nat) (i j : Nat) :
    m.readBytes a (i + j) = m.readBytes a i ++ m.readBytes (a + i) j := by
  induction i generalizing a with
  | zero => simp [Memory.readBytes]
  | succ i ih =>
    rw [show i + 1 + j = (i + j) + 1 by omega]
    simp only [Memory.readBytes, ih, List.cons_append]
    rw [show a + 1 + i = a + (i + 1) by omega]

/-- The unit reads of READ append the bytes of the buffer (R288). -/
theorem runAccesses_loadAccesses_of_quiet (n : BitVec 4) (k remaining : Nat) (s : State) (h : s.Quiet)
    (he : (s.epAt n.toNat).rxBase.toNat % 2 = 0)
    (hr : (s.epAt n.toNat).rxBase.toNat + 2 * (k + unitCount remaining) ≤ s.cfg.pmaSize) :
    runAccesses (loadAccesses n k remaining) s =
      .next { s with dst := s.dst ++ s.pma.readBytes ((s.epAt n.toNat).rxBase.toNat + 2 * k) remaining } := by
  induction remaining using Nat.strongRecOn generalizing k s with
  | _ remaining ih =>
    match remaining, ih, hr with
    | 0, _, _ => simp [loadAccesses, runAccesses, Memory.readBytes]
    | 1, _, hr =>
      simp only [unitCount] at hr
      simp only [loadAccesses, runAccesses, doAccess]
      rw [load16_of_quiet h (by rw [unitOk_iff]; omega)]
      simp [Memory.readBytes, Memory.read16, loByte_mkUnit]
    | r + 2, ih, hr =>
      simp only [loadAccesses, runAccesses, doAccess]
      rw [load16_of_quiet h (by rw [unitOk_iff]; simp only [unitCount] at hr; omega)]
      simp only [andThen_next, if_true]
      rw [ih r (by omega) (k + 1) _ (by exact h) (by exact he) (by simp only [State.epAt, unitCount] at hr ⊢; omega)]
      simp only [State.epAt, Memory.readBytes, Memory.read16, loByte_mkUnit, hiByte_mkUnit, List.append_assoc,
        List.cons_append, List.nil_append]
      rw [show ∀ x, x + 2 * (k + 1) = x + 2 * k + 1 + 1 by intro; omega]

end Sys2Proof.Machine
end

