-- ==== Sys2Proof/Laws/Effects.lean ====
section
/-! SUPPORT. Everything the shared operations can do, whatever moves of the SIE fall between their accesses: one relation
for the accesses, and one law per operation that says which state it answers. -/

namespace Sys2Proof.Machine

/-! ## The relation -/

/-- What a sequence of shared accesses can change: the registers the SIE and the engine share, packet memory, the
schedule of the SIE's moves, and the application side of the command port. A wait can only be ended, the wire log only
grows, and the memory invariant is kept. -/
structure Accessed (s t : State) : Prop where
  shape : ∃ r p q w e c d g z, t =
    { s with istrReset := r, pma := p, seq := q, wireIn := w, epr := e, race := c, dst := d, appReg := g, result := z }
  seq   : t.seq = s.seq ∨ s.seq = .wait ∧ t.seq = .run .timeout
  wire  : s.wireIn <+: t.wireIn
  mem   : s.cfg.wf → MemInv s → MemInv t

theorem Accessed.refl (s : State) : Accessed s s :=
  ⟨⟨_, _, _, _, _, _, _, _, _, rfl⟩, .inl rfl, List.prefix_refl _, fun _ h => h⟩

theorem Accessed.cfg {s t : State} (h : Accessed s t) : t.cfg = s.cfg := by
  obtain ⟨_, _, _, _, _, _, _, _, _, rfl⟩ := h.shape; rfl

theorem Accessed.ep {s t : State} (h : Accessed s t) : t.ep = s.ep := by
  obtain ⟨_, _, _, _, _, _, _, _, _, rfl⟩ := h.shape; rfl

theorem Accessed.epAt {s t : State} (h : Accessed s t) (n : Nat) : t.epAt n = s.epAt n := epAt_congr h.ep n

theorem Accessed.trans {s t u : State} (h : Accessed s t) (h' : Accessed t u) : Accessed s u where
  shape := by
    obtain ⟨_, _, _, _, _, _, _, _, _, rfl⟩ := h.shape
    obtain ⟨r, p, q, w, e, c, d, g, z, rfl⟩ := h'.shape
    exact ⟨r, p, q, w, e, c, d, g, z, rfl⟩
  seq := by
    rcases h.seq with h1 | ⟨h1, h1'⟩
    · rcases h'.seq with h2 | ⟨h2, h2'⟩
      · exact .inl (h2.trans h1)
      · exact .inr ⟨h1 ▸ h2, h2'⟩
    · rcases h'.seq with h2 | ⟨h2, -⟩
      · exact .inr ⟨h1, h2.trans h1'⟩
      · exact absurd (h1' ▸ h2) (by simp)
  wire := h.wire.trans h'.wire
  mem hc hm := h'.mem (h.cfg ▸ hc) (h.mem hc hm)

/-! ## Moves of the SIE -/

theorem memInv_sieReceive {s : State} (hc : s.cfg.wf) (h : MemInv s) {n : Nat} (hn : n < 8) (data : List Byte)
    (hd : (s.pma.read16 (btAddrRx n)).toNat + data.length ≤ s.cfg.pmaSize) :
    (sieReceive s.pma n data).wf = true ∧ (sieReceive s.pma n data).within s.cfg.pmaSize = true := by
  have := hc.pmaLower
  simp only [bumpInit] at this
  exact ⟨wf_write16 _ _ _ (wf_writeBytes _ _ _ h.canonical),
    within_write16 _ _ _ _ (by unfold btCountRx; omega) (within_writeBytes _ _ _ _ hd h.bounded)⟩

theorem accessed_sieMove (s : State) (m : SieMove) : Accessed s (s.sieMove m) := by
  rcases sieMove_cases s m with h | ⟨-, h⟩ | ⟨w, d, e, rfl, he, h⟩ | ⟨n, data, rfl, he, h⟩ |
      ⟨n, -, he, h⟩ | ⟨-, hw, -, h⟩ <;>
    rw [h]
  · exact .refl s
  · exact ⟨⟨_, _, _, _, _, _, _, _, _, rfl⟩, .inl rfl, List.prefix_refl _, fun _ hm => ⟨hm.canonical, hm.bounded⟩⟩
  · refine ⟨⟨_, _, _, _, _, _, _, _, _, rfl⟩, .inl rfl, List.prefix_refl _, fun hc hm => ?_⟩
    simp only [State.sieEnabled, Bool.and_eq_true, decide_eq_true_eq] at he
    have := memInv_sieReceive hc hm (n := 0) (by decide) (setupBytes w) (by simpa [setupBytes] using he.2)
    exact ⟨this.1, this.2⟩
  · refine ⟨⟨_, _, _, _, _, _, _, _, _, rfl⟩, .inl rfl, List.prefix_refl _, fun hc hm => ?_⟩
    simp only [State.sieEnabled, Bool.and_eq_true, decide_eq_true_eq] at he
    have := memInv_sieReceive hc hm (n := n.toNat) he.1.1.1.1.1.2 data (by omega)
    exact ⟨this.1, this.2⟩
  · exact ⟨⟨_, _, _, _, _, _, _, _, _, rfl⟩, .inl rfl, List.prefix_append _ _, fun _ hm => ⟨hm.canonical, hm.bounded⟩⟩
  · exact ⟨⟨_, _, _, _, _, _, _, _, _, rfl⟩, .inr ⟨hw, rfl⟩, List.prefix_refl _, fun _ hm => ⟨hm.canonical, hm.bounded⟩⟩

theorem accessed_sieMoves (ms : List SieMove) (s : State) : Accessed s (s.sieMoves ms) := by
  induction ms generalizing s with
  | nil => exact .refl s
  | cons m ms ih => exact (accessed_sieMove s m).trans (ih _)

theorem accessed_pause (s : State) : Accessed s s.pause := by
  unfold State.pause
  split
  · exact .refl s
  · rename_i ms rest _
    refine Accessed.trans (t := { s with race := rest }) ?_ (accessed_sieMoves ms _)
    exact ⟨⟨_, _, _, _, _, _, _, _, _, rfl⟩, .inl rfl, List.prefix_refl _, fun _ h => ⟨h.canonical, h.bounded⟩⟩

/-! ## Single accesses -/

theorem accessed_store16 {a : Nat} {w : Half} {s t : State} (h : store16 a w s = .next t) : Accessed s t := by
  unfold store16 at h
  split at h
  · rename_i ha
    cases h
    refine (accessed_pause s).trans ⟨⟨_, _, _, _, _, _, _, _, _, rfl⟩, .inl rfl, List.prefix_refl _, fun _ hm => ?_⟩
    rw [unitOk_iff] at ha
    exact ⟨wf_write16 _ _ _ hm.canonical, within_write16 _ _ _ _ (by simpa using ha.2) hm.bounded⟩
  · cases h

theorem store16_ne_refused (a : Nat) (w : Half) (s : State) (r : Refusal) : store16 a w s ≠ .refused r := by
  unfold store16; split <;> simp

/-- A store faults exactly when the unit is not one of packet memory. -/
theorem store16_fault {a : Nat} {w : Half} {s : State} {f : Fault} (h : store16 a w s = .fault f) :
    s.unitOk a = false := by
  unfold store16 at h; split at h <;> simp_all

theorem accessed_writeReg (n : Nat) (v : Half) (s : State) : Accessed s (writeReg n v s) :=
  (accessed_pause s).trans
    ⟨⟨_, _, _, _, _, _, _, _, _, rfl⟩, .inl rfl, List.prefix_refl _, fun _ h => ⟨h.canonical, h.bounded⟩⟩

theorem load16_next {a : Nat} {s t : State} {k : Half → State → Out} (h : load16 a s k = .next t) :
    ∃ w, k w s.pause = .next t := by
  unfold load16 at h; split at h
  · exact ⟨_, h⟩
  · cases h

theorem readUnits_accessed (count a : Nat) (s : State) : Accessed s (readUnits a count s).2 := by
  induction count generalizing a s with
  | zero => exact .refl s
  | succ count ih => exact (accessed_pause s).trans (ih (a + 2) s.pause)

theorem loadBytes_next {a c : Nat} {s t : State} {k : List Byte → State → Out} (h : loadBytes a c s k = .next t) :
    ∃ bs u, Accessed s u ∧ k bs u = .next t := by
  unfold loadBytes at h
  split at h
  · exact ⟨[], s, .refl s, h⟩
  · split at h
    · exact ⟨_, _, readUnits_accessed _ _ _, h⟩
    · cases h

/-! ## Accesses in sequence -/

theorem accessed_doAccess {a : Access} {s t : State} (h : doAccess a s = .next t) : Accessed s t := by
  cases a with
  | storeUnit n k w => exact accessed_store16 h
  | setCount n c => exact accessed_store16 h
  | readReg n =>
    simp only [doAccess, readReg, Host.Outcome.next.injEq] at h
    subst h
    exact (accessed_pause s).trans
      ⟨⟨_, _, _, _, _, _, _, _, _, rfl⟩, .inl rfl, List.prefix_refl _, fun _ h => ⟨h.canonical, h.bounded⟩⟩
  | armReg n =>
    simp only [doAccess, Host.Outcome.next.injEq] at h
    subst h
    exact accessed_writeReg _ _ _
  | loadUnit n k b =>
    simp only [doAccess] at h
    obtain ⟨w, h⟩ := load16_next h
    cases h
    exact (accessed_pause s).trans
      ⟨⟨_, _, _, _, _, _, _, _, _, rfl⟩, .inl rfl, List.prefix_refl _, fun _ h => ⟨h.canonical, h.bounded⟩⟩
  | finishRead c =>
    simp only [doAccess, Host.Outcome.next.injEq] at h
    subst h
    exact ⟨⟨_, _, _, _, _, _, _, _, _, rfl⟩, .inl rfl, List.prefix_refl _, fun _ h => ⟨h.canonical, h.bounded⟩⟩

theorem accessed_runAccesses {as : List Access} {s t : State} (h : runAccesses as s = .next t) : Accessed s t := by
  induction as generalizing s with
  | nil => cases h; exact .refl _
  | cons a as ih =>
    obtain ⟨u, h1, h2⟩ := andThen_eq_next.mp h
    exact (accessed_doAccess h1).trans (ih h2)

theorem onEndpoint_eq_next {n : BitVec 4} {s t : State} {k : Out} (h : onEndpoint n s k = .next t) :
    n.toNat < 8 ∧ (s.epAt n.toNat).allocated = true ∧ k = .next t := by
  unfold onEndpoint at h
  split at h
  · split at h
    · exact ⟨‹_›, ‹_›, h⟩
    · cases h
  · cases h

theorem accessed_writeIrqOp {n : BitVec 4} {data : List Byte} {s t : State} (h : writeIrqOp n data s = .next t) :
    Accessed s t := accessed_runAccesses (onEndpoint_eq_next h).2.2

/-- An application operation makes its accesses; what is left of it, if anything, waits in `app`. -/
theorem runApp_eq_next {as : List Access} {s t : State} (h : runApp as s = .next t) :
    ∃ u a p, Accessed s u ∧ t = { u with app := a, appSplit := p } := by
  unfold runApp at h
  split at h
  · exact ⟨t, t.app, t.appSplit, accessed_runAccesses h, rfl⟩
  · obtain ⟨u, h1, h2⟩ := andThen_eq_next.mp h
    cases h2
    exact ⟨u, _, _, accessed_runAccesses h1, rfl⟩

/-! ## The control state machine -/

theorem handlerReturn_eq_next {w : Half} {s t : State} (h : handlerReturn w s = .next t) :
    ∃ u, Accessed s u ∧ t = { u with seq := .run .leave } := by
  simp only [handlerReturn, Host.Outcome.next.injEq] at h
  exact ⟨_, accessed_writeReg _ _ _, h.symm⟩

/-- How an operation of format SETUP, and a resumed transfer, leaves the invocation: by its final write, or at the start
of a bounded wait; the transfer's own registers may change. -/
def Sent (s t : State) : Prop :=
  ∃ u co cr wc q, Accessed s u ∧ (q = .run .leave ∨ q = .wait) ∧
    t = { u with curOff := co, curRem := cr, waitCtr := wc, seq := q }

theorem Sent.of_accessed {s u t : State} (h : Accessed s u) (h' : Sent u t) : Sent s t := by
  obtain ⟨v, co, cr, wc, q, h1, h2, rfl⟩ := h'
  exact ⟨v, co, cr, wc, q, h.trans h1, h2, rfl⟩

theorem sent_handlerReturn {w : Half} {s t : State} (h : handlerReturn w s = .next t) : Sent s t := by
  obtain ⟨u, h1, rfl⟩ := handlerReturn_eq_next h
  exact ⟨u, u.curOff, u.curRem, u.waitCtr, _, h1, .inl rfl, rfl⟩

theorem sent_armMidAndWait {s t : State} (h : armMidAndWait s = .next t) : Sent s t := by
  simp only [armMidAndWait, readReg, Host.Outcome.next.injEq] at h
  subst h
  exact ⟨_, _, _, _, _, (accessed_pause s).trans (accessed_writeReg 0 _ _), .inr rfl, rfl⟩

/-- Updates of the transfer cursor before a `Sent` are part of it. -/
theorem Sent.of_cursor {s t : State} {co cr : Half} (h : Sent { s with curOff := co, curRem := cr } t) : Sent s t := by
  obtain ⟨u, co', cr', wc, q, h1, h2, rfl⟩ := h
  obtain ⟨r, p, q', w, e, c, d, g, z, hu⟩ := h1.shape
  refine ⟨{ u with curOff := s.curOff, curRem := s.curRem }, co', cr', wc, q, ⟨⟨r, p, q', w, e, c, d, g, z, ?_⟩, ?_, ?_, ?_⟩,
    h2, rfl⟩
  · rw [hu]
  · exact h1.seq
  · exact h1.wire
  · intro hc hm
    have := h1.mem hc ⟨hm.canonical, hm.bounded⟩
    exact ⟨this.canonical, this.bounded⟩

theorem sent_sendChunk {s t : State} (h : sendChunk s = .next t) : Sent s t := by
  unfold sendChunk at h
  obtain ⟨u, h1, h2⟩ := andThen_eq_next.mp h
  refine Sent.of_accessed (accessed_writeIrqOp h1)
    (Sent.of_cursor (co := u.curOff + BitVec.ofNat 16 (min s.curRem.toNat (s.epAt 0).txSize.toNat))
      (cr := u.curRem - BitVec.ofNat 16 (min s.curRem.toNat (s.epAt 0).txSize.toNat)) ?_)
  dsimp only at h2
  split at h2
  · exact sent_handlerReturn h2
  · exact sent_armMidAndWait h2

theorem sent_tx0 {src : List Byte} {len : Nat} {s t : State} (h : tx0 src len s = .next t) :
    ∃ ts, Sent { s with txSrc := ts } t := by
  unfold tx0 at h
  split at h
  · obtain ⟨u, h1, h2⟩ := andThen_eq_next.mp h
    exact ⟨s.txSrc, Sent.of_accessed (accessed_writeIrqOp h1) (sent_handlerReturn h2)⟩
  · exact ⟨src, Sent.of_cursor (sent_sendChunk h)⟩

theorem sent_resumeTx {s t : State} (h : resumeTx s = .next t) : Sent s t := by
  unfold resumeTx at h
  split at h
  · obtain ⟨u, h1, h2⟩ := andThen_eq_next.mp h
    exact Sent.of_accessed (accessed_writeIrqOp h1) (sent_handlerReturn h2)
  · exact sent_sendChunk h

/-- Updates of the phase commute with a `Sent` that follows the accesses. -/
theorem sent_ack {s t : State} (h : acknowledge s = .next t) : Sent { s with phase := .statusStage } t := by
  unfold acknowledge at h
  obtain ⟨u, h1, h2⟩ := andThen_eq_next.mp h
  have h1 := accessed_writeIrqOp h1
  refine Sent.of_accessed (u := { u with phase := .statusStage }) ?_ (sent_handlerReturn h2)
  obtain ⟨r, p, q', w, e, c, d, g, z, hu⟩ := h1.shape
  refine ⟨⟨r, p, q', w, e, c, d, g, z, by rw [hu]⟩, h1.seq, h1.wire, fun hc hm => ?_⟩
  have := h1.mem hc ⟨hm.canonical, hm.bounded⟩
  exact ⟨this.canonical, this.bounded⟩

theorem sent_unrec {bm rq : Byte} {v : Half} {s t : State} (h : unrec bm rq v s = .next t) :
    Sent { s with phase := .statusStage, diagLog := s.diagLog ++ [.unrecognized bm rq v] } t := sent_ack h

theorem sent_serve {bs : List Byte} {len : Nat} {s t : State} (h : serve bs len s = .next t) :
    ∃ ts, Sent { s with phase := if 0 < len then .dataStageIn else .statusStage, txSrc := ts } t := sent_tx0 h

/-- An operation of format SETUP leaves phase Dispatch, may extend the diagnostic log, and writes the device state only as
SET_ADDRESS and SET_CONFIGURATION do; then it is `Sent`. -/
theorem setup_eq_next {i : Instr} {s t : State} (hi : i.setupRow ≠ none) (h : exec i s = .next t) :
    ∃ ph ts dl dv al, ph ≠ .dispatch ∧ s.diagLog <+: dl ∧
      (dv.status = s.dev.status ∨ ∃ v x l, i = .setConfiguration v x l ∧ dv.status = .configured ∧
        dv.config = v.extractLsb' 0 8) ∧
      Sent { s with phase := ph, txSrc := ts, diagLog := dl, dev := dv, addrLatch := al } t := by
  have served : ∀ {bs len}, serve bs len s = .next t → ∃ ph ts dl dv al, ph ≠ .dispatch ∧ s.diagLog <+: dl ∧
      (dv.status = s.dev.status ∨ ∃ v x l, i = .setConfiguration v x l ∧ dv.status = .configured ∧
        dv.config = v.extractLsb' 0 8) ∧
      Sent { s with phase := ph, txSrc := ts, diagLog := dl, dev := dv, addrLatch := al } t := by
    intro bs len h
    obtain ⟨ts, h⟩ := sent_serve h
    exact ⟨_, ts, s.diagLog, s.dev, s.addrLatch, by split <;> simp, List.prefix_refl _, .inl rfl, h⟩
  have unrecd : ∀ {bm rq v}, unrec bm rq v s = .next t → ∃ ph ts dl dv al, ph ≠ .dispatch ∧ s.diagLog <+: dl ∧
      (dv.status = s.dev.status ∨ ∃ v x l, i = .setConfiguration v x l ∧ dv.status = .configured ∧
        dv.config = v.extractLsb' 0 8) ∧
      Sent { s with phase := ph, txSrc := ts, diagLog := dl, dev := dv, addrLatch := al } t := by
    intro bm rq v h
    exact ⟨.statusStage, s.txSrc, _, s.dev, s.addrLatch, by simp, List.prefix_append _ _, .inl rfl, sent_unrec h⟩
  have described : ∀ {bm v l}, serveDescriptor bm v l s = .next t → ∃ ph ts dl dv al, ph ≠ .dispatch ∧ s.diagLog <+: dl ∧
      (dv.status = s.dev.status ∨ ∃ v x l, i = .setConfiguration v x l ∧ dv.status = .configured ∧
        dv.config = v.extractLsb' 0 8) ∧
      Sent { s with phase := ph, txSrc := ts, diagLog := dl, dev := dv, addrLatch := al } t := by
    intro bm v l h
    unfold serveDescriptor at h
    split at h
    · exact unrecd h
    · exact served h
  cases i with
  | getStatus => exact served h
  | getDescDevice => rw [exec, execGetDescDevice] at h; exact described h
  | getDescConfig => rw [exec, execGetDescConfig] at h; exact described h
  | getDescString0 => rw [exec, execGetDescString0] at h; exact described h
  | getDescString1 => rw [exec, execGetDescString1] at h; exact described h
  | getDescString2 => rw [exec, execGetDescString2] at h; exact described h
  | getDescString3 => rw [exec, execGetDescString3] at h; exact described h
  | getDescQualifier => rw [exec, execGetDescQualifier] at h; exact described h
  | getDescUnknown => exact unrecd h
  | getConfiguration => exact served h
  | stdDevGetUnknown => exact unrecd h
  | setAddress v x l =>
    rw [exec, execSetAddress] at h
    exact ⟨.statusStage, s.txSrc, s.diagLog, { s.dev with pendingAddr := requestedAddress v }, true, by simp,
      List.prefix_refl _, .inl rfl, sent_ack h⟩
  | setConfiguration v x l =>
    rw [exec, execSetConfiguration] at h
    exact ⟨.statusStage, s.txSrc, s.diagLog, { s.dev with status := .configured, config := configurationValue v }, s.addrLatch, by simp, List.prefix_refl _,
      .inr ⟨v, x, l, rfl, rfl, configurationValue.eq_def v⟩, sent_ack h⟩
  | stdDevSetUnknown => exact unrecd h
  | getDescHidReport => rw [exec, execGetDescHidReport] at h; exact described h
  | clearFeatureEp =>
    exact ⟨.statusStage, s.txSrc, s.diagLog, s.dev, s.addrLatch, by simp, List.prefix_refl _, .inl rfl, sent_ack h⟩
  | setIdle =>
    exact ⟨.statusStage, s.txSrc, s.diagLog, s.dev, s.addrLatch, by simp, List.prefix_refl _, .inl rfl, sent_ack h⟩
  | hidSetFeature =>
    exact ⟨.dataStageOut, s.txSrc, s.diagLog, s.dev, s.addrLatch, by simp, List.prefix_refl _, .inl rfl,
      sent_handlerReturn h⟩
  | fallback => exact unrecd h
  | irqReset => exact absurd rfl hi
  | irqCtrOut => exact absurd rfl hi
  | irqCtrIn => exact absurd rfl hi
  | getState => exact absurd rfl hi
  | allocate => exact absurd rfl hi
  | write => exact absurd rfl hi
  | writeIrq => exact absurd rfl hi
  | read => exact absurd rfl hi

/-! ## The allocator -/

/-- An ALLOCATE either fails without an effect, or passes the checks and records its entry after its accesses. -/
theorem allocOp_eq_next {n : BitVec 4} {ty : EpType} {tx rx : Half} {h : BitVec 1} {s t : State}
    (ha : allocOp n ty tx rx h s = .next t) :
    t = s ∨ allocCheck s.cfg.pmaSize s.bump.toNat n.toNat tx.toNat rx.toNat = .ok ∧ ∃ u v, Accessed s u ∧
      Accessed { u with ep := u.ep.setIfInBounds n.toNat (allocEntry u.bump n.toNat ty tx rx h),
                        bump := u.bump + tx + rx } v ∧ t = v := by
  unfold allocOp at ha
  split at ha
  · refine .inr ⟨‹_›, ?_⟩
    unfold allocApply at ha
    obtain ⟨s1, h1, ha⟩ := andThen_eq_next.mp ha
    obtain ⟨s2, h2, ha⟩ := andThen_eq_next.mp ha
    obtain ⟨s3, h3, ha⟩ := andThen_eq_next.mp ha
    obtain ⟨s4, h4, ha⟩ := andThen_eq_next.mp ha
    simp only [readReg, Host.Outcome.next.injEq] at ha
    refine ⟨s4, t, ?_, ?_, rfl⟩
    · exact (((accessed_store16 h1).trans (accessed_store16 h2)).trans (accessed_store16 h3)).trans (accessed_store16 h4)
    · rw [← ha]
      exact (accessed_pause _).trans (accessed_writeReg _ _ _)
  · cases ha
    exact .inl rfl

theorem Accessed.bump {s t : State} (h : Accessed s t) : t.bump = s.bump := by
  obtain ⟨_, _, _, _, _, _, _, _, _, rfl⟩ := h.shape; rfl

/-! ## The dispatcher -/

/-- Accesses after an update of the endpoint table: the update stands, the accesses are as without it. -/
theorem Accessed.of_ep {s t : State} {e : Vector Endpoint 8} (h : Accessed { s with ep := e } t) :
    ∃ u, Accessed s u ∧ t = { u with ep := e } := by
  obtain ⟨r, p, q, w, e', c, d, g, z, ht⟩ := h.shape
  refine ⟨{ t with ep := s.ep }, ⟨⟨r, p, q, w, e', c, d, g, z, by rw [ht]⟩, h.seq, h.wire, fun hc hm => ?_⟩, by rw [ht]⟩
  have := h.mem hc ⟨hm.canonical, hm.bounded⟩
  exact ⟨this.canonical, this.bounded⟩

/-- SNAPSHOT(n): the entry of the endpoint is latched (R254). -/
theorem snapshot_eq_next {n : Nat} {s t : State} {k : State → Out} (hn : n < 8) (h : snapshot n s k = .next t) :
    ∃ u r w, Accessed s u ∧ k { u with ep := s.ep.setIfInBounds n (snapped (s.epAt n) r w) } = .next t := by
  unfold snapshot at h
  simp only [readReg] at h
  obtain ⟨w, h⟩ := load16_next h
  obtain ⟨u, hu, he⟩ := (accessed_pause { s.pause with
    ep := s.pause.ep.setIfInBounds n (latchFlags (s.pause.epAt n) (s.pause.eprAt n)) }).of_ep
  refine ⟨u, s.pause.eprAt n, w, (accessed_pause s).trans hu, ?_⟩
  rw [← h]
  simp only [State.setEp, pause_epAt, pause_ep] at he ⊢
  rw [he]
  congr 1
  simp only [State.epAt, snapped, latchFlags, ctrRx, ctrTx, setupBit, receivedCount]
  simp [hn]

/-- COPY_EP0(n, d): at most `setup` or the scratch buffer is written, the latter within its capacity (R255). -/
theorem copyEp0_eq_next {n : Nat} {d : Bool} {s t : State} {k : State → Out} (h : copyEp0 n d s k = .next t) :
    ∃ u w b l, Accessed s u ∧ (l = s.scratchLen ∨ l.toNat ≤ s.cfg.scratchCap) ∧
      k { u with setup := w, scratch := b, scratchLen := l } = .next t := by
  unfold copyEp0 at h
  dsimp only at h
  split at h
  · split at h
    · obtain ⟨bs, u, hu, h⟩ := loadBytes_next h
      exact ⟨u, _, u.scratch, _, hu, .inr (by simp), h⟩
    · split at h
      · obtain ⟨bs, u, hu, h⟩ := loadBytes_next h
        refine ⟨u, u.setup, _, _, hu, .inr ?_, h⟩
        have : min (s.epAt 0).rxCount.toNat s.cfg.scratchCap ≤ s.cfg.scratchCap := Nat.min_le_right _ _
        exact Nat.le_trans (by rw [BitVec.toNat_ofNat]; exact Nat.mod_le _ _) this
      · exact ⟨s, s.setup, s.scratch, s.scratchLen, .refl s, .inl rfl, h⟩
  · exact ⟨s, s.setup, s.scratch, s.scratchLen, .refl s, .inl rfl, h⟩

/-- ADDRESS_APPLY(): nothing, or the pending address and the device status (R240). -/
theorem addressApply_cases (s : State) :
    ∃ u al, Accessed s u ∧ (addressApply s = u ∨
      addressApply s = { u with daddr := 0x80#8 ||| s.dev.pendingAddr.setWidth 8
                                dev := { s.dev with status := .addressed }
                                addrLatch := al }) := by
  unfold addressApply
  split
  · dsimp only
    split
    · refine ⟨s.pause.pause, s.pause.pause.addrLatch, (accessed_pause s).trans (accessed_pause _), .inr ?_⟩
      simp [setAddressNow]
    · exact ⟨s.pause, false, accessed_pause s, .inl rfl⟩
  · split
    · refine ⟨s.pause, false, accessed_pause s, .inr ?_⟩
      simp [setAddressNow]
    · exact ⟨s, false, .refl s, .inl rfl⟩

/-- Accesses after an update of the phase, the address and the device state: the update stands. -/
theorem Accessed.of_device {s t : State} {ph : Phase} {da : Byte} {dv : Dev} {al : Bool}
    (h : Accessed { s with phase := ph, daddr := da, dev := dv, addrLatch := al } t) :
    ∃ u, Accessed s u ∧ t = { u with phase := ph, daddr := da, dev := dv, addrLatch := al } := by
  obtain ⟨r, p, q, w, e, c, d, g, z, ht⟩ := h.shape
  refine ⟨{ t with phase := s.phase, daddr := s.daddr, dev := s.dev, addrLatch := s.addrLatch },
    ⟨⟨r, p, q, w, e, c, d, g, z, by rw [ht]⟩, h.seq, h.wire, fun hc hm => ?_⟩, by rw [ht]⟩
  have := h.mem hc ⟨hm.canonical, hm.bounded⟩
  exact ⟨this.canonical, this.bounded⟩

/-- The control handler: it enters Dispatch, or it returns after at most the address and the phase. -/
theorem ep0Handler_eq_next {s t : State} (h : ep0Handler s = .next t) :
    t = { s with phase := .dispatch, seq := .run .dispatch } ∨
    ∃ u ph da dv al, Accessed s u ∧ (ph = s.phase ∨ ph = .waitSetup) ∧
      (da = s.daddr ∧ dv = s.dev ∨ da = 0x80#8 ||| s.dev.pendingAddr.setWidth 8 ∧ dv = { s.dev with status := .addressed }) ∧
      t = { u with phase := ph, daddr := da, dev := dv, addrLatch := al, seq := .run .leave } := by
  unfold ep0Handler at h
  dsimp only at h
  split at h
  · cases h
    exact .inl rfl
  · right
    have key : ∀ (u : State) ph da dv al w, Accessed s u →
        handlerReturn w { u with phase := ph, daddr := da, dev := dv, addrLatch := al } = .next t →
        ∃ u, Accessed s u ∧ t = { u with phase := ph, daddr := da, dev := dv, addrLatch := al, seq := .run .leave } := by
      intro u ph da dv al w hu h
      obtain ⟨v, hv, rfl⟩ := handlerReturn_eq_next h
      obtain ⟨u', hu', rfl⟩ := hv.of_device
      exact ⟨u', hu.trans hu', rfl⟩
    have keep : ∀ (u : State) ph w, Accessed s u → (ph = s.phase ∨ ph = .waitSetup) →
        handlerReturn w { u with phase := ph } = .next t →
        ∃ u ph da dv al, Accessed s u ∧ (ph = s.phase ∨ ph = .waitSetup) ∧
          (da = s.daddr ∧ dv = s.dev ∨
            da = 0x80#8 ||| s.dev.pendingAddr.setWidth 8 ∧ dv = { s.dev with status := .addressed }) ∧
          t = { u with phase := ph, daddr := da, dev := dv, addrLatch := al, seq := .run .leave } := by
      intro u ph w hu hp h
      obtain ⟨u', hu', ht⟩ := key u ph u.daddr u.dev u.addrLatch w hu h
      exact ⟨u', ph, _, _, _, hu', hp, .inl ⟨by obtain ⟨_, _, _, _, _, _, _, _, _, rfl⟩ := hu.shape; rfl,
        by obtain ⟨_, _, _, _, _, _, _, _, _, rfl⟩ := hu.shape; rfl⟩, ht⟩
    split at h
    · split at h
      · obtain ⟨u, al, hu, hc | hc⟩ := addressApply_cases s
        · rw [hc] at h
          exact keep u _ _ hu (.inr rfl) h
        · rw [hc] at h
          obtain ⟨u', hu', ht⟩ := key u _ _ _ _ _ hu h
          exact ⟨u', _, _, _, _, hu', .inr rfl, .inr ⟨rfl, rfl⟩, ht⟩
      · exact keep s _ _ (.refl s) (.inr rfl) h
    · split at h
      · rename_i h1 h2
        simp [h2] at h1
      · exact keep s s.phase _ (.refl s) (.inl rfl) h

/-- The external handler's first part: outstanding WRITE_IRQ operations, or the final write. -/
theorem callExternal_eq_next {m : Nat} {s t : State} (h : callExternal m s = .next t) :
    ∃ u q w sq, Accessed s u ∧ (sq = .run .leave ∨ sq = .run .ext) ∧ t = { u with hq := q, hword := w, seq := sq } := by
  unfold callExternal at h
  dsimp only at h
  split at h
  · obtain ⟨u, hu, rfl⟩ := handlerReturn_eq_next h
    exact ⟨u, u.hq, u.hword, _, hu, .inl rfl, rfl⟩
  · cases h
    exact ⟨s, _, _, _, .refl s, .inr rfl, rfl⟩

/-- `s` with the shared part of `t`. -/
def shared (s t : State) : State :=
  { s with istrReset := t.istrReset, pma := t.pma, wireIn := t.wireIn, epr := t.epr, race := t.race, dst := t.dst
           appReg := t.appReg, result := t.result }

/-- What a chain of accesses and updates of the engine's own registers did to the shared part. -/
structure Linked (s t : State) : Prop where
  wire : s.wireIn <+: t.wireIn
  mem  : s.cfg.wf → MemInv s → MemInv t

theorem Accessed.linked {s t : State} (h : Accessed s t) : Linked s t := ⟨h.wire, h.mem⟩

theorem Linked.trans {s t u : State} (h : Linked s t) (hc : t.cfg = s.cfg) (h' : Linked t u) : Linked s u :=
  ⟨h.wire.trans h'.wire, fun hw hm => h'.mem (hc ▸ hw) (h.mem hw hm)⟩

/-- An update that touches neither packet memory nor the wire log. -/
theorem Linked.of_eq {s t : State} (hp : t.pma = s.pma) (hw : t.wireIn = s.wireIn) (hc : t.cfg = s.cfg) : Linked s t :=
  ⟨hw ▸ List.prefix_refl _, fun _ h => ⟨hp ▸ h.canonical, by rw [hp, hc]; exact h.bounded⟩⟩

/-- Accesses after such an update link the state before it. -/
theorem Linked.after {s' t : State} (h : Linked s' t) (s : State) (hp : s'.pma = s.pma) (hw : s'.wireIn = s.wireIn)
    (hc : s'.cfg = s.cfg) : Linked s t := (Linked.of_eq hp hw hc).trans hc h

theorem Linked.accessed_shared {s t : State} (h : Linked s t) (hc : t.cfg = s.cfg) : Accessed s (shared s t) :=
  ⟨⟨_, _, _, _, _, _, _, _, _, rfl⟩, .inl rfl, h.wire, fun hw hm =>
    ⟨(h.mem hw hm).canonical, by have := (h.mem hw hm).bounded; rw [hc] at this; exact this⟩⟩

theorem callHandler_eq_next {s t : State} (h : callHandler s = .next t) :
    ∃ u ph da dv al hq hw sq, Accessed s u ∧
      (da = s.daddr ∧ dv = s.dev ∨
        da = 0x80#8 ||| s.dev.pendingAddr.setWidth 8 ∧ dv = { s.dev with status := .addressed }) ∧
      (ph = .dispatch ∧ sq = .run .dispatch ∨
        (ph = s.phase ∨ ph = .waitSetup) ∧ (sq = .run .leave ∨ sq = .run .ext)) ∧
      t = { u with phase := ph, daddr := da, dev := dv, addrLatch := al, hq := hq, hword := hw, seq := sq } := by
  unfold callHandler at h
  dsimp only at h
  split at h
  · split at h
    · rcases ep0Handler_eq_next h with rfl | ⟨u, ph, da, dv, al, hu, hp, hd, rfl⟩
      · exact ⟨s, _, s.daddr, s.dev, s.addrLatch, s.hq, s.hword, _, .refl s, .inl ⟨rfl, rfl⟩, .inl ⟨rfl, rfl⟩, rfl⟩
      · exact ⟨u, ph, da, dv, al, u.hq, u.hword, _, hu, hd, .inr ⟨hp, .inl rfl⟩, rfl⟩
    · obtain ⟨u, q, w, sq, hu, hs, rfl⟩ := callExternal_eq_next h
      obtain ⟨_, _, _, _, _, _, _, _, _, he⟩ := hu.shape
      exact ⟨u, u.phase, u.daddr, u.dev, u.addrLatch, q, w, sq, hu, .inl (by rw [he]; exact ⟨rfl, rfl⟩),
        .inr ⟨.inl (by rw [he]), hs⟩, rfl⟩
  · obtain ⟨u, hu, rfl⟩ := handlerReturn_eq_next h
    obtain ⟨_, _, _, _, _, _, _, _, _, he⟩ := hu.shape
    exact ⟨u, u.phase, u.daddr, u.dev, u.addrLatch, u.hq, u.hword, _, hu, .inl (by rw [he]; exact ⟨rfl, rfl⟩),
      .inr ⟨.inl (by rw [he]), .inl rfl⟩, rfl⟩

/-- A transaction-complete operation: the served entry is latched, `setup` or the scratch buffer may be written, and the
handler enters Dispatch, has WRITE_IRQ operations outstanding, or has returned (R253 to R257). -/
theorem ctrBranch_eq_next {n : BitVec 4} {d : Bool} {s t : State} (h : ctrBranch n d s = .next t) :
    n.toNat < 8 ∧ ∃ u r w su sc sl ph da dv al hq hw sq, Accessed s u ∧
      (sl = s.scratchLen ∨ sl.toNat ≤ s.cfg.scratchCap) ∧
      (da = s.daddr ∧ dv = s.dev ∨
        da = 0x80#8 ||| s.dev.pendingAddr.setWidth 8 ∧ dv = { s.dev with status := .addressed }) ∧
      (ph = .dispatch ∧ sq = .run .dispatch ∨
        (ph = s.phase ∨ ph = .waitSetup) ∧ (sq = .run .leave ∨ sq = .run .ext)) ∧
      t = { u with served := n
                   ep := s.ep.setIfInBounds n.toNat (snapped (s.epAt n.toNat) r w)
                   setup := su, scratch := sc, scratchLen := sl, phase := ph, daddr := da, dev := dv, addrLatch := al
                   hq := hq, hword := hw, seq := sq } := by
  unfold ctrBranch at h
  split at h
  · rename_i hn
    refine ⟨hn, ?_⟩
    obtain ⟨u, r, w, hu, h⟩ := snapshot_eq_next hn h
    obtain ⟨v, su, sc, sl, hv, hl, h⟩ := copyEp0_eq_next h
    obtain ⟨x, ph, da, dv, al, hq, hw, sq, hx, hd, hp, rfl⟩ := callHandler_eq_next h
    have l1 := hu.linked.after s rfl rfl rfl
    have l2 := l1.trans hu.cfg (hv.linked.after u rfl rfl rfl)
    have l3 := l2.trans (by rw [hv.cfg]; exact hu.cfg) (hx.linked.after v rfl rfl rfl)
    have hc : x.cfg = s.cfg := by rw [hx.cfg]; exact hv.cfg.trans hu.cfg
    refine ⟨shared s x, r, w, su, sc, sl, ph, da, dv, al, hq, hw, sq, l3.accessed_shared hc, ?_⟩
    obtain ⟨_, _, _, _, _, _, _, _, _, rfl⟩ := hu.shape
    obtain ⟨_, _, _, _, _, _, _, _, _, rfl⟩ := hv.shape
    obtain ⟨_, _, _, _, _, _, _, _, _, rfl⟩ := hx.shape
    exact ⟨hl, hd, hp, rfl⟩
  · cases h

end Sys2Proof.Machine
end

