-- ==== Sys2Proof/Laws/PerInstr.lean ====
section
/-! SUPPORT. Per-instruction laws. Family `RowMatch`: the encoded word of a well-formed operation has the format of its row of
spec/opcode_table.json and matches that row's mask and match (spec/30_encoding.md R105, R106, R108). -/

namespace Sys2Proof

/-- The low 8, 16 and 32 bits of a packed Setup Packet. -/
theorem packSetup_and_8 (bm rq : Byte) (v i l : Half) : packSetup bm rq v i l &&& 0x000000FF#64 = bm.setWidth 64 := by
  apply BitVec.eq_of_getLsbD_eq
  intro k hk
  rw [BitVec.getLsbD_and, getLsbD_packSetup]
  interval_cases k <;> simp

theorem packSetup_and_16 (bm rq : Byte) (v i l : Half) :
    packSetup bm rq v i l &&& 0x0000FFFF#64 = (rq ++ bm).setWidth 64 := by
  apply BitVec.eq_of_getLsbD_eq
  intro k hk
  rw [BitVec.getLsbD_and, getLsbD_packSetup, BitVec.getLsbD_setWidth]
  show _ = (_ && BitVec.getLsbD (w := 8 + 8) (rq ++ bm) k)
  rw [BitVec.getLsbD_append]
  interval_cases k <;> simp

theorem packSetup_and_32 (bm rq : Byte) (v i l : Half) :
    packSetup bm rq v i l &&& 0xFFFFFFFF#64 = (v ++ rq ++ bm).setWidth 64 := by
  apply BitVec.eq_of_getLsbD_eq
  intro k hk
  rw [BitVec.getLsbD_and, getLsbD_packSetup, BitVec.getLsbD_setWidth]
  show _ = (_ && BitVec.getLsbD (w := 16 + 8 + 8) (v ++ rq ++ bm) k)
  rw [BitVec.getLsbD_append, BitVec.getLsbD_append]
  interval_cases k <;> simp

/-- Masking the direction bit out of the recipient byte of row 16. -/
theorem packSetup_and_row16 (dir : BitVec 1) (v i l : Half) :
    packSetup (dir ++ 0x02#7) 0x01#8 v i l &&& 0x0000FF7F#64 = 0x00000102#64 := by
  have e : (0x0000FF7F#64 : BitVec 64) = 0x0000FFFF#64 &&& 0x0000FF7F#64 := by decide
  rw [e, ← BitVec.and_assoc, packSetup_and_16]
  revert dir
  decide

theorem nibble_or_8000 (n : BitVec 4) : (0x8010#16 ||| n.setWidth 16) &&& 0x8000#16 = 0x8000#16 ∧
    (0x8000#16 ||| n.setWidth 16) &&& 0x8000#16 = 0x8000#16 := by revert n; decide

end Sys2Proof

namespace Sys2Proof.Laws.RowMatch

open Sys2Proof

/-- The word of a SETUP operation matches its row of R105; the word of an IRQ row has the bits R106 selects it by; a command
byte is one of the five codes of R108. -/
def Statement (i : Instr) : Prop :=
  ∀ rqHid : Byte, i.wellFormed rqHid = true →
    match encode rqHid i with
    | .setup w => ∃ r row, i.setupRow = some r ∧ (setupRows rqHid)[r]? = some row ∧ w &&& row.mask = row.pat
    | .istr w => i.setupRow = none ∧ (w &&& 0x0400#16 = 0x0400#16 ∨ w &&& 0x8000#16 = 0x8000#16)
    | .cmd p => i.setupRow = none ∧ p.c.toNat < 5

theorem getStatus (wValue wIndex wLength : Half) : Statement (.getStatus wValue wIndex wLength) :=
  fun _ _ => ⟨0, _, rfl, rfl, packSetup_and_16 _ _ _ _ _⟩
theorem getDescDevice (wIndex wLength : Half) : Statement (.getDescDevice wIndex wLength) :=
  fun _ _ => ⟨1, _, rfl, rfl, packSetup_and_32 _ _ _ _ _⟩
theorem getDescConfig (wIndex wLength : Half) : Statement (.getDescConfig wIndex wLength) :=
  fun _ _ => ⟨2, _, rfl, rfl, packSetup_and_32 _ _ _ _ _⟩
theorem getDescString0 (wIndex wLength : Half) : Statement (.getDescString0 wIndex wLength) :=
  fun _ _ => ⟨3, _, rfl, rfl, packSetup_and_32 _ _ _ _ _⟩
theorem getDescString1 (wIndex wLength : Half) : Statement (.getDescString1 wIndex wLength) :=
  fun _ _ => ⟨4, _, rfl, rfl, packSetup_and_32 _ _ _ _ _⟩
theorem getDescString2 (wIndex wLength : Half) : Statement (.getDescString2 wIndex wLength) :=
  fun _ _ => ⟨5, _, rfl, rfl, packSetup_and_32 _ _ _ _ _⟩
theorem getDescString3 (wIndex wLength : Half) : Statement (.getDescString3 wIndex wLength) :=
  fun _ _ => ⟨6, _, rfl, rfl, packSetup_and_32 _ _ _ _ _⟩
theorem getDescQualifier (wIndex wLength : Half) : Statement (.getDescQualifier wIndex wLength) :=
  fun _ _ => ⟨7, _, rfl, rfl, packSetup_and_32 _ _ _ _ _⟩
theorem getDescUnknown (wValue wIndex wLength : Half) : Statement (.getDescUnknown wValue wIndex wLength) :=
  fun _ _ => ⟨8, _, rfl, rfl, packSetup_and_16 _ _ _ _ _⟩
theorem getConfiguration (wValue wIndex wLength : Half) : Statement (.getConfiguration wValue wIndex wLength) :=
  fun _ _ => ⟨9, _, rfl, rfl, packSetup_and_16 _ _ _ _ _⟩
theorem stdDevGetUnknown (bRequest : Byte) (wValue wIndex wLength : Half) :
    Statement (.stdDevGetUnknown bRequest wValue wIndex wLength) :=
  fun _ _ => ⟨10, _, rfl, rfl, packSetup_and_8 _ _ _ _ _⟩
theorem setAddress (wValue wIndex wLength : Half) : Statement (.setAddress wValue wIndex wLength) :=
  fun _ _ => ⟨11, _, rfl, rfl, packSetup_and_16 _ _ _ _ _⟩
theorem setConfiguration (wValue wIndex wLength : Half) : Statement (.setConfiguration wValue wIndex wLength) :=
  fun _ _ => ⟨12, _, rfl, rfl, packSetup_and_16 _ _ _ _ _⟩
theorem stdDevSetUnknown (bRequest : Byte) (wValue wIndex wLength : Half) :
    Statement (.stdDevSetUnknown bRequest wValue wIndex wLength) :=
  fun _ _ => ⟨13, _, rfl, rfl, packSetup_and_8 _ _ _ _ _⟩
theorem getDescHidReport (wIndex wLength : Half) : Statement (.getDescHidReport wIndex wLength) :=
  fun _ _ => ⟨14, _, rfl, rfl, packSetup_and_32 _ _ _ _ _⟩
theorem clearFeatureEp (dir : BitVec 1) (wValue wIndex wLength : Half) :
    Statement (.clearFeatureEp dir wValue wIndex wLength) :=
  fun _ _ => ⟨15, _, rfl, rfl, packSetup_and_row16 _ _ _ _⟩
theorem setIdle (wValue wIndex wLength : Half) : Statement (.setIdle wValue wIndex wLength) :=
  fun _ _ => ⟨16, _, rfl, rfl, packSetup_and_16 _ _ _ _ _⟩
theorem hidSetFeature (wValue wIndex wLength : Half) : Statement (.hidSetFeature wValue wIndex wLength) :=
  fun _ _ => ⟨17, _, rfl, rfl, packSetup_and_16 _ _ _ _ _⟩
theorem fallback (bmRequestType bRequest : Byte) (wValue wIndex wLength : Half) :
    Statement (.fallback bmRequestType bRequest wValue wIndex wLength) :=
  fun _ _ => ⟨18, _, rfl, rfl, BitVec.and_zero⟩
theorem irqReset : Statement .irqReset :=
  fun _ _ => ⟨rfl, .inl (by decide)⟩
theorem irqCtrOut (n : BitVec 4) : Statement (.irqCtrOut n) :=
  fun _ _ => ⟨rfl, .inr (nibble_or_8000 n).1⟩
theorem irqCtrIn (n : BitVec 4) : Statement (.irqCtrIn n) :=
  fun _ _ => ⟨rfl, .inr (nibble_or_8000 n).2⟩
theorem getState : Statement .getState :=
  fun _ _ => ⟨rfl, show (0x00#8 : Byte).toNat < 5 by decide⟩
theorem allocate (n : BitVec 4) (type : EpType) (txSize rxSize : Half) (hsel : BitVec 1) :
    Statement (.allocate n type txSize rxSize hsel) :=
  fun _ _ => ⟨rfl, show (0x01#8 : Byte).toNat < 5 by decide⟩
theorem write (n : BitVec 4) (data : List Byte) : Statement (.write n data) :=
  fun _ _ => ⟨rfl, show (0x02#8 : Byte).toNat < 5 by decide⟩
theorem writeIrq (n : BitVec 4) (data : List Byte) : Statement (.writeIrq n data) :=
  fun _ _ => ⟨rfl, show (0x03#8 : Byte).toNat < 5 by decide⟩
theorem read (n : BitVec 4) : Statement (.read n) :=
  fun _ _ => ⟨rfl, show (0x04#8 : Byte).toNat < 5 by decide⟩

end Sys2Proof.Laws.RowMatch
end

