-- ==== Sys2Proof/Laws/Step.lean ====
section
/-! SUPPORT. The step by the sequencer: which fetch it makes, and what each answers. -/

namespace Sys2Proof.Machine

theorem seq_cases (s : State) : s.seq = .idle ∨ (∃ p, s.seq = .run p) ∨ s.seq = .wait := by
  cases s.seq <;> simp

theorem fetch_of_idle {s : State} (h : s.seq = .idle) : fetch s = fetchIdle s := by unfold fetch; rw [h]
theorem fetch_of_run {s : State} {p : Point} (h : s.seq = .run p) : fetch s = fetchRun p s := by unfold fetch; rw [h]
theorem fetch_of_wait {s : State} (h : s.seq = .wait) : fetch s = fetchWait s := by unfold fetch; rw [h]

/-- A step that fetches an operation runs it, and the invocation leaves when it is done. -/
theorem step_of_instr {s t : State} {i : Instr} (h : fetch s = .instr i t) : step s = leaving (exec i t) := by
  unfold step; rw [h]; exact finish_eq_leaving _

/-- A step of its own answers its outcome, and the invocation leaves when it is done. -/
theorem step_of_move {s : State} {o : Out} (h : fetch s = .move o) : step s = leaving o := by
  unfold step; rw [h]; exact finish_eq_leaving _

theorem leaving_eq_next {o : Out} {t : State} : leaving o = .next t ↔ ∃ s, o = .next s ∧ t = left s := by
  rw [← finish_eq_leaving]; exact finish_eq_next

theorem leaving_eq_fault {o : Out} {f : Fault} : leaving o = .fault f ↔ o = .fault f := by
  rw [← finish_eq_leaving]; exact finish_eq_fault

/-- Every step is a fetched operation or a move of its own. -/
theorem step_eq_next {s t : State} (h : step s = .next t) :
    (∃ i u v, fetch s = .instr i u ∧ exec i u = .next v ∧ t = left v) ∨
    (∃ v, fetch s = .move (.next v) ∧ t = left v) := by
  cases hf : fetch s with
  | instr i u =>
    rw [step_of_instr hf, leaving_eq_next] at h
    obtain ⟨v, h1, h2⟩ := h
    exact .inl ⟨i, u, v, rfl, h1, h2⟩
  | move o =>
    rw [step_of_move hf, leaving_eq_next] at h
    obtain ⟨v, rfl, h2⟩ := h
    exact .inr ⟨v, rfl, h2⟩

theorem pickEp_shape (s : State) : ∃ d c, s.pickEp.2 = { s with epIdDraws := d, drawCount := c } := by
  unfold State.pickEp
  split
  · exact ⟨_, _, rfl⟩
  · exact ⟨_, _, rfl⟩
  · dsimp only
    split <;> exact ⟨_, _, rfl⟩

/-- A read of `ISTR` is an access that may use up a draw. -/
theorem readIstr_shape (s : State) : ∃ d c, (readIstr s).2 = { s.pause with epIdDraws := d, drawCount := c } :=
  pickEp_shape s.pause

/-- Bit 15 of the interrupt-status word is `ISTR.CTR`, whichever endpoint the read names. -/
theorem istrWord_ctr (s : State) (n : Nat) : (s.istrWord n).getLsbD 15 = s.istrCtr := by
  unfold State.istrWord
  cases hc : s.istrCtr
  · simp only [Bool.false_eq_true, if_false]
    split <;> simp
  · simp only [if_true]
    simp

/-- A read of `ISTR` shows CTR as it is at the access. -/
theorem readIstr_ctr (s : State) : (readIstr s).1.getLsbD 15 = s.pause.istrCtr := istrWord_ctr s.pause _

/-- With CTR = 0 a read of `ISTR` uses up no draw. -/
theorem readIstr_of_no_flag {s : State} (h : s.pause.istrCtr = false) : (readIstr s).2 = s.pause := by
  have e : s.pause.flaggedList = [] := by
    simp only [State.istrCtr, List.any_eq_false] at h
    simpa only [State.flaggedList, List.filter_eq_nil_iff] using h
  simp only [readIstr, State.pickEp, e]

/-- Where a fetched operation comes from: a command between invocations, or a point of the running invocation (R250, R253,
R202, R27, R108). -/
theorem fetch_eq_instr {s u : State} {i : Instr} (h : fetch s = .instr i u) :
    (∃ p split rest, s.seq = .idle ∧ s.program = .cmd p split :: rest ∧ s.app.isEmpty = true ∧ decodeCmd p = .ok i ∧
      u = { s with program := rest, appSplit := split }) ∨
    (s.seq = .run .resetTest ∧ i = .irqReset ∧ s.pause.istrReset = true ∧ u = { s.pause with seq := .run .ctrTest }) ∨
    (s.seq = .run .serve ∧ decodeCtr s.istrLatch = some i ∧ u = s) ∨
    (s.seq = .run .dispatch ∧ i = decodeSetup s.cfg.rqHidSetFeature s.setup ∧ u = s) ∨
    (∃ w rest, s.seq = .run .ext ∧ s.hq = w :: rest ∧ i = .writeIrq w.n w.data ∧ u = { s with hq := rest }) := by
  rcases seq_cases s with hs | ⟨p, hs⟩ | hs
  · rw [fetch_of_idle hs, fetchIdle] at h
    split at h
    · split at h
      · cases h
      · split at h <;> cases h
    · cases h
    · split at h <;> cases h
    · cases h
    · split at h
      · split at h
        · cases h; exact .inl ⟨_, _, _, hs, ‹_›, ‹_›, ‹_›, rfl⟩
        · cases h
      · cases h
  · rw [fetch_of_run hs] at h
    cases p with
    | resetTest =>
      simp only [fetchRun] at h
      split at h
      · cases h; exact .inr (.inl ⟨hs, rfl, ‹_›, rfl⟩)
      · cases h
    | ctrTest => simp only [fetchRun] at h; split at h <;> cases h
    | serve =>
      simp only [fetchRun] at h
      split at h
      · cases h; exact .inr (.inr (.inl ⟨hs, ‹_›, rfl⟩))
      · cases h
    | dispatch => cases h; exact .inr (.inr (.inr (.inl ⟨hs, rfl, rfl⟩)))
    | ext =>
      simp only [fetchRun] at h
      split at h
      · cases h
      · cases h; exact .inr (.inr (.inr (.inr ⟨_, _, hs, ‹_›, rfl, rfl⟩)))
    | timeout => cases h
    | leave => cases h
  · rw [fetch_of_wait hs, fetchWait] at h
    dsimp only at h
    split at h
    · cases h
    · split at h
      · cases h
      · split at h <;> cases h

/-- The steps that run no operation (R250, R116, R232, R233, R258). -/
theorem fetch_eq_move {s : State} {o : Out} (h : fetch s = .move o) :
    (s.seq = .idle ∧ (o = .next s ∨ o = .next (enterInterrupt s) ∨ (∃ sp p, o = resumeApp sp { s with program := p }) ∨
      (∃ m rest, o = .next ({ s with program := rest }.sieMove m)) ∨
      (∃ rest, o = .next { s with program := rest } ∨ o = .next (enterInterrupt { s with program := rest })) ∨
      (∃ e, o = .refused (refusalOf e)))) ∨
    (s.seq = .run .resetTest ∧ o = .next { s.pause with seq := .run .ctrTest }) ∨
    (s.seq = .run .ctrTest ∧ (o = .next { (readIstr s).2 with istrLatch := (readIstr s).1, seq := .run .serve } ∨
      o = .next (exitInterrupt (readIstr s).2))) ∨
    (s.seq = .run .serve ∧ o = .next (exitInterrupt s)) ∨
    (s.seq = .run .ext ∧ o = handlerReturn s.hword s) ∨
    (s.seq = .run .timeout ∧ o = timeoutTail s) ∨
    (s.seq = .run .leave ∧ o = .next (exitInterrupt s)) ∨
    (s.seq = .wait ∧ (o = .next s.pause ∧ s.pause.seq ≠ .wait ∨
      o = resumeTx { s.pause with seq := .run .dispatch } ∧ s.pause.istrCtr = true ∧ s.pause.seq = .wait ∨
      (∃ m rest, o = .next ({ countPoll s.pause with program := rest }.sieMove m) ∧ s.pause.seq = .wait) ∨
      o = .next (countPoll s.pause) ∧ s.pause.seq = .wait)) := by
  rcases seq_cases s with hs | ⟨p, hs⟩ | hs
  · rw [fetch_of_idle hs, fetchIdle] at h
    refine .inl ⟨hs, ?_⟩
    split at h
    · split at h
      · cases h; exact .inr (.inl rfl)
      · split at h
        · cases h; exact .inl rfl
        · cases h; exact .inr (.inr (.inl ⟨none, s.program, rfl⟩))
    · cases h; exact .inr (.inr (.inr (.inl ⟨_, _, rfl⟩)))
    · split at h
      · cases h; exact .inr (.inr (.inr (.inr (.inl ⟨_, .inl rfl⟩))))
      · cases h; exact .inr (.inr (.inr (.inr (.inl ⟨_, .inr rfl⟩))))
    · cases h; exact .inr (.inr (.inl ⟨_, _, rfl⟩))
    · split at h
      · split at h
        · cases h
        · cases h; exact .inr (.inr (.inr (.inr (.inr ⟨_, rfl⟩))))
      · cases h; exact .inr (.inr (.inl ⟨none, s.program, rfl⟩))
  · rw [fetch_of_run hs] at h
    cases p with
    | resetTest =>
      simp only [fetchRun] at h
      split at h
      · cases h
      · cases h; exact .inr (.inl ⟨hs, rfl⟩)
    | ctrTest =>
      simp only [fetchRun] at h
      split at h
      · cases h; exact .inr (.inr (.inl ⟨hs, .inl rfl⟩))
      · cases h; exact .inr (.inr (.inl ⟨hs, .inr rfl⟩))
    | serve =>
      simp only [fetchRun] at h
      split at h
      · cases h
      · cases h; exact .inr (.inr (.inr (.inl ⟨hs, rfl⟩)))
    | dispatch => cases h
    | ext =>
      simp only [fetchRun] at h
      split at h
      · cases h; exact .inr (.inr (.inr (.inr (.inl ⟨hs, rfl⟩))))
      · cases h
    | timeout => cases h; exact .inr (.inr (.inr (.inr (.inr (.inl ⟨hs, rfl⟩)))))
    | leave => cases h; exact .inr (.inr (.inr (.inr (.inr (.inr (.inl ⟨hs, rfl⟩))))))
  · rw [fetch_of_wait hs, fetchWait] at h
    refine .inr (.inr (.inr (.inr (.inr (.inr (.inr ⟨hs, ?_⟩))))))
    dsimp only at h
    split at h
    · cases h; exact .inl ⟨rfl, ‹_›⟩
    · rename_i hw
      rw [not_not] at hw
      split at h
      · cases h; exact .inr (.inl ⟨rfl, ‹_›, hw⟩)
      · split at h
        · cases h; exact .inr (.inr (.inl ⟨_, _, rfl, hw⟩))
        · cases h; exact .inr (.inr (.inr ⟨rfl, hw⟩))

end Sys2Proof.Machine
end

