-- ==== Sys2Proof/Laws/Quiet.lean ====
section
/-! SUPPORT. The pure effect of the engine's procedures when no move of the SIE falls between their accesses: the allocator,
the transmit procedure and its callers, the snapshot, the copy and the address (R161, R230, R201, R240, R254, R255). -/

namespace Sys2Proof.Machine

theorem TxReady.congr {s t : State} {n : Nat} (h : TxReady s n) (hc : t.cfg = s.cfg) (he : t.ep = s.ep) : TxReady t n := by
  have e := epAt_congr he n
  exact ⟨hc ▸ h.cfgOk, h.inTable, e ▸ h.allocated, e ▸ h.evenBase, e ▸ h.evenSize, by rw [e, hc]; exact h.room⟩

/-! ## The allocator -/

/-- What a successful ALLOCATE leaves (R161, R164, R165). -/
def allocated (n : BitVec 4) (ty : EpType) (tx rx : Half) (h : BitVec 1) (s : State) : State :=
  { s with
    pma := (((s.pma.write16 (btAddrTx n.toNat) s.bump).write16 (btCountTx n.toNat) 0x0000#16).write16
      (btAddrRx n.toNat) (s.bump + tx)).write16 (btCountRx n.toNat) (countRxWord rx.toNat)
    ep := s.ep.setIfInBounds n.toNat (allocEntry s.bump n.toNat ty tx rx h)
    bump := s.bump + tx + rx
    epr := eprAfter s n.toNat (allocWord (s.eprAt n.toNat) ty n) }

theorem allocApply_of_quiet {s : State} (hq : s.Quiet) (hc : s.cfg.wf) {n : BitVec 4} (hn : n.toNat < 8) (ty : EpType)
    (tx rx : Half) (h : BitVec 1) : allocApply n ty tx rx h s = .next (allocated n ty tx rx h s) := by
  have u : ∀ k (t : State), t.cfg = s.cfg → k % 2 = 0 → k ≤ 6 → t.unitOk (8 * n.toNat + k) = true :=
    fun k t e a b => unitOk_buffer_table (e ▸ hc) hn a b
  unfold allocApply
  rw [store16_of_quiet hq _ (by simpa [btAddrTx] using u 0 s rfl (by decide) (by decide)), andThen_next]
  rw [store16_of_quiet (by exact hq) _ (by exact u 2 _ rfl (by decide) (by decide)), andThen_next]
  rw [store16_of_quiet (by exact hq) _ (by exact u 4 _ rfl (by decide) (by decide)), andThen_next]
  rw [store16_of_quiet (by exact hq) _ (by exact u 6 _ rfl (by decide) (by decide)), andThen_next]
  dsimp only
  rw [readReg_of_quiet (by exact hq), writeReg_of_quiet (by exact hq)]
  rfl

/-! ## The transmit procedure -/

/-- A full chunk is staged and armed by ARM_MID, and the wait starts (R230, R231, R232). -/
theorem sendChunk_of_full {s : State} (h : s.Quiet) (hr : TxReady s 0) (hm : (s.epAt 0).txSize.toNat ≤ s.curRem.toNat)
    (hl : s.curOff.toNat + s.curRem.toNat ≤ s.txSrc.length) :
    sendChunk s = .next (servedChunk s ((s.txSrc.drop s.curOff.toNat).take (s.epAt 0).txSize.toNat)) := by
  unfold sendChunk
  simp only [Nat.min_eq_right hm]
  rw [writeIrqOp_ep0 h hr]
  simp only [andThen_next, Nat.lt_irrefl, and_false, if_false]
  unfold armMidAndWait
  rw [readReg_of_quiet (by exact h), writeReg_of_quiet (by exact h)]
  simp only [List.take_take, Nat.min_self, servedChunk, List.length_take, List.length_drop]
  rw [Nat.min_eq_left (by omega)]
  rfl

/-- A short last chunk is staged and armed by the final write (R230, R257). -/
theorem sendChunk_of_short {s : State} (h : s.Quiet) (hr : TxReady s 0) (hm : s.curRem.toNat < (s.epAt 0).txSize.toNat) :
    sendChunk s = .next { servedShort s ((s.txSrc.drop s.curOff.toNat).take s.curRem.toNat) with
      curOff := s.curOff + s.curRem, curRem := 0 } := by
  unfold sendChunk
  simp only [Nat.min_eq_left (Nat.le_of_lt hm)]
  rw [writeIrqOp_ep0 h hr]
  simp only [andThen_next, BitVec.ofNat_toNat, BitVec.setWidth_eq, BitVec.sub_self, hm]
  rw [if_pos ⟨rfl, trivial⟩]
  rw [returnTx_of_quiet (by exact h)]
  simp only [List.take_take, Nat.min_eq_right (Nat.le_of_lt hm), servedShort]
  rfl

/-- ACK() and the final write (R201). -/
theorem acknowledge_of_quiet {s : State} (h : s.Quiet) (hr : TxReady s 0) : acknowledge s = .next (acked s) := by
  unfold acknowledge
  rw [writeIrqOp_ep0 h hr]
  simp only [andThen_next]
  rw [returnTx_of_quiet (by exact h)]
  simp only [List.take_nil]
  rfl

/-- SERVE(bytes, L) (R201, R230). -/
theorem serve_of_quiet {s : State} (h : s.Quiet) (hr : TxReady s 0) (bs : List Byte) (len : Nat) (hl : len ≤ bs.length)
    (hw : len < 65536) : serve bs len s = .next (sentFirst s bs len) := by
  unfold serve tx0 sentFirst
  have e : State.epAt { s with phase := if 0 < len then .dataStageIn else .statusStage } 0 = s.epAt 0 := rfl
  simp only [e]
  split
  · rename_i hlt
    rw [writeIrqOp_ep0 (by exact h) (by exact hr.congr rfl rfl)]
    simp only [andThen_next, e, List.take_take, Nat.min_eq_right (Nat.le_of_lt hlt)]
    rw [returnTx_of_quiet (by exact h)]
    rfl
  · rename_i hlt
    have e2 : (BitVec.ofNat 16 len).toNat = len := by rw [BitVec.toNat_ofNat]; exact Nat.mod_eq_of_lt hw
    rw [sendChunk_of_full (by exact h) (by exact hr.congr rfl rfl)]
    · rfl
    · show (s.epAt 0).txSize.toNat ≤ (BitVec.ofNat 16 len).toNat
      rw [e2]; omega
    · show 0 + (BitVec.ofNat 16 len).toNat ≤ bs.length
      rw [e2]; omega

/-- Inside the blob the ROM is read as it is (R180, R192). -/
theorem romSource_of_le (r : Rom) (b : Blob) {len : Nat} (h : len ≤ (romBlob r b).length) : romSource r b len = romBlob r b := by
  rw [romSource, Nat.sub_eq_zero_of_le h, List.range_zero, List.map_nil, List.append_nil]

/-- Byte 0 of a blob that has one. -/
theorem romByte_zero (r : Rom) (b : Blob) (h : 0 < (romBlob r b).length) : romByte r b 0 = (romBlob r b).getD 0 0 := by
  unfold romByte
  cases e : romBlob r b with
  | nil => rw [e] at h; cases h
  | cons c t => rfl

/-- GET_DESCRIPTOR of a blob the ROM holds in full (R180, R183). -/
theorem serveDescriptor_of_quiet {s : State} (h : s.Quiet) (hr : TxReady s 0) (bm : Byte) (v l : Half) (b : Blob)
    (hb : lookup (descriptorType v) (descriptorIndex v) = some b)
    (hn : blobLen s.cfg.rom b ≤ (romBlob s.cfg.rom b).length) :
    serveDescriptor bm v l s =
      .next (sentFirst s (romBlob s.cfg.rom b) (min (blobLen s.cfg.rom b) l.toNat)) := by
  unfold serveDescriptor
  rw [hb]
  dsimp only
  have := Nat.min_le_left (blobLen s.cfg.rom b) l.toNat
  have := Nat.min_le_right (blobLen s.cfg.rom b) l.toNat
  have := l.isLt
  rw [romSource_of_le _ _ (by unfold responseLength; omega)]
  exact serve_of_quiet h hr _ _ (by unfold responseLength; omega) (by unfold responseLength; omega)

/-- A consistent ROM holds every blob in full (R190). -/
theorem blobLen_le_of_consistent {c : Config} (h : romConsistent c = true) (b : Blob) :
    blobLen c.rom b ≤ (romBlob c.rom b).length := by
  simp only [romConsistent, stringBlobOk, Bool.and_eq_true, beq_iff_eq, decide_eq_true_eq] at h
  cases b <;> simp only [blobLen]
  case str0 => rw [romByte_zero _ _ (by simp only [romBlob]; omega)]; simp only [romBlob]; omega
  case str1 => rw [romByte_zero _ _ (by simp only [romBlob]; omega)]; simp only [romBlob]; omega
  case str2 => rw [romByte_zero _ _ (by simp only [romBlob]; omega)]; simp only [romBlob]; omega
  case str3 => rw [romByte_zero _ _ (by simp only [romBlob]; omega)]; simp only [romBlob]; omega
  all_goals simp only [romBlob]; omega

/-! ## The dispatcher -/

theorem afterSnapshot_epAt {s : State} {n : BitVec 4} (hn : n.toNat < 8) (m : Nat) :
    (afterSnapshot s n).epAt m =
      if n.toNat = m then snapped (s.epAt n.toNat) (s.eprAt n.toNat) (s.pma.read16 (8 * n.toNat + 6)) else s.epAt m :=
  epAt_setEp s _ m _ hn

theorem snapshot_of_quiet {s : State} (h : s.Quiet) (hc : s.cfg.wf) {n : BitVec 4} (hn : n.toNat < 8)
    (k : State → Out) : snapshot n.toNat { s with served := n } k = k (afterSnapshot s n) := by
  unfold snapshot
  rw [readReg_of_quiet (by exact h)]
  dsimp only
  rw [btCountRx, load16_of_quiet (by exact h) (by exact unitOk_buffer_table hc hn (by decide) (by decide))]
  congr 1
  unfold afterSnapshot
  simp only [State.setEp, State.epAt, snapped, latchFlags, receivedCount, ctrRx, ctrTx, setupBit]
  simp [hn]
  rfl

theorem afterEvent_fields (s : State) (n : BitVec 4) (out : Bool) :
    (afterEvent s n out).served = n ∧ (afterEvent s n out).race = s.race ∧ (afterEvent s n out).cfg = s.cfg ∧
    (afterEvent s n out).ep = (afterSnapshot s n).ep := by
  unfold afterEvent
  split
  · split
    · exact ⟨rfl, rfl, rfl, rfl⟩
    · split <;> exact ⟨rfl, rfl, rfl, rfl⟩
  · exact ⟨rfl, rfl, rfl, rfl⟩

theorem afterEvent_epAt (s : State) (n : BitVec 4) (out : Bool) (hn : n.toNat < 8) :
    (afterEvent s n out).epAt n.toNat =
      snapped (s.epAt n.toNat) (s.eprAt n.toNat) (s.pma.read16 (8 * n.toNat + 6)) := by
  rw [epAt_congr (afterEvent_fields s n out).2.2.2, afterSnapshot_epAt hn, if_pos rfl]

/-- COPY_EP0(0, 1) (R255). -/
theorem copyEp0_of_quiet {a : State} (h : a.Quiet)
    (hs : (a.epAt 0).setupFlag = true → RxReady a 0 8)
    (hx : (a.epAt 0).setupFlag = false → (a.epAt 0).rxFlag = true →
      RxReady a 0 (min (a.epAt 0).rxCount.toNat a.cfg.scratchCap)) (k : State → Out) :
    copyEp0 0 true a k = k (
      if (a.epAt 0).setupFlag then
        { a with setup := setupWord (a.pma.readBytes (a.epAt 0).rxBase.toNat 8), scratchLen := 0 }
      else if (a.epAt 0).rxFlag then
        { a with
          scratch := a.pma.readBytes (a.epAt 0).rxBase.toNat (min (a.epAt 0).rxCount.toNat a.cfg.scratchCap) ++
            a.scratch.drop (min (a.epAt 0).rxCount.toNat a.cfg.scratchCap)
          scratchLen := BitVec.ofNat 16 (min (a.epAt 0).rxCount.toNat a.cfg.scratchCap) }
      else a) := by
  unfold copyEp0
  dsimp only
  rw [if_pos (by decide)]
  cases h1 : (a.epAt 0).setupFlag with
  | true => simp only [↓reduceIte]; rw [loadBytes_of_quiet h (hs h1).evenBase (hs h1).room]
  | false =>
    simp only [Bool.false_eq_true, ↓reduceIte]
    cases h2 : (a.epAt 0).rxFlag with
    | true => simp only [↓reduceIte]; rw [loadBytes_of_quiet h (hx h1 h2).evenBase (hx h1 h2).room]
    | false => simp only [Bool.false_eq_true, ↓reduceIte]

/-- SNAPSHOT(n) and COPY_EP0(n, d), then the handler (R253 to R256). -/
theorem ctrBranch_of_quiet {s : State} (h : s.Quiet) (hc : s.cfg.wf) {n : BitVec 4} (hn : n.toNat < 8) (out : Bool)
    (hr : CopyReady s n out) : ctrBranch n out s = callHandler (afterEvent s n out) := by
  rw [ctrBranch, if_pos hn, snapshot_of_quiet h hc hn]
  by_cases hz : out = true ∧ n = 0
  · obtain ⟨rfl, rfl⟩ := hz
    have e0 : (afterSnapshot s 0).epAt 0 = snapped (s.epAt 0) (s.eprAt 0) (s.pma.read16 6) :=
      afterSnapshot_epAt (s := s) (n := 0) (by decide) 0
    obtain ⟨r1, r2⟩ := hr rfl rfl
    have c1 : (afterSnapshot s 0).cfg = s.cfg := rfl
    show copyEp0 0 true (afterSnapshot s 0) callHandler = _
    rw [copyEp0_of_quiet (by exact h)]
    · have e : afterEvent s 0 true = _ := if_pos (⟨rfl, rfl⟩ : true = true ∧ (0 : BitVec 4) = 0)
      rw [e, e0]
      refine congrArg callHandler ?_
      show (if setupBit (s.eprAt 0) then _ else if ctrRx (s.eprAt 0) then _ else _) = _
      rfl
    · rw [e0]
      intro hs
      exact ⟨by rw [e0]; exact (r1 hs).evenBase, by rw [e0]; exact (r1 hs).room⟩
    · rw [e0]
      intro hs hx
      exact ⟨by rw [e0]; exact (r2 hs hx).evenBase, by rw [e0]; exact (r2 hs hx).room⟩
  · have hd : (out && n.toNat == 0) = false := by
      cases out
      · rfl
      · simp only [true_and] at hz
        simp only [Bool.true_and, beq_eq_false_iff_ne]
        intro e; exact hz (BitVec.eq_of_toNat_eq e)
    unfold copyEp0 afterEvent
    dsimp only
    rw [hd, if_neg hz, if_neg (by decide)]

/-- The two toggle-clear transforms leave the word as it is, so the completion word arms both directions (R142, R143,
R241). -/
theorem retCpl_eq (r : Half) : retCpl r = setValidTx (setValidRx r) := by
  have e : r &&& 0xFFFF#16 = r := BitVec.and_allOnes
  simp [retCpl, clearDtogTx, clearDtogRx, transform, e]

/-- ADDRESS_APPLY() in both modes (R240). -/
theorem addressApply_of_quiet {s : State} (h : s.Quiet) : addressApply s = afterAddress s := by
  unfold addressApply afterAddress
  cases s.cfg.addrApplyMode
  · simp only [pause_of_quiet h, ite_not, setAddressNow]
  · simp only [pause_of_quiet h, setAddressNow]

theorem afterAddress_fields (s : State) :
    (afterAddress s).served = s.served ∧ (afterAddress s).race = s.race ∧ (afterAddress s).epr = s.epr ∧
    (afterAddress s).ep = s.ep ∧ (afterAddress s).pma = s.pma := by
  unfold afterAddress
  dsimp only
  split
  · split <;> exact ⟨rfl, rfl, rfl, rfl, rfl⟩
  · split <;> exact ⟨rfl, rfl, rfl, rfl, rfl⟩

end Sys2Proof.Machine
end

