-- ==== Sys2Proof/Tests/Slice0.lean ====
section
/-! SUPPORT. The model's own tests: ill-formed terms, words written out from the encoding tables, one-step runs whose expected
values are those of spec/95_test_vectors.md (V and P numbers below), and for every obligation with hypotheses a state and
operands that meet them. -/

namespace Sys2Proof.Tests

open Sys2Proof Sys2Proof.Machine

set_option Elab.async false

/-! ## WellFormed refuses an ill-formed term for each of its checks (R105, R108, R111) -/

theorem test_illformed_setup :
    (Instr.getDescUnknown 0x0100#16 0 0).wellFormed 0x09#8 = false ∧
    (Instr.stdDevGetUnknown 0x06#8 0 0 0).wellFormed 0x09#8 = false ∧
    (Instr.stdDevGetUnknown 0x00#8 0 0 0).wellFormed 0x09#8 = false ∧
    (Instr.stdDevGetUnknown 0x08#8 0 0 0).wellFormed 0x09#8 = false ∧
    (Instr.stdDevSetUnknown 0x05#8 0 0 0).wellFormed 0x09#8 = false ∧
    (Instr.stdDevSetUnknown 0x09#8 0 0 0).wellFormed 0x09#8 = false ∧
    (Instr.hidSetFeature 0 0 0).wellFormed 0x0A#8 = false := by decide

theorem test_illformed_fallback :
    (Instr.fallback 0x80#8 0x77#8 0 0 0).wellFormed 0x09#8 = false ∧
    (Instr.fallback 0x00#8 0x77#8 0 0 0).wellFormed 0x09#8 = false ∧
    (Instr.fallback 0x81#8 0x06#8 0x2200#16 0 0).wellFormed 0x09#8 = false ∧
    (Instr.fallback 0x82#8 0x01#8 0 0 0).wellFormed 0x09#8 = false ∧
    (Instr.fallback 0x21#8 0x0A#8 0 0 0).wellFormed 0x09#8 = false ∧
    (Instr.fallback 0x21#8 0x09#8 0 0 0).wellFormed 0x09#8 = false := by decide

theorem test_illformed_irq :
    (Instr.irqCtrOut 8#4).wellFormed 0x09#8 = false ∧ (Instr.irqCtrIn 15#4).wellFormed 0x09#8 = false := by decide

theorem test_illformed_cmd :
    (Instr.write 0#4 (List.replicate 65536 0)).wellFormed 0x09#8 = false ∧
    (Instr.writeIrq 0#4 (List.replicate 65536 0)).wellFormed 0x09#8 = false := by
  simp only [Instr.wellFormed, List.length_replicate]
  decide

/-! ## Decoding: words written out from R101, R105, R106, R108 (the bytes are those of V50 to V69, P1 to P5) -/

theorem test_decode_get_group :
    decodeTableWord 64 0x0002000000000080 = some (.getStatus 0x0000#16 0x0000#16 0x0002#16) ∧
    decodeTableWord 64 0x0040000001000680 = some (.getDescDevice 0x0000#16 0x0040#16) ∧
    decodeTableWord 64 0x00FF000002000680 = some (.getDescConfig 0x0000#16 0x00FF#16) ∧
    decodeTableWord 64 0x00FF000003000680 = some (.getDescString0 0x0000#16 0x00FF#16) ∧
    decodeTableWord 64 0x00FF040903010680 = some (.getDescString1 0x0409#16 0x00FF#16) ∧
    decodeTableWord 64 0x00FF040903020680 = some (.getDescString2 0x0409#16 0x00FF#16) ∧
    decodeTableWord 64 0x00FF040903030680 = some (.getDescString3 0x0409#16 0x00FF#16) ∧
    decodeTableWord 64 0x000A000006000680 = some (.getDescQualifier 0x0000#16 0x000A#16) ∧
    decodeTableWord 64 0x00FF040903040680 = some (.getDescUnknown 0x0304#16 0x0409#16 0x00FF#16) ∧
    decodeTableWord 64 0x0001000000000880 = some (.getConfiguration 0x0000#16 0x0000#16 0x0001#16) ∧
    decodeTableWord 64 0x0001000000000A80 = some (.stdDevGetUnknown 0x0A#8 0x0000#16 0x0000#16 0x0001#16) := by decide

theorem test_decode_set_group :
    decodeTableWord 64 0x0000000000050500 = some (.setAddress 0x0005#16 0x0000#16 0x0000#16) ∧
    decodeTableWord 64 0x0000000000010900 = some (.setConfiguration 0x0001#16 0x0000#16 0x0000#16) ∧
    decodeTableWord 64 0x0000000000010300 = some (.stdDevSetUnknown 0x03#8 0x0001#16 0x0000#16 0x0000#16) := by decide

theorem test_decode_other_recipients :
    decodeTableWord 64 0x0082000022000681 = some (.getDescHidReport 0x0000#16 0x0082#16) ∧
    decodeTableWord 64 0x0000008100000102 = some (.clearFeatureEp 0#1 0x0000#16 0x0081#16 0x0000#16) ∧
    decodeTableWord 64 0x0000008100000182 = some (.clearFeatureEp 1#1 0x0000#16 0x0081#16 0x0000#16) ∧
    decodeTableWord 64 0x0000000000000A21 = some (.setIdle 0x0000#16 0x0000#16 0x0000#16) ∧
    decodeTableWord 64 0x0004000003000921 = some (.hidSetFeature 0x0300#16 0x0000#16 0x0004#16) ∧
    decodeTableWord 64 0x00040000000001C0 = some (.fallback 0xC0#8 0x01#8 0x0000#16 0x0000#16 0x0004#16) ∧
    decodeTableWord 64 0x00080000010001A1 = some (.fallback 0xA1#8 0x01#8 0x0100#16 0x0000#16 0x0008#16) := by decide

/-- The reset row comes first in a word that has both conditions; a word with neither selects nothing (R106, R251). -/
theorem test_decode_irq :
    decodeTableWord 16 0x0400 = some .irqReset ∧ decodeTableWord 16 0x8412 = some .irqReset ∧
    decodeTableWord 16 0x8010 = some (.irqCtrOut 0#4) ∧ decodeTableWord 16 0x8012 = some (.irqCtrOut 2#4) ∧
    decodeTableWord 16 0x8001 = some (.irqCtrIn 1#4) ∧ decodeTableWord 16 0x0012 = none := by decide

theorem test_decode_cmd :
    decodeTableWord 8 0x00 = some .getState ∧
    decode 0x09#8 (.cmd ⟨0x01#8, 1#4, 3#2, 8#16, 0#16, 1#1, []⟩) = .ok (.allocate 1#4 .interrupt 8#16 0#16 1#1) ∧
    decode 0x09#8 (.cmd ⟨0x02#8, 1#4, 0#2, 0#16, 0#16, 0#1, [0xAA#8, 0xBB#8]⟩) = .ok (.write 1#4 [0xAA#8, 0xBB#8]) ∧
    decode 0x09#8 (.cmd ⟨0x03#8, 1#4, 0#2, 0#16, 0#16, 0#1, [0x5A#8]⟩) = .ok (.writeIrq 1#4 [0x5A#8]) ∧
    decode 0x09#8 (.cmd ⟨0x04#8, 2#4, 0#2, 0#16, 0#16, 0#1, []⟩) = .ok (.read 2#4) ∧
    decodeTableWord 8 0x05 = none ∧ decodeTableWord 8 0x0A = none ∧ decodeTableWord 8 0x80 = none := by decide

/-! ## The register algebra (V20, V23, V24) -/

theorem test_write_rule :
    writeRule 0xAA20#16 0x0A10#16 = 0x2A30#16 ∧ writeRule 0xFFFF#16 0x0000#16 = 0x7870#16 ∧
    writeRule 0xFFFF#16 0xFFFF#16 = 0x8F8F#16 ∧ writeRule 0x3621#16 0x9691#16 = 0x2631#16 := by decide

theorem test_return_words :
    retTx 0xEA60#16 = 0xCA50#16 ∧ writeRule 0xEA60#16 (normalize 0xCA50#16) = 0x6A70#16 ∧
    retRxd 0xAA20#16 = 0x9A00#16 ∧ writeRule 0xAA20#16 (normalize 0x9A00#16) = 0x3A20#16 ∧
    retCpl 0x6AE0#16 = 0x5AD0#16 ∧ writeRule 0x6AE0#16 (normalize 0x5AD0#16) = 0x7A70#16 ∧
    retKeep 0xE270#16 = 0xC240#16 ∧ writeRule 0xE270#16 (normalize 0xC240#16) = 0x6270#16 := by decide

theorem test_alloc_word :
    allocWord 0x7A70#16 .interrupt 1#4 = 0x4651#16 ∧ writeRule 0x7A70#16 0x4651#16 = 0x3E21#16 ∧
    allocWord 0xEA60#16 .isochronous 7#4 = 0x5447#16 ∧ writeRule 0xEA60#16 0x5447#16 = 0x3C27#16 := by decide

/-! ## States of spec/95_test_vectors.md section 2 -/

/-- `ep[0]` of S_RST. -/
def rstEp0 : Endpoint :=
  { Endpoint.zero with allocated := true, type := .control, txBase := 64#16, txSize := 64#16, rxBase := 128#16
                       rxSize := 64#16 }

/-- S_RST. -/
def sRst : State :=
  { State.reset with
    ep := State.reset.ep.setIfInBounds 0 rstEp0
    bump := 192#16
    epr := State.reset.epr.setIfInBounds 0 0x3220#16
    daddr := 0x80#8
    pma := [(0, 0x40#8), (4, 0x80#8), (7, 0x84#8)] }

/-- `EPR[n]` forced. -/
def forced (s : State) (n : Nat) (v : Half) : State := { s with epr := s.epr.setIfInBounds n v }

/-- At the Dispatch point with the Setup Packet w, the register and the snapshot both v. -/
def atDispatch (w : BitVec 64) (v : Half) : State :=
  { forced sRst 0 v with
    ep := sRst.ep.setIfInBounds 0 { rstEp0 with rxFlag := true, setupFlag := true, rxCount := 8#10, status := v }
    setup := w, phase := .dispatch, seq := .run .dispatch, irqMasked := true }

/-- At the transaction-complete branch with the interrupt-status word i. -/
def atServe (s : State) (i : Half) : State := { s with istrLatch := i, seq := .run .serve, irqMasked := true }

/-- S_RST with endpoint 1 as `ALLOCATE 1, INTERRUPT, 8, 0, 1` leaves it (V35) and endpoint 2 as
`ALLOCATE 2, BULK, 64, 64, 1` leaves it (V41). -/
def sApp : State :=
  { forced (forced sRst 1 0x3621#16) 2 0x3022#16 with
    ep := (sRst.ep.setIfInBounds 1
        { Endpoint.zero with allocated := true, type := .interrupt, txBase := 192#16, txSize := 8#16, rxBase := 200#16
                             handler := .ext 1 }).setIfInBounds 2
      { Endpoint.zero with allocated := true, txBase := 200#16, txSize := 64#16, rxBase := 264#16, rxSize := 64#16
                           handler := .ext 2 }
    bump := 328#16 }

/-- A field of the next state. -/
def after {α : Type} (f : State → α) (o : Out) : Option α :=
  match o with
  | .next t => some (f t)
  | .fault _ => none
  | .refused _ => none

/-- What the tests of operations of format SETUP look at: COUNT_TX, the first c staged bytes, EPR[0] and the phase. -/
def staged (c : Nat) (t : State) : Half × List Byte × Half × Phase :=
  (t.pma.read16 2, t.pma.readBytes 64 c, t.eprAt 0, t.phase)

/-! ## Requests, one step from the Dispatch point -/

/-- V81 with wLength 0: two bytes are staged all the same. -/
theorem test_getStatus : after (staged 2) (step (atDispatch 0x0000000000000080#64 0xAA20#16)) =
    some (0x0002#16, [0x00#8, 0x00#8], 0x2A30#16, .dataStageIn) := by
  decide +kernel

/-- V50. -/
theorem test_getDescDevice : after (staged 18) (step (atDispatch 0x0040000001000680#64 0xAA20#16)) =
    some (0x0012#16, [0x12#8, 0x01#8, 0x00#8, 0x02#8, 0x00#8, 0x00#8, 0x00#8, 0x40#8, 0x34#8, 0x12#8, 0x78#8, 0x56#8,
      0x00#8, 0x01#8, 0x01#8, 0x02#8, 0x03#8, 0x01#8], 0x2A30#16, .dataStageIn) := by
  decide +kernel

/-- V53: wLength 0 gives a zero-length packet. -/
theorem test_getDescDevice_empty : after (staged 0) (step (atDispatch 0x0000000001000680#64 0xAA20#16)) =
    some (0x0000#16, [], 0x2A30#16, .statusStage) := by decide +kernel

/-- V55: nine bytes, the tenth is the pad of the last unit. -/
theorem test_getDescConfig : after (staged 11) (step (atDispatch 0x0009000002000680#64 0xAA20#16)) =
    some (0x0009#16, [0x09#8, 0x02#8, 0x22#8, 0x00#8, 0x01#8, 0x01#8, 0x00#8, 0x80#8, 0x32#8, 0x00#8, 0x00#8],
      0x2A30#16, .dataStageIn) := by
  decide +kernel

/-- V54: the whole table is 34 bytes. -/
theorem test_getDescConfig_whole : after (fun t => (t.pma.read16 2, t.pma.readBytes 86 12))
    (step (atDispatch 0x00FF000002000680#64 0xAA20#16)) =
    some (0x0022#16, [0x00#8, 0x01#8, 0x22#8, 0x82#8, 0x00#8, 0x07#8, 0x05#8, 0x81#8, 0x03#8, 0x08#8, 0x00#8, 0x01#8]) := by
  decide +kernel

/-- V56. -/
theorem test_getDescString0 : after (staged 4) (step (atDispatch 0x00FF000003000680#64 0xAA20#16)) =
    some (0x0004#16, [0x04#8, 0x03#8, 0x09#8, 0x04#8], 0x2A30#16, .dataStageIn) := by
  decide +kernel

/-- R207 with the test ROM. -/
theorem test_getDescString1 : after (staged 6) (step (atDispatch 0x00FF040903010680#64 0xAA20#16)) =
    some (0x0006#16, [0x06#8, 0x03#8, 0x41#8, 0x00#8, 0x42#8, 0x00#8], 0x2A30#16, .dataStageIn) := by
  decide +kernel

/-- V57. -/
theorem test_getDescString2 : after (staged 8) (step (atDispatch 0x00FF040903020680#64 0xAA20#16)) =
    some (0x0008#16, [0x08#8, 0x03#8, 0x4B#8, 0x00#8, 0x42#8, 0x00#8, 0x44#8, 0x00#8], 0x2A30#16, .dataStageIn) := by
  decide +kernel

/-- R209 with the test ROM. -/
theorem test_getDescString3 : after (staged 8) (step (atDispatch 0x00FF040903030680#64 0xAA20#16)) =
    some (0x0008#16, [0x08#8, 0x03#8, 0x30#8, 0x00#8, 0x30#8, 0x00#8, 0x31#8, 0x00#8], 0x2A30#16, .dataStageIn) := by
  decide +kernel

/-- V59. -/
theorem test_getDescQualifier : after (staged 10) (step (atDispatch 0x000A000006000680#64 0xAA20#16)) =
    some (0x000A#16, [0x0A#8, 0x06#8, 0x00#8, 0x02#8, 0x00#8, 0x00#8, 0x00#8, 0x40#8, 0x01#8, 0x00#8], 0x2A30#16,
      .dataStageIn) := by decide +kernel

/-- V58. -/
theorem test_getDescUnknown : after (fun t => (staged 0 t, t.diagLog))
    (step (atDispatch 0x00FF040903040680#64 0xAA20#16)) =
    some ((0x0000#16, [], 0x2A30#16, .statusStage), [.unrecognized 0x80#8 0x06#8 0x0304#16]) := by decide +kernel

/-- P5 line 5: the recorded value, the toggle DTOG_TX kept. -/
theorem test_getConfiguration : after (staged 2)
    (step { atDispatch 0x0001000000000880#64 0xAA60#16 with dev := ⟨.configured, 0, 0x01#8⟩ }) =
    some (0x0001#16, [0x01#8, 0x00#8], 0x2A70#16, .dataStageIn) := by decide +kernel

/-- V63. -/
theorem test_stdDevGetUnknown : after (fun t => (staged 0 t, t.diagLog))
    (step (atDispatch 0x0001000000000A80#64 0xAA20#16)) =
    some ((0x0000#16, [], 0x2A30#16, .statusStage), [.unrecognized 0x80#8 0x0A#8 0x0000#16]) := by decide +kernel

/-- V77: stashed, not applied. -/
theorem test_setAddress : after (fun t => (staged 0 t, t.dev, t.addrLatch, t.daddr))
    (step (atDispatch 0x0000000000050500#64 0xAA20#16)) =
    some ((0x0000#16, [], 0x2A30#16, .statusStage), ⟨.defaultState, 5#7, 0x00#8⟩, true, 0x80#8) := by decide +kernel

/-- R213: wValue[15:7] is dropped. -/
theorem test_setAddress_high_bits : after (fun t => t.dev.pendingAddr)
    (step (atDispatch 0x0000000001850500#64 0xAA20#16)) = some 5#7 := by decide +kernel

/-- P5 line 2. -/
theorem test_setConfiguration : after (fun t => (staged 0 t, t.dev))
    (step (atDispatch 0x0000000000010900#64 0xAA20#16)) =
    some ((0x0000#16, [], 0x2A30#16, .statusStage), ⟨.configured, 0#7, 0x01#8⟩) := by decide +kernel

/-- V64. -/
theorem test_stdDevSetUnknown : after (fun t => (staged 0 t, t.diagLog))
    (step (atDispatch 0x0000000000010300#64 0xAA20#16)) =
    some ((0x0000#16, [], 0x2A30#16, .statusStage), [.unrecognized 0x00#8 0x03#8 0x0001#16]) := by decide +kernel

/-- V69. -/
theorem test_getDescHidReport : after (staged 10) (step (atDispatch 0x000A000022000681#64 0xAA20#16)) =
    some (0x000A#16, [0x00#8, 0x01#8, 0x02#8, 0x03#8, 0x04#8, 0x05#8, 0x06#8, 0x07#8, 0x08#8, 0x09#8], 0x2A30#16,
      .dataStageIn) := by decide +kernel

/-- V70, the first chunk: 64 bytes staged, armed, and the bounded wait entered. -/
theorem test_getDescHidReport_wait :
    after (fun t => (t.pma.read16 2, t.pma.readBytes 124 4, t.eprAt 0, t.seq, t.curOff, t.curRem))
    (step (atDispatch 0x0082000022000681#64 0xAA20#16)) =
    some (0x0040#16, [0x3C#8, 0x3D#8, 0x3E#8, 0x3F#8], 0x2A30#16, .wait, 64#16, 66#16) := by decide +kernel

/-- V65. -/
theorem test_clearFeatureEp : after (fun t => (staged 0 t, t.diagLog, t.eprAt 1))
    (step (atDispatch 0x0000008100000102#64 0xAA20#16)) =
    some ((0x0000#16, [], 0x2A30#16, .statusStage), [], 0x0000#16) := by decide +kernel

/-- V66. -/
theorem test_setIdle : after (fun t => (staged 0 t, t.diagLog)) (step (atDispatch 0x0000000000000A21#64 0xAA20#16)) =
    some ((0x0000#16, [], 0x2A30#16, .statusStage), []) := by decide +kernel

/-- V68: COUNT_TX keeps its old value, receive VALID, transmit NAK. -/
theorem test_hidSetFeature : after (staged 0)
    (step { atDispatch 0x0004000003000921#64 0xAA20#16 with pma := sRst.pma.write16 2 0x0012#16 }) =
    some (0x0012#16, [], 0x3A20#16, .dataStageOut) := by decide +kernel

/-- V67, the vendor request. -/
theorem test_fallback : after (fun t => (staged 0 t, t.diagLog)) (step (atDispatch 0x00040000000001C0#64 0xAA20#16)) =
    some ((0x0000#16, [], 0x2A30#16, .statusStage), [.unrecognized 0xC0#8 0x01#8 0x0000#16]) := by decide +kernel

/-! ## The dispatcher, one step each -/

/-- V90: the reset branch from POR. -/
theorem test_irqReset : after (fun t => (t.eprAt 0, t.bump, t.daddr, t.epAt 0, t.istrReset))
      (step { State.reset with istrReset := true, seq := .run .resetTest, irqMasked := true }) =
      some (0x3220#16, 192#16, 0x80#8, rstEp0, false) ∧
    after (fun t => (t.pma.read16 0, t.pma.read16 2, t.pma.read16 4, t.pma.read16 6))
      (step { State.reset with istrReset := true, seq := .run .resetTest, irqMasked := true }) =
      some (0x0040#16, 0x0000#16, 0x0080#16, 0x8400#16) := by decide +kernel

/-- V97: the forced register of a SETUP that a reset drops. -/
theorem test_irqReset_forced : after (fun t => (t.eprAt 0, t.dev, t.txErr))
    (step { forced sRst 0 0xAA20#16 with
            dev := ⟨.configured, 5, 1⟩, txErr := true, istrReset := true, seq := .run .resetTest, irqMasked := true }) =
    some (0x3A20#16, ⟨.defaultState, 0, 0⟩, false) := by decide +kernel

/-- After `SIE.SETUP 80 06 00 01 00 00 40 00` in S_RST (V92). -/
def setupArrived : State := sRst.sieMove (.setup 0x0040000001000680#64 false false)

/-- V92: the reception of the SIE, then the latch. -/
theorem test_irqCtrOut_setup : (setupArrived.eprAt 0, setupArrived.pma.read16 6) = (0xAA20#16, 0x8408#16) ∧
    after (fun t => (t.setup, t.scratchLen, t.phase, (t.epAt 0).rxCount, (t.epAt 0).status))
      (step (atServe setupArrived 0x8010#16)) =
    some (0x0040000001000680#64, 0#16, .dispatch, 8#10, 0xAA20#16) := by decide +kernel

/-- V93: a plain OUT goes to the scratch buffer and completes. -/
theorem test_irqCtrOut_data : after (fun t => (t.scratch.take 4, t.scratchLen, t.eprAt 0, t.phase))
    (step (atServe ((forced sRst 0 0x3A20#16).sieMove (.out 0#4 [0xDE#8, 0xAD#8, 0xBE#8, 0xEF#8])) 0x8010#16)) =
    some ([0xDE#8, 0xAD#8, 0xBE#8, 0xEF#8], 4#16, 0x7230#16, .waitSetup) := by decide +kernel

/-- P2 line 5: the stashed address is applied at the completion, COMPARE mode. -/
theorem test_irqCtrIn_address : after (fun t => (t.daddr, t.dev.status, t.addrLatch, t.eprAt 0, t.phase))
    (step (atServe { forced sRst 0 0x2AE0#16 with dev := ⟨.defaultState, 5, 0⟩, addrLatch := true } 0x8000#16)) =
    some (0x85#8, .addressed, true, 0x3A70#16, .waitSetup) := by decide +kernel

/-- V78, LATCHED mode: the address 0 is applied and the latch cleared. -/
theorem test_irqCtrIn_latched : after (fun t => (t.daddr, t.dev.status, t.addrLatch))
    (step (atServe { forced sRst 0 0x2AE0#16 with
                     cfg := { testConfig with addrApplyMode := .latched }, addrLatch := true } 0x8000#16)) =
    some (0x80#8, .addressed, false) := by decide +kernel

/-- V94 and V95: the keep-all handler on endpoints 1 and 2; V96: an endpoint never allocated. -/
theorem test_other_endpoints :
    after (fun t => (t.eprAt 1, (t.epAt 1).txFlag)) (step (atServe (forced sApp 1 0x26E1#16) 0x8001#16)) =
      some (0x2661#16, true) ∧
    after (fun t => (t.eprAt 2, (t.epAt 2).rxFlag)) (step (atServe (forced sApp 2 0xE022#16) 0x8012#16)) =
      some (0x6022#16, true) ∧
    after (fun t => t.eprAt 3) (step (atServe (forced sApp 3 0x8003#16) 0x8013#16)) = some 0x0003#16 := by decide +kernel

/-- V75: the timeout at the first chunk. -/
theorem test_timeout : after (fun t => (t.diagLog, t.txErr, t.eprAt 0, t.seq, t.irqMasked))
    (step { forced (atDispatch 0x0082000022000681#64 0xAA20#16) 0 0x2A30#16 with
            seq := .run .timeout, curOff := 64#16, curRem := 66#16 }) =
    some ([.txTimeout 64#16 66#16], true, 0x2A20#16, .idle, false) := by decide +kernel

/-- H1 (R365 a): a SETUP between the read of `ISTR` and the snapshot enters Dispatch with the old Setup Packet. -/
theorem test_hazard_stale_setup : after (fun t => (t.setup, (t.epAt 0).status, t.seq, t.race))
    (step { atServe (forced sRst 0 0x2AE0#16) 0x8000#16 with
            setup := 0x0040000001000680#64, race := [[.setup 0x0000000000050500#64 false false]] }) =
    some (0x0040000001000680#64, 0xAAA0#16, .run .dispatch, []) := by decide +kernel

/-- V90's first move and P1 line 5: `SIE.RESET` clears every register, `SIE.IN` puts COUNT_TX bytes on the wire. -/
theorem test_sie_moves :
    ((sApp.sieMove .reset).eprAt 1, (sApp.sieMove .reset).istrReset) = (0x0000#16, true) ∧
    (let s := ({ forced sRst 0 0x2A30#16 with pma := (sRst.pma.write16 2 0x0002#16).write16 64 0x0112#16 }).sieMove (.inTok 0#4)
     (s.wireIn, s.eprAt 0)) = ([(0#4, [0x12#8, 0x01#8])], 0x2AE0#16) := by decide +kernel

/-! ## The command port -/

/-- V108. -/
theorem test_getState : after (fun t => t.result) (exec .getState sRst) = some (.state 0#2) ∧
    after (fun t => t.result) (exec .getState { sRst with dev := ⟨.configured, 5, 1⟩ }) = some (.state 2#2) := by decide +kernel

/-- V35. -/
theorem test_allocate : after (fun t => (t.result, t.bump, t.eprAt 1, (t.pma.read16 8, t.pma.read16 12), t.epAt 1))
    (exec (.allocate 1#4 .interrupt 8#16 0#16 1#1) sRst) =
    some (.alloc 0#3, 200#16, 0x3621#16, (192#16, 200#16), sApp.epAt 1) := by decide +kernel

/-- V44, V49, V33, V42: granularity after exhaustion, the index first, oversize before granularity. -/
theorem test_allocate_errors :
    after (fun t => t.result) (exec (.allocate 3#4 .bulk 96#16 88#16 1#1) sApp) = some (.alloc 3#3) ∧
    after (fun t => t.result) (exec (.allocate 9#4 .bulk 2000#16 7#16 1#1) sApp) = some (.alloc 4#3) ∧
    after (fun t => t.result) (exec (.allocate 1#4 .bulk 0#16 993#16 1#1) sRst) = some (.alloc 1#3) ∧
    after (fun t => t.result) (exec (.allocate 3#4 .bulk 128#16 96#16 1#1) sApp) = some (.alloc 2#3) := by decide +kernel

/-- V100. -/
theorem test_write : after (fun t => (t.pma.readBytes 192 4, t.pma.read16 10, t.eprAt 1))
    (exec (.write 1#4 [0xAA#8, 0xBB#8, 0xCC#8]) sApp) =
    some ([0xAA#8, 0xBB#8, 0xCC#8, 0x00#8], 0x0003#16, 0x2631#16) := by decide +kernel

/-- H3 (R370): an `SIE.IN` between the read and the write of WRITE; the second packet is staged and not armed. -/
theorem test_hazard_split_write : after (fun t => (t.eprAt 1, t.wireIn))
    (exec (.write 1#4 []) { forced sApp 1 0x2631#16 with race := [[], [], [.inTok 1#4]]
                                                         pma := sApp.pma.write16 8 192#16 }) =
    some (0x26E1#16, [(1#4, [])]) := by decide +kernel

/-- V104; V101: at most `tx_size` bytes. -/
theorem test_writeIrq : after (fun t => (t.pma.readBytes 192 9, t.pma.read16 10, t.eprAt 1))
    (exec (.writeIrq 1#4 [1, 2, 3, 4, 5, 6, 7, 8, 9, 10]) { sApp with seq := .run .ext }) =
    some ([1, 2, 3, 4, 5, 6, 7, 8, 0], 0x0008#16, 0x3621#16) := by decide +kernel

/-- V107. -/
theorem test_read : after (fun t => (t.dst, t.result))
    (exec (.read 2#4) { sApp with ep := sApp.ep.setIfInBounds 2 { sApp.epAt 2 with rxCount := 3#10 }
                                  pma := sApp.pma.writeBytes 264 [0x11#8, 0x22#8, 0x33#8, 0x44#8] }) =
    some ([0x11#8, 0x22#8, 0x33#8], .read 3#10) ∧
    after (fun t => (t.dst, t.result)) (exec (.read 1#4) sApp) = some ([], .read 0#10) := by decide +kernel

/-- V109. -/
theorem test_refused_forms :
    exec (.write 3#4 [0x00#8]) sApp = .refused (.endpointNotAllocated 3#4) ∧
    exec (.read 9#4) sApp = .refused (.endpointOutOfRange 9#4) ∧
    step { sRst with program := [.cmd (Port.plain 0x05#8) none] } = .refused (.reservedCommand 0x05#8) ∧
    step { sRst with program := [.cmd (Port.plain 0x0A#8) none] } = .refused (.reservedCommand 0x0A#8) :=
  ⟨rfl, rfl, rfl, rfl⟩

/-! ## Witnesses: for each obligation with hypotheses, a state and operands that meet them together -/

theorem answers {o : Out} (h : after (fun _ => true) o = some true) : ∃ t, o = .next t := by
  cases o with
  | next t => exact ⟨t, rfl⟩
  | fault _ => cases h
  | refused _ => cases h

theorem testConfig_wf : testConfig.wf := ⟨.inr (.inr (.inr rfl)), rfl, by decide, by decide, by decide⟩

theorem sRst_ready : TxReady sRst 0 := ⟨testConfig_wf, by decide, rfl, rfl, rfl, by decide⟩
theorem sApp_ready : TxReady sApp 1 := ⟨testConfig_wf, by decide, rfl, rfl, rfl, by decide⟩

theorem witness_DecodeEncodeRoundTrip : (Instr.irqCtrOut 7#4).wellFormed 0x09#8 = true ∧
    (Instr.fallback 0xC0#8 0x01#8 0 0 0).wellFormed 0x09#8 = true ∧ (Instr.hidSetFeature 0 0 0).wellFormed 0x0B#8 = true ∧
    (Instr.write 0#4 (List.replicate 65535 0)).wellFormed 0x09#8 = true := by
  refine ⟨by decide, by decide, by decide, ?_⟩
  simp only [Instr.wellFormed, List.length_replicate]
  decide

theorem witness_ReservedCommandsRefused :
    (let s : State := { sRst with program := [.cmd (Port.plain 0x05#8) none] }
     s.seq = .idle ∧ s.app = [] ∧ s.program = .cmd (Port.plain 0x05#8) none :: [] ∧ 5 ≤ (Port.plain 0x05#8).c.toNat) ∧
    5 ≤ (Port.plain 0xFF#8).c.toNat := by decide +kernel

/-- R150's own pair, `set_valid_tx` and `keep_dtog_tx`; `normalize` with a status transform; two words that agree in the
group of `set_valid_rx` and nowhere else. -/
theorem witness_DisjointTransformsCommute :
    ((0x0030#16, setValidTx) ∈ transformTable ∧ (0x0040#16, keepDtogTx) ∈ transformTable ∧
      (0x0030#16 : Half) &&& 0x0040#16 = 0) ∧
    ((0xC0C0#16, normalize) ∈ transformTable ∧ (0x3000#16, setValidRx) ∈ transformTable ∧
      (0xC0C0#16 : Half) &&& 0x3000#16 = 0) ∧
    (0x2FFF#16 : Half) &&& 0x3000#16 = 0xE000#16 &&& 0x3000#16 := by
  simp [transformTable]

theorem witness_StatusTransformsLand : statRx 0x3220#16 = statRx 0xB000#16 ∧ statTx 0x3220#16 = statTx 0x00A0#16 := by decide

theorem witness_ToggleAndFlagTransformsLand :
    dtogRx 0x7A60#16 = dtogRx 0x4000#16 ∧ dtogTx 0x7A60#16 = dtogTx 0x0040#16 := by decide

/-- V35; V49b, the exact fit; the largest size below the granularity step and the smallest above it. -/
theorem witness_AllocateSucceeds :
    sRst.Quiet ∧ sRst.cfg.wf ∧ (8#16 : Half).toNat % 2 = 0 ∧ (1#4 : BitVec 4).toNat < 8 ∧ (7#4 : BitVec 4).toNat < 8 ∧
    (8#16 : Half).toNat ≤ sRst.cfg.pmaSize ∧ (160#16 : Half).toNat % 2 = 0 ∧
    sRst.bump.toNat + (160#16 : Half).toNat + (160#16 : Half).toNat = sRst.cfg.pmaSize ∧
    (62#16 : Half).toNat % 2 = 0 ∧ (62#16 : Half).toNat < 64 ∧ (64#16 : Half).toNat % 32 = 0 ∧
    (160#16 : Half).toNat ≤ 992 ∧ (160#16 : Half).toNat % 32 = 0 :=
  ⟨rfl, testConfig_wf, by decide +kernel⟩

/-- Each check at its boundary; the bound 992 in a configuration that R6 excludes (R163). -/
theorem witness_AllocateFailsWithoutEffect :
    (1#16 : Half).toNat % 2 = 1 ∧ 8 ≤ (8#4 : BitVec 4).toNat ∧
    ((7#4 : BitVec 4).toNat < 8 ∧ sRst.cfg.pmaSize < (514#16 : Half).toNat) ∧
    sRst.cfg.pmaSize < sRst.bump.toNat + (160#16 : Half).toNat + (161#16 : Half).toNat ∧
    (sRst.bump.toNat + (160#16 : Half).toNat + (66#16 : Half).toNat ≤ sRst.cfg.pmaSize ∧ (66#16 : Half).toNat % 32 ≠ 0 ∧
      (63#16 : Half).toNat % 2 = 1) ∧
    (let s : State := { sRst with cfg := { testConfig with pmaSize := 4096 } }
     992 < (1024#16 : Half).toNat ∧ (1024#16 : Half).toNat ≤ s.cfg.pmaSize ∧
     s.bump.toNat + (0#16 : Half).toNat + (1024#16 : Half).toNat ≤ s.cfg.pmaSize) := by decide +kernel

theorem witness_LookupTable :
    ((0x21#8 : Byte), (0x00#8 : Byte)) ∉ [((0x01#8 : Byte), (0x00#8 : Byte)), (0x02#8, 0x00#8), (0x03#8, 0x00#8), (0x03#8, 0x01#8),
      (0x03#8, 0x02#8), (0x03#8, 0x03#8), (0x06#8, 0x00#8), (0x22#8, 0x00#8)] := by decide

/-- The state of every request obligation: quiet, endpoint 0 ready, the Dispatch point. -/
def sReq : State := atDispatch 0x0000000000050500#64 0xAA20#16

theorem sReq_ready : TxReady sReq 0 := ⟨testConfig_wf, by decide, rfl, rfl, rfl, by decide⟩

theorem witness_AcknowledgedRequestsComplete : sReq.Quiet ∧ TxReady sReq 0 := ⟨rfl, sReq_ready⟩
theorem witness_UnrecognizedRequestsComplete : sReq.Quiet ∧ TxReady sReq 0 := ⟨rfl, sReq_ready⟩
theorem witness_DeviceSetRequestsComplete : sReq.Quiet ∧ TxReady sReq 0 := ⟨rfl, sReq_ready⟩
theorem witness_HidSetFeatureArmsReceive : sReq.Quiet := rfl
theorem witness_StatusAndConfigurationServed : sReq.Quiet ∧ TxReady sReq 0 := ⟨rfl, sReq_ready⟩
theorem witness_HidReportServed : sReq.Quiet ∧ TxReady sReq 0 := ⟨rfl, sReq_ready⟩

theorem witness_FixedDescriptorsServed : sReq.Quiet ∧ TxReady sReq 0 ∧ romConsistent sReq.cfg = true :=
  ⟨rfl, sReq_ready, by decide +kernel⟩
theorem witness_StringDescriptorsServed : sReq.Quiet ∧ TxReady sReq 0 ∧ romConsistent sReq.cfg = true :=
  ⟨rfl, sReq_ready, by decide +kernel⟩

/-- An operation that stages, one that does not, one of each listed row. -/
theorem witness_SetupRequestsFrame :
    sReq.Quiet ∧ (Instr.setIdle 0 0 0).setupRow ≠ none ∧ (∃ t, exec (.setIdle 0 0 0) sReq = .next t) ∧
    (∃ t, exec (.setAddress 5#16 0 0) sReq = .next t) ∧ (∃ t, exec (.setConfiguration 1#16 0 0) sReq = .next t) ∧
    (∃ t, exec (.fallback 0xC0#8 1#8 0 0 0) sReq = .next t) ∧ (∃ t, exec (.hidSetFeature 0 0 4#16) sReq = .next t) ∧
    (∃ t, exec (.getDescHidReport 0 130#16) sReq = .next t) :=
  ⟨rfl, by decide, answers (by decide +kernel), answers (by decide +kernel), answers (by decide +kernel), answers (by decide +kernel), answers (by decide +kernel), answers (by decide +kernel)⟩

theorem witness_SetupRequestsMemoryFrame :
    sReq.Quiet ∧ (Instr.getDescDevice 0 9#16).setupRow ≠ none ∧ (∃ t, exec (.getDescDevice 0 9#16) sReq = .next t) ∧
    firstPacketLength sReq (.getDescDevice 0 9#16) = some 9 ∧ firstPacketLength sReq (.hidSetFeature 0 0 0) = none ∧
    (∃ t, exec (.hidSetFeature 0 0 0) sReq = .next t) :=
  ⟨rfl, by decide, answers (by decide +kernel), by decide +kernel, rfl, answers (by decide +kernel)⟩

/-- V70 at a bounded wait: the chunk before it was armed; r bytes are left. -/
def sWait (r : Half) (v : Half) : State :=
  { forced (atDispatch 0x0082000022000681#64 0xAA20#16) 0 v with
    seq := .wait, phase := .dataStageIn, curOff := 64#16, curRem := r, txSrc := testConfig.rom.hidRep }

theorem sWait_ready (r v : Half) : TxReady (sWait r v) 0 :=
  have e : (sWait r v).epAt 0 = { rstEp0 with rxFlag := true, setupFlag := true, rxCount := 8#10, status := 0xAA20#16 } := rfl
  ⟨testConfig_wf, by decide, rfl, by rw [e]; rfl, by rw [e]; rfl, by rw [e]; exact (by decide : 64 + 64 ≤ 512)⟩

/-- Nothing left; two bytes and the longest short chunk left; exactly one full chunk left. -/
theorem witness_WaitResumes :
    (sWait 0#16 0x2AE0#16).Quiet ∧ TxReady (sWait 0#16 0x2AE0#16) 0 ∧ TxReady (sWait 63#16 0x2AE0#16) 0 ∧
    TxReady (sWait 64#16 0x2AE0#16) 0 ∧ (sWait 0#16 0x2AE0#16).seq = .wait ∧
    ((sWait 0#16 0x2AE0#16).istrCtr = true ∧ (sWait 63#16 0x2AE0#16).istrCtr = true ∧
      (sWait 64#16 0x2AE0#16).istrCtr = true) ∧
    64 + (64#16 : Half).toNat ≤ (sWait 64#16 0x2AE0#16).txSrc.length ∧
    (63#16 : Half).toNat < ((sWait 63#16 0x2AE0#16).epAt 0).txSize.toNat ∧
    ((sWait 64#16 0x2AE0#16).epAt 0).txSize.toNat ≤ (64#16 : Half).toNat :=
  ⟨rfl, sWait_ready _ _, sWait_ready _ _, sWait_ready _ _, rfl, by decide +kernel⟩

theorem witness_WaitHoldsWithoutCompletion :
    (sWait 66#16 0x2A30#16).Quiet ∧ (sWait 66#16 0x2A30#16).seq = .wait ∧ (sWait 66#16 0x2A30#16).istrCtr = false ∧
    (∀ m rest, (sWait 66#16 0x2A30#16).program ≠ .sie m :: rest) ∧
    { sWait 66#16 0x2A30#16 with program := [.sie (.inTok 0#4)] }.program = .sie (.inTok 0#4) :: [] :=
  ⟨rfl, rfl, by decide +kernel, (fun _ _ h => by cases h), rfl⟩

theorem witness_TimeoutAbandonsTransfer :
    (sWait 66#16 0x2A30#16).Quiet ∧ (sWait 66#16 0x2A30#16).seq = .wait ∧ (sWait 66#16 0x2A30#16).istrCtr = false :=
  ⟨rfl, rfl, by decide +kernel⟩

theorem witness_StaleSnapshotDisarms : statTx 0x2A30#16 = 3#2 ∧ statTx 0xAA20#16 = 2#2 := by decide

/-- R231, R244 (assumption 34): a SETUP received during a wait, `EPR[0]` = 0xAA20, ends the wait; the arm of the next chunk
leaves 0x2A30, its CTR_RX cleared. -/
theorem test_setup_during_wait : after (fun t => (t.seq, t.eprAt 0)) (step (sWait 66#16 0xAA20#16)) =
    some (.wait, 0x2A30#16) := by decide +kernel

/-- V71: a HID report request of `l` bytes with the host's IN moves, as many as the law counts packets. -/
def sLaw (l : Half) (packets : Nat) : State :=
  { atDispatch (packSetup 0x81#8 0x06#8 0x2200#16 0x0000#16 l) 0xAA20#16 with
    program := List.replicate packets (.sie (.inTok 0#4)) }

theorem sLaw_ready (l : Half) (k : Nat) : (sLaw l k).Quiet ∧ TxReady (sLaw l k) 0 ∧ (sLaw l k).seq = .run .dispatch ∧
    (sLaw l k).setup = packSetup 0x81#8 0x06#8 0x2200#16 0x0000#16 l ∧ (sLaw l k).served = 0 ∧
    (sLaw l k).daddr.getLsbD 7 = true :=
  have e : (sLaw l k).epAt 0 = { rstEp0 with rxFlag := true, setupFlag := true, rxCount := 8#10, status := 0xAA20#16 } := rfl
  ⟨rfl, ⟨testConfig_wf, by decide, rfl, by rw [e]; rfl, by rw [e]; rfl, by rw [e]; exact (by decide : 64 + 64 ≤ 512)⟩, rfl,
    rfl, rfl, (by decide : (0x80#8 : Byte).getLsbD 7 = true)⟩

/-- L = 128, two full packets and a trailing empty one; L = 130, which M = 64 does not divide (R235); L = 0. -/
theorem witness_PacketCountLaw : ∀ (l : Half) (k : Nat), (l, k) ∈ [(0x0080#16, 3), (0x0082#16, 3), (0x0000#16, 1)] →
    (sLaw l k).Quiet ∧ TxReady (sLaw l k) 0 ∧ 0 < ((sLaw l k).epAt 0).txSize.toNat ∧
    ((sLaw l k).epAt 0).txSize.toNat < 1024 ∧ (sLaw l k).pma.wf = true ∧
    bumpInit ≤ ((sLaw l k).epAt 0).txBase.toNat ∧ (sLaw l k).seq = .run .dispatch ∧
    (sLaw l k).setup = packSetup 0x81#8 0x06#8 0x2200#16 0x0000#16 l ∧ (sLaw l k).served = 0 ∧
    (sLaw l k).daddr.getLsbD 7 = true ∧ (sLaw l k).pma.read16 0 = ((sLaw l k).epAt 0).txBase ∧
    ((sLaw l k).epAt 0).status = (sLaw l k).eprAt 0 ∧ statTx ((sLaw l k).eprAt 0) = 2#2 ∧
    (∀ n, n < 8 → 0 < n → (sLaw l k).flagged n = false) ∧
    (sLaw l k).program = List.replicate
      (packetsOf ((sLaw l k).epAt 0).txSize.toNat (min (sLaw l k).cfg.rom.hidRep.length l.toNat)
        ((sLaw l k).cfg.rom.hidRep.take (min (sLaw l k).cfg.rom.hidRep.length l.toNat))).length
      (.sie (.inTok 0#4)) := by
  intro l k h
  have r := sLaw_ready l k
  refine ⟨r.1, r.2.1, ?_, ?_, ?_, ?_, r.2.2.1, r.2.2.2.1, r.2.2.2.2.1, r.2.2.2.2.2, ?_⟩ <;>
    (simp only [List.mem_cons, Prod.mk.injEq, List.not_mem_nil, or_false] at h
     rcases h with ⟨rfl, rfl⟩ | ⟨rfl, rfl⟩ | ⟨rfl, rfl⟩ <;> decide +kernel)

theorem witness_ResetBranchRecreatesEndpointZero : sRst.Quiet ∧ sRst.cfg.wf := ⟨rfl, testConfig_wf⟩

theorem witness_SetupPacketLatched :
    (forced sRst 0 0xAA20#16).Quiet ∧ (forced sRst 0 0xAA20#16).cfg.wf ∧ ((forced sRst 0 0xAA20#16).epAt 0).allocated = true ∧
    ((forced sRst 0 0xAA20#16).epAt 0).handler = .ep0 ∧ ctrRx ((forced sRst 0 0xAA20#16).eprAt 0) = true ∧
    setupBit ((forced sRst 0 0xAA20#16).eprAt 0) = true ∧ RxReady (forced sRst 0 0xAA20#16) 0 8 :=
  ⟨rfl, testConfig_wf, rfl, rfl, by decide +kernel, by decide +kernel, rfl, by decide +kernel⟩

/-- A reception of `count` bytes on endpoint 0 with the register v. -/
def sOut (v : Half) (count : Half) : State := { forced sRst 0 v with pma := sRst.pma.write16 6 (0x8400#16 ||| count) }

theorem sOut_ep (v c : Half) : (sOut v c).epAt 0 = rstEp0 := rfl

/-- Without and with a transmit completion latched with it; the smallest and the largest count. -/
theorem witness_OutPayloadToScratch :
    (∀ v c, (sOut v c).Quiet ∧ (sOut v c).cfg.wf ∧ ((sOut v c).epAt 0).allocated = true ∧
      ((sOut v c).epAt 0).handler = .ep0) ∧
    (ctrRx ((sOut 0xE220#16 0#16).eprAt 0) = true ∧ setupBit ((sOut 0xE220#16 0#16).eprAt 0) = false ∧
      ctrTx ((sOut 0xE220#16 0#16).eprAt 0) = false) ∧
    (ctrRx ((sOut 0xA2A0#16 1023#16).eprAt 0) = true ∧ setupBit ((sOut 0xA2A0#16 1023#16).eprAt 0) = false ∧
      ctrTx ((sOut 0xA2A0#16 1023#16).eprAt 0) = true) ∧
    RxReady (sOut 0xE220#16 0#16) 0 (outCount (sOut 0xE220#16 0#16)) ∧ outCount (sOut 0xE220#16 0#16) = 0 ∧
    RxReady (sOut 0xA2A0#16 1023#16) 0 (outCount (sOut 0xA2A0#16 1023#16)) ∧ outCount (sOut 0xA2A0#16 1023#16) = 64 :=
  ⟨fun _ _ => ⟨rfl, testConfig_wf, rfl, rfl⟩, by decide +kernel, by decide +kernel, ⟨by decide +kernel, by decide +kernel⟩,
    by decide +kernel, ⟨by decide +kernel, by decide +kernel⟩, by decide +kernel⟩

theorem sOut_copyReady (v : Half) : CopyReady (sOut v 64#16) 0 true := by
  have e : outCount (sOut v 64#16) = 64 := by
    show min (receivedCount ((sRst.pma.write16 6 (0x8400#16 ||| 64#16)).read16 6)).toNat 64 = 64
    decide +kernel
  refine fun _ _ => ⟨fun _ => ⟨?_, ?_⟩, fun _ _ => ⟨?_, ?_⟩⟩
  · rw [sOut_ep]; rfl
  · rw [sOut_ep]; exact (by decide : 128 + 2 * unitCount 8 ≤ 512)
  · rw [sOut_ep]; rfl
  · rw [sOut_ep, e]; exact (by decide : 128 + 2 * unitCount 64 ≤ 512)

/-- Endpoint 0 under each of the four conditions, in either direction. -/
theorem witness_ControlHandlerCases :
    (∀ v : Half, (sOut v 64#16).Quiet ∧ (sOut v 64#16).cfg.wf ∧ CopyReady (sOut v 64#16) 0 true ∧
      CopyReady (sOut v 64#16) 0 false ∧ ((sOut v 64#16).epAt 0).allocated = true ∧
      ((sOut v 64#16).epAt 0).handler = .ep0) ∧
    (ctrRx ((sOut 0xAA20#16 64#16).eprAt 0) = true ∧ setupBit ((sOut 0xAA20#16 64#16).eprAt 0) = true) ∧
    (ctrRx ((sOut 0x2AE0#16 64#16).eprAt 0) = false ∧ ctrTx ((sOut 0x2AE0#16 64#16).eprAt 0) = true) ∧
    (ctrRx ((sOut 0xE220#16 64#16).eprAt 0) = true ∧ setupBit ((sOut 0xE220#16 64#16).eprAt 0) = false ∧
      ctrTx ((sOut 0xE220#16 64#16).eprAt 0) = false) ∧
    (ctrRx ((sOut 0x3220#16 64#16).eprAt 0) = false ∧ ctrTx ((sOut 0x3220#16 64#16).eprAt 0) = false) :=
  ⟨fun v => ⟨rfl, testConfig_wf, sOut_copyReady v, fun h => (nomatch h), rfl, rfl⟩, by decide +kernel, by decide +kernel,
    by decide +kernel, by decide +kernel⟩

theorem witness_UnallocatedEndpointDefault : sApp.Quiet ∧ sApp.cfg.wf ∧ (7#4 : BitVec 4).toNat < 8 ∧
    CopyReady sApp 7#4 true ∧ CopyReady sApp 7#4 false ∧ (sApp.epAt (7#4 : BitVec 4).toNat).allocated = false :=
  ⟨rfl, testConfig_wf, by decide, fun _ h => absurd h (by decide), fun h => (nomatch h), by decide +kernel⟩

/-- The keep-all handler; a report handler that issues a WRITE_IRQ. -/
theorem witness_ExternalHandlerCalled : sApp.Quiet ∧ sApp.cfg.wf ∧ (1#4 : BitVec 4).toNat < 8 ∧ CopyReady sApp 1#4 true ∧
    CopyReady sApp 1#4 false ∧ (sApp.epAt 1).allocated = true ∧ (sApp.epAt 1).handler = .ext 1 ∧
    (extAction .keepAll 1#4 (sApp.epAt 1)).writes.isEmpty = true ∧
    (extAction (.report [1#8]) 1#4 { sApp.epAt 1 with txFlag := true }).writes.isEmpty = false :=
  ⟨rfl, testConfig_wf, by decide, fun _ h => absurd h (by decide), fun h => (nomatch h), by decide +kernel⟩

theorem witness_EndpointNumberOutOfRangeRefused : 8 ≤ (8#4 : BitVec 4).toNat ∧ 8 ≤ (15#4 : BitVec 4).toNat := by decide

theorem witness_InterruptEntryAndExit :
    (let s : State := { sRst with program := [.irq] }
     s.seq = .idle ∧ s.irqMasked = false ∧ s.program = .irq :: []) ∧
    (let s : State := { sRst with istrReset := true }
     s.seq = .idle ∧ s.irqMasked = false ∧ s.program = [] ∧ s.istrReset = true) ∧
    (let s := forced sRst 3 0x0080#16
     s.seq = .idle ∧ s.irqMasked = false ∧ s.program = [] ∧ s.istrCtr = true) ∧
    ({ sRst with seq := .run .leave, irqMasked := true } : State).seq = .run .leave := by decide +kernel

theorem witness_TransactionCompleteFrame :
    setupArrived.Quiet ∧ (∃ t, exec (.irqCtrOut 0#4) setupArrived = .next t) ∧
    (forced sApp 1 0x26E1#16).Quiet ∧ (∃ t, exec (.irqCtrIn 1#4) (forced sApp 1 0x26E1#16) = .next t) ∧
    (sApp.epAt 1).handler ≠ .ep0 ∧ (sApp.epAt 3).allocated = false ∧
    (∃ t, exec (.irqCtrIn 3#4) sApp = .next t) :=
  ⟨rfl, answers (by decide +kernel), rfl, answers (by decide +kernel), by decide +kernel, by decide +kernel, answers (by decide +kernel)⟩

theorem witness_WriteCopiesAndArms : sApp.Quiet ∧ sApp.appSplit = none ∧ TxReady sApp (1#4 : BitVec 4).toNat :=
  ⟨rfl, rfl, sApp_ready⟩

theorem witness_WriteIrqCopiesOnly : sReq.Quiet ∧ sReq.seq ≠ .idle ∧ TxReady sReq (0#4 : BitVec 4).toNat :=
  ⟨rfl, by decide, sReq_ready⟩

/-- No byte, an odd number, the longest; the first and the last endpoint of the table. -/
theorem witness_StagedBytesReadBack :
    sApp.pma.wf = true ∧ (∀ n, n ∈ [0, 1, 2] → bumpInit ≤ (sApp.epAt n).txBase.toNat) ∧
    ([] : List Byte).length < 1024 ∧ [0xAA#8, 0xBB#8, 0xCC#8].length % 2 = 1 ∧
    (List.replicate 1023 (0x00#8 : Byte)).length < 1024 ∧
    bumpInit ≤ ((sApp.setEp 7 rstEp0).epAt 7).txBase.toNat :=
  ⟨by decide +kernel, by decide +kernel, by decide, by decide, by rw [List.length_replicate]; decide, by decide +kernel⟩

/-- P4b line 7 with 3 bytes; a buffer of size 0. -/
theorem witness_ReadReturnsReceivedBytes :
    (let s : State := sApp.setEp 2 { sApp.epAt 2 with rxCount := 3#10 }
     s.Quiet ∧ s.appSplit = none ∧ (2#4 : BitVec 4).toNat < 8 ∧ (s.epAt 2).allocated = true ∧ RxReady s 2 3 ∧
     min (s.epAt 2).rxCount.toNat (s.epAt 2).rxSize.toNat = 3) ∧ RxReady sApp 1 0 :=
  ⟨⟨rfl, rfl, by decide, rfl, ⟨rfl, by decide +kernel⟩, by decide +kernel⟩, ⟨rfl, by decide +kernel⟩⟩

theorem witness_CommandsRefusedWithoutEndpoint :
    8 ≤ (8#4 : BitVec 4).toNat ∧ sReq.seq ≠ .idle ∧ ((7#4 : BitVec 4).toNat < 8 ∧ (sReq.epAt 7).allocated = false) ∧
    sApp.seq = .idle := by decide +kernel

theorem witness_PreemptedCommandResumes : sApp.app = [] := rfl

/-- R331, R285, R334 (assumption 35): after SIE.RESET, endpoint 1 at 0x0000, a WRITE leaves transmit VALID and receive NAK,
and `SIE.IN 1` is enabled with ISTR.RESET still 1; before the WRITE it is not. -/
theorem test_in_before_reset_branch :
    ({ sApp with pma := sApp.pma.write16 8 192#16 }.sieMove .reset).sieEnabled (.inTok 1#4) = false ∧
    after (fun t => (t.eprAt 1, t.istrReset, t.sieEnabled (.inTok 1#4)))
      (exec (.write 1#4 [0xAA#8]) ({ sApp with pma := sApp.pma.write16 8 192#16 }.sieMove .reset)) =
    some (0x2030#16, true, true) := by decide +kernel

/-- Each move enabled: a SETUP at receive NAK and at VALID, an OUT of the longest payload and of none, an IN of endpoint 0
and of endpoint 1; and each not enabled. -/
theorem witness_SieRegisterEffects :
    (forced sRst 0 0x2A30#16).sieEnabled (.setup 0 false true) = true ∧ sRst.sieEnabled (.setup 0 false true) = true ∧
    (forced sRst 0 0xAA20#16).sieEnabled (.setup 0 false true) = false ∧
    sRst.sieEnabled (.out 0#4 (List.replicate 64 0x00#8)) = true ∧ sRst.sieEnabled (.out 0#4 []) = true ∧
    sRst.sieEnabled (.out 0#4 (List.replicate 65 0x00#8)) = false ∧ sRst.sieEnabled (.out 8#4 []) = false ∧
    (forced sRst 0 0x2A30#16).sieEnabled (.inTok 0#4) = true ∧ (forced sApp 1 0x2631#16).sieEnabled (.inTok 1#4) = true ∧
    sRst.sieEnabled (.inTok 0#4) = false ∧
    (sWait 66#16 0x2A30#16).sieEnabled .timeout = true ∧ sRst.sieEnabled .timeout = false := by decide +kernel

theorem witness_ReceptionStoresBytes :
    sRst.pma.wf = true ∧ bumpInit ≤ (sRst.pma.read16 (8 * 0 + 4)).toNat ∧ ([] : List Byte).length ≤ 1023 ∧
    (List.replicate 1023 (0xFF#8 : Byte)).length ≤ 1023 ∧
    bumpInit ≤ ((sRst.pma.write16 (8 * 7 + 4) 0x00C0#16).read16 (8 * 7 + 4)).toNat :=
  ⟨by decide +kernel, by decide +kernel, by decide, by rw [List.length_replicate], by decide +kernel⟩

/-- Each of the five places an operation is fetched from, and each of the steps that run none. -/
theorem witness_StepRunsDecodedInstruction :
    (sReq.seq = .run .dispatch ∧ (Instr.setAddress 5#16 0 0).wellFormed sReq.cfg.rqHidSetFeature = true ∧
      encode sReq.cfg.rqHidSetFeature (.setAddress 5#16 0 0) = .setup sReq.setup) ∧
    (let s : State := { sRst with istrReset := true, seq := .run .resetTest, irqMasked := true }
     s.seq = .run .resetTest ∧ s.pause.istrReset = true) ∧
    (let s : State := { sRst with seq := .run .resetTest, irqMasked := true }
     s.seq = .run .resetTest ∧ s.pause.istrReset = false) ∧
    (∀ v : Half, { forced sRst 0 v with seq := .run .ctrTest }.seq = .run .ctrTest) ∧
    ({ forced sRst 0 0xAA20#16 with seq := .run .ctrTest }.pause.istrCtr = true ∧
      { forced sRst 0 0x3220#16 with seq := .run .ctrTest }.pause.istrCtr = false) ∧
    ((atServe sRst 0x8012#16).seq = .run .serve ∧ decodeCtr (atServe sRst 0x8012#16).istrLatch = some (.irqCtrOut 2#4)) ∧
    (let s : State := { sApp with seq := .run .ext, irqMasked := true, hq := [{ n := 1#4, data := [1#8] }] }
     s.seq = .run .ext ∧ s.hq = { n := 1#4, data := [1#8] } :: []) ∧
    (let s : State := { sApp with seq := .run .ext, irqMasked := true, hq := [] }
     s.seq = .run .ext ∧ s.hq = []) ∧
    (let s : State := { sApp with program := [.cmd (Port.plain 0x00#8) none] }
     s.seq = .idle ∧ s.app = [] ∧ s.program = .cmd (Port.plain 0x00#8) none :: [] ∧
     decodeCmd (Port.plain 0x00#8) = .ok .getState) ∧
    (let s : State := { sApp with program := [.sie .reset] }
     s.seq = .idle ∧ s.program = .sie .reset :: []) ∧
    (let s : State := { sApp with program := [.app none] }
     s.seq = .idle ∧ s.program = .app none :: []) ∧
    (let s : State := { sApp with program := [.cmd (Port.plain 0x00#8) none], app := [.readReg 1#4] }
     s.seq = .idle ∧ s.program = .cmd (Port.plain 0x00#8) none :: [] ∧ s.app ≠ []) ∧
    (let s : State := { sApp with app := [.readReg 1#4] }
     s.seq = .idle ∧ s.program = [] ∧ s.irqRequest = false ∧ s.app ≠ []) := by
  refine ⟨⟨rfl, by decide, by decide⟩, ⟨rfl, rfl⟩, ⟨rfl, rfl⟩, fun _ => rfl, by decide +kernel, ⟨rfl, by decide⟩, ⟨rfl, rfl⟩,
    ⟨rfl, rfl⟩, ⟨rfl, rfl, rfl, rfl⟩, ⟨rfl, rfl⟩, ⟨rfl, rfl⟩, ⟨rfl, rfl, by simp⟩, rfl, rfl, by decide +kernel, by simp⟩

/-- One endpoint with a flag; several. -/
theorem witness_InterruptStatusNamesFlaggedEndpoint :
    (forced sApp 1 0x26E1#16).Quiet ∧ (forced sApp 1 0x26E1#16).istrCtr = true ∧
    (forced (forced sApp 1 0x26E1#16) 2 0xE022#16).flaggedList = [1, 2] :=
  ⟨rfl, by decide +kernel, by decide +kernel⟩

/-- A step of each kind that answers a next state: an operation, a command, an interrupt entry, a move of the SIE. -/
theorem steps_answer :
    (∃ t, step sReq = .next t) ∧ (∃ t, step { sRst with program := [.cmd (Port.plain 0x00#8) none] } = .next t) ∧
    (∃ t, step { sRst with program := [.irq] } = .next t) ∧
    (∃ t, step { sRst with program := [.sie .reset] } = .next t) ∧ (∃ t, step sRst = .next t) :=
  ⟨answers (by decide +kernel), answers (by decide +kernel), answers (by decide +kernel), answers (by decide +kernel), answers (by decide +kernel)⟩

theorem witness_StepKeepsPacketMemory : sReq.cfg.wf ∧ MemInv sReq ∧ ∃ t, step sReq = .next t :=
  ⟨testConfig_wf, ⟨by decide +kernel, by decide +kernel⟩, steps_answer.1⟩

theorem sApp_allocInv : AllocInv sApp := by
  refine ⟨by decide, by decide +kernel, by decide, ?_, ?_⟩
  · unfold EntryOk; decide +kernel
  · intro n m (hn : n < 8) (hm : m < 8)
    interval_cases n <;> interval_cases m <;> decide +kernel

theorem sReq_allocInv : AllocInv sReq := by
  refine ⟨by decide, by decide +kernel, by decide, ?_, ?_⟩
  · unfold EntryOk; decide +kernel
  · intro n m (hn : n < 8) (hm : m < 8)
    interval_cases n <;> interval_cases m <;> decide +kernel

theorem witness_StepKeepsAllocator : sReq.cfg.wf ∧ AllocInv sReq ∧ (∃ t, step sReq = .next t) ∧ AllocInv sApp :=
  ⟨testConfig_wf, sReq_allocInv, steps_answer.1, sApp_allocInv⟩

theorem witness_StepKeepsMode : ModeInv sReq ∧ ModeInv sRst ∧ (∃ t, step sReq = .next t) ∧ ∃ t, step sRst = .next t :=
  ⟨⟨by decide, by decide⟩, ⟨by decide, by decide⟩, steps_answer.1, steps_answer.2.2.2.2⟩

/-- At the bound and at 0. -/
theorem witness_StepKeepsScratchBound : sReq.cfg.wf ∧ sReq.scratchLen.toNat ≤ sReq.cfg.scratchCap ∧
    ({ sReq with scratchLen := 64#16 } : State).scratchLen.toNat ≤ sReq.cfg.scratchCap ∧ ∃ t, step sReq = .next t :=
  ⟨testConfig_wf, by decide, by decide, steps_answer.1⟩

theorem witness_NoFaultUnderAllocator :
    sReq.cfg.wf ∧ AllocInv sReq ∧ Ep0Sized sReq ∧ sReq.app = [] :=
  ⟨testConfig_wf, sReq_allocInv, ⟨rfl, by decide +kernel⟩, rfl⟩

theorem witness_LogsAppendOnly : ∃ t, step sReq = .next t := steps_answer.1

/-- The reset branch, the application of an address, and a step that does neither. -/
theorem witness_AddressRegisterWriters :
    after (fun t => t.daddr) (step { sRst with istrReset := true, seq := .run .resetTest, daddr := 0x85#8 }) = some 0x80#8 ∧
    after (fun t => t.daddr)
      (step (atServe { forced sRst 0 0x2AE0#16 with dev := ⟨.defaultState, 5, 0⟩ } 0x8000#16)) = some 0x85#8 ∧
    after (fun t => t.daddr) (step sReq) = some 0x80#8 := by decide +kernel

/-- The three transitions of the device status. -/
theorem witness_DeviceStatusTransitions :
    after (fun t => t.dev.status) (step { sRst with dev := ⟨.configured, 5, 1⟩, istrReset := true, seq := .run .resetTest }) =
      some .defaultState ∧
    after (fun t => t.dev.status)
      (step (atServe { forced sRst 0 0x2AE0#16 with dev := ⟨.defaultState, 5, 0⟩ } 0x8000#16)) = some .addressed ∧
    after (fun t => t.dev.status) (step (atDispatch 0x0000000000010900#64 0xAA20#16)) = some .configured := by decide +kernel

end Sys2Proof.Tests
end

section
/-! The effect of one step on the engine's registers: everything a step can do to the configuration, the allocator's
table, the device state, the mode registers and the logs, said once. The invariants of the machine are derived from it. -/

namespace Sys2Proof.Machine

/-! ## The accesses and the bookkeeping keep the engine's registers -/

/-- Links between states that agree with the given ones on packet memory, wire log and configuration. -/
theorem Linked.congr {s t s' t' : State} (h : Linked s t) (hp : s'.pma = s.pma := by rfl)
    (hw : s'.wireIn = s.wireIn := by rfl) (hc : s'.cfg = s.cfg := by rfl) (hp' : t'.pma = t.pma := by rfl)
    (hw' : t'.wireIn = t.wireIn := by rfl) (hc' : t'.cfg = t.cfg := by rfl) : Linked s' t' where
  wire := by rw [hw, hw']; exact h.wire
  mem wf hm := by
    have := h.mem (hc ▸ wf) ⟨hp ▸ hm.canonical, by rw [← hp, ← hc]; exact hm.bounded⟩
    exact ⟨hp' ▸ this.canonical, by rw [hp', hc']; exact this.bounded⟩

/-- The engine's registers are as they were; only a wait can have been ended. What may differ is the model's bookkeeping
and what the engine shares with the SIE, with the wire log only growing and the memory invariant kept. Each field has `rfl` for
its default, so `{}` proves `Kept` of an update of the bookkeeping. -/
structure Kept (s t : State) : Prop where
  linked     : Linked s t := by exact .of_eq rfl rfl rfl
  cfg        : t.cfg = s.cfg := by rfl
  ep         : t.ep = s.ep := by rfl
  bump       : t.bump = s.bump := by rfl
  scratchLen : t.scratchLen = s.scratchLen := by rfl
  dev        : t.dev = s.dev := by rfl
  phase      : t.phase = s.phase := by rfl
  irqMasked  : t.irqMasked = s.irqMasked := by rfl
  diagLog    : t.diagLog = s.diagLog := by rfl
  daddr      : t.daddr = s.daddr := by rfl
  seq        : t.seq = s.seq ∨ s.seq = .wait ∧ t.seq = .run .timeout := by exact .inl rfl

theorem Accessed.kept {s t : State} (h : Accessed s t) : Kept s t := by
  have hs := h.seq
  have hl := h.linked
  obtain ⟨_, _, _, _, _, _, _, _, _, rfl⟩ := h.shape
  exact { linked := hl, seq := hs }

theorem Kept.trans {s t u : State} (h : Kept s t) (h' : Kept t u) : Kept s u where
  linked := h.linked.trans h.cfg h'.linked
  cfg := h'.cfg.trans h.cfg
  ep := h'.ep.trans h.ep
  bump := h'.bump.trans h.bump
  scratchLen := h'.scratchLen.trans h.scratchLen
  dev := h'.dev.trans h.dev
  phase := h'.phase.trans h.phase
  irqMasked := h'.irqMasked.trans h.irqMasked
  diagLog := h'.diagLog.trans h.diagLog
  daddr := h'.daddr.trans h.daddr
  seq := by
    rcases h.seq with h1 | ⟨h1, h1'⟩
    · rw [← h1]; exact h'.seq
    · rcases h'.seq with h2 | ⟨h2, -⟩
      · exact .inr ⟨h1, h2.trans h1'⟩
      · rw [h1'] at h2; cases h2

theorem Kept.seq_eq {s t : State} (h : Kept s t) (hw : s.seq ≠ .wait) : t.seq = s.seq :=
  h.seq.resolve_right fun hc => hw hc.1

theorem Kept.withSeq {s t : State} (h : Kept s t) (q : Seq) : Kept { s with seq := q } { t with seq := q } :=
  { h with linked := h.linked.congr, seq := .inl rfl }

/-- The final write of a handler, and whatever follows it, from a state that kept the registers. -/
theorem Sent.kept {s t : State} (h : Sent s t) :
    ∃ q, (q = .run .leave ∨ q = .wait) ∧ Kept { s with seq := q } t := by
  obtain ⟨u, co, cr, wc, q, hu, hq, rfl⟩ := h
  have hk := hu.kept.withSeq q
  exact ⟨q, hq, { hk with linked := hk.linked.congr }⟩

theorem kept_of_runApp {as : List Access} {s t : State} (h : runApp as s = .next t) : Kept s t := by
  obtain ⟨u, a, p, hu, rfl⟩ := runApp_eq_next h
  exact hu.kept.trans {}

theorem kept_of_resumeApp {split : Option Nat} {s t : State} (h : resumeApp split s = .next t) : Kept s t :=
  Kept.trans (t := { s with app := [], appSplit := split }) {} (kept_of_runApp h)

theorem kept_of_readIstr (s : State) : Kept s (readIstr s).2 := by
  obtain ⟨d, c, h⟩ := readIstr_shape s
  rw [h]
  exact (accessed_pause s).kept.trans {}

theorem kept_of_handlerReturn {w : Half} {s t : State} (h : handlerReturn w s = .next t) :
    Kept { s with seq := .run .leave } t := by
  obtain ⟨u, hu, rfl⟩ := handlerReturn_eq_next h
  exact hu.kept.withSeq _

/-! ## The allocator -/

/-- The table and the bump pointer with the entry of an ALLOCATE recorded (R161, R164). -/
def recorded (n : BitVec 4) (ty : EpType) (tx rx : Half) (h : BitVec 1) (s : State) : State :=
  { s with ep := s.ep.setIfInBounds n.toNat (allocEntry s.bump n.toNat ty tx rx h), bump := s.bump + tx + rx }

/-- ALLOCATE's checks pass (R161). -/
def AllocPasses (n : BitVec 4) (tx rx : Half) (s : State) : Prop :=
  allocCheck s.cfg.pmaSize s.bump.toNat n.toNat tx.toNat rx.toNat = .ok

/-- Recording an entry depends on the table and the bump pointer only. -/
theorem kept_recorded {s u : State} (h : Kept s u) (n : BitVec 4) (ty : EpType) (tx rx : Half) (k : BitVec 1) :
    Kept (recorded n ty tx rx k s) (recorded n ty tx rx k u) :=
  { h with
    linked := h.linked.congr
    ep := by simp only [recorded, h.ep, h.bump]
    bump := by simp only [recorded, h.bump] }

/-- ALLOCATE keeps the registers, or passes its checks and records its entry. -/
theorem kept_of_allocOp {n : BitVec 4} {ty : EpType} {tx rx : Half} {h : BitVec 1} {s t : State}
    (ha : allocOp n ty tx rx h s = .next t) :
    Kept s t ∨ AllocPasses n tx rx s ∧ Kept (recorded n ty tx rx h s) t := by
  rcases allocOp_eq_next ha with rfl | ⟨hok, u, v, hu, hv, rfl⟩
  · exact .inl (Accessed.refl t).kept
  · exact .inr ⟨hok, (kept_recorded hu.kept n ty tx rx h).trans hv.kept⟩

/-! ## The step -/

/-- What RESET_BRANCH writes of the engine's registers beside the allocator's (R252). -/
def resetRegisters (s : State) : State :=
  { s with dev := ⟨.defaultState, 0, 0⟩, scratchLen := 0, daddr := 0x80#8, phase := .waitSetup, seq := .run .ctrTest }

/-- `EP0_SIZE` as the operand RESET_BRANCH gives ALLOCATE (R252). -/
def ep0SizeWord (s : State) : Half := BitVec.ofNat 16 s.cfg.ep0Size

/-- Everything a step can do to the engine's registers, before an invocation that is done leaves: each case names the
points of the sequencer it happens at, and the registers are kept from `s` with the updates it writes out. -/
inductive StepEffect (s v : State) : Prop
  /-- a step of an agent that writes none of the registers, or the end of a wait by its bound -/
  | kept (hv : Kept s v)
  /-- the interrupt is taken (R317) -/
  | entered (hs : s.seq = .idle) (hv : Kept (enterInterrupt s) v)
  /-- an invocation with nothing left to serve leaves (R250, R258) -/
  | exited (hs : s.seq ≠ .run .dispatch) (hv : Kept (exitInterrupt s) v)
  /-- the invocation goes on to another point, to the start of a wait, or to its final write; a timeout is logged -/
  | moved (q : Seq) (dl : List DiagEvent) (hi : s.seq ≠ .idle) (hs : s.seq ≠ .run .dispatch) (hq : q ≠ .idle)
      (hl : s.diagLog <+: dl) (hv : Kept { s with diagLog := dl, seq := q } v)
  /-- ALLOCATE by APP succeeds (R161) -/
  | allocated (n : BitVec 4) (ty : EpType) (tx rx : Half) (h : BitVec 1) (hs : s.seq = .idle)
      (he : tx.getLsbD 0 = false) (hok : AllocPasses n tx rx s) (hv : Kept (recorded n ty tx rx h s) v)
  /-- RESET_BRANCH, whose ALLOCATE of endpoint 0 may fail (R252) -/
  | reset (m : State) (hs : s.seq = .run .resetTest)
      (hm : m = rewind s ∨ AllocPasses 0 (ep0SizeWord s) (ep0SizeWord s) (rewind s) ∧
        m = recorded 0 .control (ep0SizeWord s) (ep0SizeWord s) 0 (rewind s))
      (hv : Kept (resetRegisters m) v)
  /-- CTR_BRANCH: the served entry is latched and its handler called (R253 to R256) -/
  | served (n : BitVec 4) (r w l : Half) (ph : Phase) (da : Byte) (dv : Dev) (q : Seq) (hs : s.seq = .run .serve)
      (hn : n.toNat < 8) (hl : l = s.scratchLen ∨ l.toNat ≤ s.cfg.scratchCap)
      (hd : da = s.daddr ∧ dv = s.dev ∨
        da = 0x80#8 ||| s.dev.pendingAddr.setWidth 8 ∧ dv = { s.dev with status := .addressed })
      (hp : ph = .dispatch ∧ q = .run .dispatch ∨
        (ph = s.phase ∨ ph = .waitSetup) ∧ (q = .run .leave ∨ q = .run .ext))
      (hv : Kept { s with
        ep := s.ep.setIfInBounds n.toNat (snapped (s.epAt n.toNat) r w)
        scratchLen := l, phase := ph, daddr := da, dev := dv, seq := q } v)
  /-- an operation of format SETUP (R202 to R221) -/
  | dispatched (ph : Phase) (dl : List DiagEvent) (dv : Dev) (q : Seq) (hs : s.seq = .run .dispatch)
      (hph : ph ≠ .dispatch) (hq : q = .run .leave ∨ q = .wait) (hl : s.diagLog <+: dl)
      (hd : dv.status = s.dev.status ∨ ∃ v x l,
        decodeSetup s.cfg.rqHidSetFeature s.setup = .setConfiguration v x l ∧ dv.status = .configured ∧
        dv.config = v.extractLsb' 0 8)
      (hv : Kept { s with phase := ph, diagLog := dl, dev := dv, seq := q } v)

/-- The last lines of RESET_BRANCH, after lines that have cleared what they do not write. -/
theorem kept_resetRegisters {m w : State} (h : Kept m w) (hq : m.seq = .run .ctrTest) (hl : m.scratchLen = 0)
    (hp : m.dev.pendingAddr = 0) (hc : m.dev.config = 0) :
    Kept (resetRegisters m) { w.pause with
      daddr := 0x80#8, dev := { w.dev with status := .defaultState }, phase := .waitSetup } := by
  have k := h.trans (accessed_pause w).kept
  exact { k with
    linked := k.linked.congr
    scratchLen := k.scratchLen.trans hl
    dev := by simp only [h.dev, hp, hc, resetRegisters]
    phase := rfl
    daddr := rfl
    seq := .inl ((k.seq_eq (by simp [hq])).trans hq) }

/-- RESET_BRANCH, fetched at the reset test: REWIND, the ALLOCATE of endpoint 0, the last lines (R252). -/
theorem stepEffect_of_irqReset {s v : State} (hs : s.seq = .run .resetTest)
    (h : execIrqReset { s.pause with seq := .run .ctrTest } = .next v) : StepEffect s v := by
  obtain ⟨w, ha, hv⟩ := andThen_eq_next.mp h
  cases hv
  generalize hu : State.pause { s.pause with seq := .run .ctrTest } = u at ha
  have ku : Kept { s with seq := .run .ctrTest } u :=
    hu ▸ ((accessed_pause s).kept.withSeq _).trans (accessed_pause _).kept
  have hc : u.cfg = s.cfg := ku.cfg
  have hq : u.seq = .run .ctrTest := ku.seq_eq (by simp)
  have kr : Kept (resetRegisters (rewind s)) (resetRegisters (resetEngine { u with istrReset := false })) :=
    { linked := ku.linked.congr, cfg := hc, irqMasked := ku.irqMasked, diagLog := ku.diagLog }
  rcases kept_of_allocOp ha with kw | ⟨hok, kw⟩
  · exact .reset _ hs (.inl rfl) (kr.trans (kept_resetRegisters kw hq rfl rfl rfl))
  · have hz : BitVec.ofNat 16 (resetEngine { u with istrReset := false }).cfg.ep0Size = ep0SizeWord s := by
      show BitVec.ofNat 16 u.cfg.ep0Size = _
      rw [hc]; rfl
    rw [hz] at hok kw
    have hok : AllocPasses 0 (ep0SizeWord s) (ep0SizeWord s) (rewind s) := by
      have : AllocPasses 0 (ep0SizeWord s) (ep0SizeWord s) (rewind u) := hok
      unfold AllocPasses at this ⊢
      rwa [show (rewind u).cfg = (rewind s).cfg from hc] at this
    exact .reset _ hs (.inr ⟨hok, rfl⟩)
      ((kept_recorded kr 0 .control _ _ 0).trans (kept_resetRegisters kw hq rfl rfl rfl))

/-- CTR_BRANCH for either direction. -/
theorem stepEffect_of_ctrBranch {n : BitVec 4} {d : Bool} {s v : State} (hs : s.seq = .run .serve)
    (h : ctrBranch n d s = .next v) : StepEffect s v := by
  obtain ⟨hn, u, r, w, su, sc, sl, ph, da, dv, al, hq, hw, sq, hu, hl, hd, hp, rfl⟩ := ctrBranch_eq_next h
  have hk := hu.linked
  obtain ⟨_, _, _, _, _, _, _, _, _, rfl⟩ := hu.shape
  exact .served n r w sl ph da dv sq hs hn hl hd hp { linked := hk.congr }

/-- An operation of format SETUP, decoded at the Dispatch point. -/
theorem stepEffect_of_setup {s v : State} (hs : s.seq = .run .dispatch)
    (h : exec (decodeSetup s.cfg.rqHidSetFeature s.setup) s = .next v) : StepEffect s v := by
  obtain ⟨ph, ts, dl, dv, al, hph, hl, hd, hsent⟩ := setup_eq_next (setupRow_decodeSetup _ _) h
  obtain ⟨q, hq, hv⟩ := hsent.kept
  exact .dispatched ph dl dv q hs hph hq hl hd { hv with linked := hv.linked.congr }

/-- A command of APP, fetched between invocations. -/
theorem stepEffect_of_command {p : Port} {i : Instr} {s u v : State} (hs : s.seq = .idle) (hu : Kept s u)
    (hd : decodeCmd p = .ok i) (h : exec i u = .next v) : StepEffect s v := by
  have hq : u.seq = .idle := (hu.seq_eq (by simp [hs])).trans hs
  rcases decodeCmd_cases hd with rfl | ⟨n, ty, tx, rx, k, rfl⟩ | ⟨n, data, rfl, -⟩ | ⟨n, data, rfl, -⟩ | ⟨n, rfl⟩
  case inl => cases h; exact .kept (hu.trans {})
  case inr.inl =>
    simp only [exec, execAllocate] at h
    split at h
    · cases h
    · rename_i he
      obtain ⟨w, ha, hv⟩ := andThen_eq_next.mp h
      cases hv
      rcases kept_of_allocOp ha with kw | ⟨hok, kw⟩
      · exact .kept ((hu.trans kw).trans {})
      · refine .allocated n ty tx rx k hs (by simpa using he) ?_
          (((kept_recorded hu n ty tx rx k).trans kw).trans {})
        unfold AllocPasses at hok ⊢
        rwa [hu.cfg, hu.bump] at hok
  case inr.inr.inl => exact .kept (hu.trans (kept_of_runApp (onEndpoint_eq_next h).2.2))
  case inr.inr.inr.inl => rw [exec, execWriteIrq, if_pos hq] at h; cases h
  case inr.inr.inr.inr =>
    exact .kept (hu.trans (.trans (t := { u with dst := [] }) {}
      (kept_of_runApp (onEndpoint_eq_next h).2.2)))

/-- A fetched operation, by the point it is fetched at (`fetch_eq_instr`). -/
theorem stepEffect_of_instr {i : Instr} {s u v : State} (hf : fetch s = .instr i u) (h : exec i u = .next v) :
    StepEffect s v := by
  rcases fetch_eq_instr hf with ⟨p, split, rest, hs, -, -, hd, rfl⟩ | ⟨hs, rfl, -, rfl⟩ | ⟨hs, hd, rfl⟩ | ⟨hs, rfl, rfl⟩ |
    ⟨w, rest, hs, -, rfl, rfl⟩
  · exact stepEffect_of_command (u := { s with program := rest, appSplit := split }) hs {} hd h
  · exact stepEffect_of_irqReset hs h
  · rcases decodeCtr_cases hd with rfl | rfl <;> exact stepEffect_of_ctrBranch hs h
  · exact stepEffect_of_setup hs h
  · have hn : State.seq { s with hq := rest } ≠ .idle := by simp [hs]
    rw [exec, execWriteIrq, if_neg hn] at h
    exact .kept (.trans (t := { s with hq := rest }) {} (accessed_writeIrqOp h).kept)

/-- A step that runs no operation, by the point of the sequencer, in the order of `fetch_eq_move`. -/
theorem stepEffect_of_move {s v : State} (hf : fetch s = .move (.next v)) : StepEffect s v := by
  have kp := (accessed_pause s).kept
  rcases fetch_eq_move hf with ⟨hs, hidle⟩ | ⟨hs, h⟩ | ⟨hs, h | h⟩ | ⟨hs, h⟩ | ⟨hs, h⟩ | ⟨hs, h⟩ | ⟨hs, h⟩ | ⟨hs, hwait⟩
  · rcases hidle with h | h | ⟨sp, p, h⟩ | ⟨m, rest, h⟩ | ⟨rest, h | h⟩ | ⟨e, h⟩
    · cases h; exact .kept {}
    · cases h; exact .entered hs {}
    · exact .kept (.trans (t := { s with program := p }) {} (kept_of_resumeApp h.symm))
    · cases h
      exact .kept (.trans (t := { s with program := rest }) {} (accessed_sieMove _ m).kept)
    · cases h; exact .kept {}
    · cases h; exact .entered hs {}
    · cases h
  · cases h
    exact .moved _ s.diagLog (by simp [hs]) (by simp [hs]) (by simp) (List.prefix_refl _) (kp.withSeq _)
  · cases h
    exact .moved _ s.diagLog (by simp [hs]) (by simp [hs]) (by simp) (List.prefix_refl _)
      (((kept_of_readIstr s).withSeq (.run .serve)).trans {})
  · cases h
    have k := kept_of_readIstr s
    exact .exited (by simp [hs]) { k with linked := k.linked.congr, irqMasked := rfl, seq := .inl rfl }
  · cases h; exact .exited (by simp [hs]) {}
  · exact .moved _ s.diagLog (by simp [hs]) (by simp [hs]) (by simp) (List.prefix_refl _) (kept_of_handlerReturn h.symm)
  · have hv := kept_of_handlerReturn h.symm
    exact .moved _ _ (by simp [hs]) (by simp [hs]) (by simp) (List.prefix_append _ _)
      { hv with linked := hv.linked.congr }
  · cases h; exact .exited (by simp [hs]) {}
  · rcases hwait with ⟨h, -⟩ | ⟨h, -⟩ | ⟨m, rest, h, -⟩ | ⟨h, -⟩
    · cases h; exact .kept kp
    · obtain ⟨q, hq, hv⟩ := (sent_resumeTx h.symm).kept
      exact .moved q s.diagLog (by simp [hs]) (by simp [hs]) (by rcases hq with rfl | rfl <;> simp) (List.prefix_refl _)
        ((kp.withSeq q).trans hv)
    · cases h
      exact .kept (kp.trans (.trans (t := { countPoll s.pause with program := rest }) {}
        (accessed_sieMove _ m).kept))
    · cases h; exact .kept (kp.trans {})

/-- Every step has one of the effects, and an invocation that is done leaves. -/
theorem step_effect {s t : State} (h : step s = .next t) : ∃ v, StepEffect s v ∧ t = left v := by
  rcases step_eq_next h with ⟨i, u, v, hf, hv, rfl⟩ | ⟨v, hf, rfl⟩
  · exact ⟨v, stepEffect_of_instr hf hv, rfl⟩
  · exact ⟨v, stepEffect_of_move hf, rfl⟩

/-- An invocation that is done changes the mask and the sequencer only. -/
theorem left_shape (s : State) : ∃ m q, left s = { s with irqMasked := m, seq := q } := by
  by_cases h : s.seq = .run .leave
  · exact ⟨_, _, left_of_leave h⟩
  · exact ⟨s.irqMasked, s.seq, left_of_ne h⟩

@[simp] theorem left_cfg (s : State) : (left s).cfg = s.cfg := by obtain ⟨_, _, h⟩ := left_shape s; rw [h]
@[simp] theorem left_scratchLen (s : State) : (left s).scratchLen = s.scratchLen := by obtain ⟨_, _, h⟩ := left_shape s; rw [h]
@[simp] theorem left_dev (s : State) : (left s).dev = s.dev := by obtain ⟨_, _, h⟩ := left_shape s; rw [h]
@[simp] theorem left_daddr (s : State) : (left s).daddr = s.daddr := by obtain ⟨_, _, h⟩ := left_shape s; rw [h]
@[simp] theorem left_diagLog (s : State) : (left s).diagLog = s.diagLog := by obtain ⟨_, _, h⟩ := left_shape s; rw [h]
@[simp] theorem left_wireIn (s : State) : (left s).wireIn = s.wireIn := by obtain ⟨_, _, h⟩ := left_shape s; rw [h]

/-- The configuration and the ROM never change (R6, R47). -/
theorem StepEffect.cfg_eq {s v : State} (h : StepEffect s v) : v.cfg = s.cfg := by
  cases h with
  | reset m _ hm hv =>
    have hc : m.cfg = s.cfg := by rcases hm with rfl | ⟨-, rfl⟩ <;> rfl
    exact hv.cfg.trans hc
  | kept hv => exact hv.cfg
  | entered _ hv => exact hv.cfg
  | exited _ hv => exact hv.cfg
  | moved _ _ _ _ _ _ hv => exact hv.cfg
  | allocated _ _ _ _ _ _ _ _ hv => exact hv.cfg
  | served _ _ _ _ _ _ _ _ _ _ _ _ _ hv => exact hv.cfg
  | dispatched _ _ _ _ _ _ _ _ _ hv => exact hv.cfg

/-- Whatever a step does, the wire log is extended or as it was, and packet memory keeps its invariant (R71, R334). -/
theorem StepEffect.linked {s v : State} (h : StepEffect s v) : Linked s v := by
  cases h with
  | kept hv => exact hv.linked
  | entered _ hv => exact hv.linked.after s rfl rfl rfl
  | exited _ hv => exact hv.linked.after s rfl rfl rfl
  | moved _ _ _ _ _ _ hv => exact hv.linked.after s rfl rfl rfl
  | allocated _ _ _ _ _ _ _ _ hv => exact hv.linked.after s rfl rfl rfl
  | reset _ _ hm hv => rcases hm with rfl | ⟨-, rfl⟩ <;> exact hv.linked.after s rfl rfl rfl
  | served _ _ _ _ _ _ _ _ _ _ _ _ _ hv => exact hv.linked.after s rfl rfl rfl
  | dispatched _ _ _ _ _ _ _ _ _ hv => exact hv.linked.after s rfl rfl rfl

end Sys2Proof.Machine
end

section
/-! The allocator's invariant is kept by every step (R22, R28, R75, R164, R167). -/

namespace Sys2Proof.Machine

/-- The part of a table entry the allocator's invariant speaks of. -/
def regions (e : Endpoint) : Bool × Half × Half × Half × Half :=
  (e.allocated, e.txBase, e.txSize, e.rxBase, e.rxSize)

@[simp] theorem regions_snapped (e : Endpoint) (r w : Half) : regions (snapped e r w) = regions e := rfl

/-- The invariant depends on the regions of the entries, the bump pointer and the configuration only. -/
theorem AllocInv.congr {s t : State} (h : AllocInv s) (hc : t.cfg = s.cfg) (hb : t.bump = s.bump)
    (he : ∀ n, n < nEp → regions (t.epAt n) = regions (s.epAt n)) : AllocInv t := by
  simp only [regions, Prod.mk.injEq] at he
  refine ⟨hb ▸ h.bumpLow, ?_, hb ▸ h.bumpEven, fun n hn => ?_, fun n m hn hm hne an am => ?_⟩
  · rw [hb, hc]; exact h.bumpHigh
  · obtain ⟨ea, etb, ets, erb, ers⟩ := he n hn
    have := h.entries n hn
    unfold EntryOk at this ⊢
    rwa [ea, etb, ets, erb, ers, hb]
  · obtain ⟨ea, etb, ets, erb, ers⟩ := he n hn
    obtain ⟨ea', etb', ets', erb', ers'⟩ := he m hm
    rw [etb, erb, ers, etb', erb', ers']
    exact h.disjoint n m hn hm hne (ea ▸ an) (ea' ▸ am)

theorem AllocInv.of_table {s t : State} (h : AllocInv s) (hc : t.cfg = s.cfg) (hb : t.bump = s.bump) (he : t.ep = s.ep) :
    AllocInv t := h.congr hc hb fun n _ => by rw [epAt_congr he]

/-- Latching the snapshot of an entry leaves its regions (R254). -/
theorem AllocInv.latched {s t : State} (h : AllocInv s) {n : Nat} (hn : n < nEp) (r w : Half) (hc : t.cfg = s.cfg)
    (hb : t.bump = s.bump) (he : t.ep = s.ep.setIfInBounds n (snapped (s.epAt n) r w)) : AllocInv t :=
  h.congr hc hb fun m _ => by
    rw [epAt_congr (s := s.setEp n (snapped (s.epAt n) r w)) he, epAt_setEp s n m _ hn]
    split
    · rename_i e; rw [← e, regions_snapped]
    · rfl

/-- REWIND leaves an empty table, with the bump pointer above the buffer table (R170). -/
theorem allocInv_rewind {s : State} (hc : s.cfg.wf) : AllocInv (rewind s) := by
  have hz : ∀ n, (rewind s).epAt n = Endpoint.zero := fun n => by
    by_cases h : n < 8 <;> simp [State.epAt, rewind, h]
  have hl : bumpInit + 2 * s.cfg.ep0Size ≤ s.cfg.pmaSize := hc.pmaLower
  refine ⟨by simp [rewind], ?_, by simp [rewind], fun n _ => ?_, fun n _ _ _ _ an => ?_⟩
  · show 64 ≤ s.cfg.pmaSize
    simp only [bumpInit] at hl
    omega
  · rw [hz]; exact ⟨rfl, rfl, rfl, rfl⟩
  · rw [hz] at an; cases an

/-- The checks of R161 that a successful ALLOCATE has passed. -/
theorem allocPasses_iff {n : BitVec 4} {tx rx : Half} {s : State} :
    AllocPasses n tx rx s ↔ n.toNat < nEp ∧ tx.toNat ≤ s.cfg.pmaSize ∧ rx.toNat ≤ s.cfg.pmaSize ∧
      s.bump.toNat + tx.toNat + rx.toNat ≤ s.cfg.pmaSize ∧ rxGranularityOk rx.toNat = true := by
  unfold AllocPasses allocCheck
  split
  · exact iff_of_false nofun (by omega)
  · split
    · exact iff_of_false nofun (by omega)
    · split
      · exact iff_of_false nofun (by omega)
      · split
        · exact iff_of_true rfl ⟨by omega, by omega, by omega, by omega, ‹_›⟩
        · rename_i hg
          exact iff_of_false nofun fun ⟨_, _, _, _, h⟩ => hg h

theorem even_of_rxGranularityOk {n : Nat} (h : rxGranularityOk n = true) : n % 2 = 0 := by
  simp only [rxGranularityOk, Bool.and_eq_true, beq_iff_eq] at h
  exact h.1.1

theorem even_of_getLsbD_zero {w : Half} (h : w.getLsbD 0 = false) : w.toNat % 2 = 0 := by
  simp only [BitVec.getLsbD, Nat.testBit_zero, decide_eq_false_iff_not] at h
  omega

/-- An entry below the bump pointer stays below a higher one. -/
theorem EntryOk.mono {b b' : Nat} {e : Endpoint} (h : EntryOk b e) (hb : b ≤ b') : EntryOk b' e := by
  unfold EntryOk at h ⊢
  split
  · rename_i ha
    rw [if_pos ha] at h
    obtain ⟨h1, h2, h3, h4, h5, h6⟩ := h
    exact ⟨h1, h2, h3, h4, h5, h6.trans hb⟩
  · rename_i ha
    rwa [if_neg ha] at h

theorem EntryOk.rx_end_le {b : Nat} {e : Endpoint} (h : EntryOk b e) (ha : e.allocated = true) :
    e.rxBase.toNat + e.rxSize.toNat ≤ b := by
  unfold EntryOk at h
  rw [if_pos ha] at h
  exact h.2.2.2.2.2

/-- A successful ALLOCATE of even sizes takes its regions above those of every other entry (R161, R164). -/
theorem allocInv_recorded {s : State} (h : AllocInv s) (hc : s.cfg.wf) {n : BitVec 4} {tx rx : Half}
    (hok : AllocPasses n tx rx s) (he : tx.toNat % 2 = 0) (ty : EpType) (k : BitVec 1) :
    AllocInv (recorded n ty tx rx k s) := by
  obtain ⟨hn, -, -, hroom, hg⟩ := allocPasses_iff.mp hok
  have hu := hc.pmaUpper
  have hrx := even_of_rxGranularityOk hg
  have hbl := h.bumpLow
  have hbe := h.bumpEven
  have hbtx : (s.bump + tx).toNat = s.bump.toNat + tx.toNat := by rw [BitVec.toNat_add]; omega
  have hb : (s.bump + tx + rx).toNat = s.bump.toNat + tx.toNat + rx.toNat := by
    rw [BitVec.toNat_add, hbtx]; omega
  have hat : ∀ m, (recorded n ty tx rx k s).epAt m =
      if n.toNat = m then allocEntry s.bump n.toNat ty tx rx k else s.epAt m :=
    fun m => epAt_setEp s _ m _ hn
  refine ⟨?_, ?_, ?_, fun m hm => ?_, fun m m' hm hm' hne am am' => ?_⟩
  · show bumpInit ≤ (s.bump + tx + rx).toNat; omega
  · show (s.bump + tx + rx).toNat ≤ s.cfg.pmaSize; omega
  · show (s.bump + tx + rx).toNat % 2 = 0; omega
  · rw [hat]
    show EntryOk (s.bump + tx + rx).toNat _
    split
    · exact ⟨hbl, hbe, he, hbtx, hg, by show (s.bump + tx).toNat + rx.toNat ≤ _; omega⟩
    · exact (h.entries m hm).mono (by omega)
  · rw [hat] at am am' ⊢
    rw [hat m']
    split at am
    · split at am'
      · omega
      · rw [if_pos ‹_›, if_neg ‹_›]
        exact .inr ((h.entries m' hm').rx_end_le am')
    · split at am'
      · rw [if_neg ‹_›, if_pos ‹_›]
        exact .inl ((h.entries m hm).rx_end_le am)
      · rw [if_neg ‹_›, if_neg ‹_›]
        exact h.disjoint m m' hm hm' hne am am'

theorem even_ep0SizeWord {s : State} (hc : s.cfg.wf) : (ep0SizeWord s).toNat % 2 = 0 := by
  unfold ep0SizeWord
  rcases hc.ep0Size with h | h | h | h <;> rw [h] <;> decide

/-- The engine's effect of a step keeps the allocator's invariant. -/
theorem StepEffect.allocInv {s v : State} (h : StepEffect s v) (hc : s.cfg.wf) (hi : AllocInv s) : AllocInv v := by
  cases h with
  | kept hv => exact hi.of_table hv.cfg hv.bump hv.ep
  | entered _ hv => exact hi.of_table hv.cfg hv.bump hv.ep
  | exited _ hv => exact hi.of_table hv.cfg hv.bump hv.ep
  | moved _ _ _ _ _ _ hv => exact hi.of_table hv.cfg hv.bump hv.ep
  | allocated n ty tx rx k _ he hok hv => exact (allocInv_recorded hi hc hok (even_of_getLsbD_zero he) ty k).of_table hv.cfg hv.bump hv.ep
  | reset m _ hm hv =>
    have hr : AllocInv m := by
      rcases hm with rfl | ⟨hok, rfl⟩
      · exact allocInv_rewind hc
      · exact allocInv_recorded (allocInv_rewind hc) hc hok (even_ep0SizeWord hc) _ _
    exact hr.of_table hv.cfg hv.bump hv.ep
  | served _ r w _ _ _ _ _ _ hn _ _ _ hv => exact hi.latched hn r w hv.cfg hv.bump hv.ep
  | dispatched _ _ _ _ _ _ _ _ _ hv => exact hi.of_table hv.cfg hv.bump hv.ep

/-- Settles O53, case by case over the effects of a step: only ALLOCATE and RESET_BRANCH write the regions. -/
theorem stepKeepsAllocator : Obligations.StepKeepsAllocator := by
  unfold Obligations.StepKeepsAllocator
  intro s t hc hi h
  obtain ⟨v, hv, rfl⟩ := step_effect h
  obtain ⟨m, q, hl⟩ := left_shape v
  rw [hl]
  exact (hv.allocInv hc hi).of_table rfl rfl rfl

end Sys2Proof.Machine
end

section
/-! The interrupt mask, the sequencer and the phase (R35, R243, R258, R317, R318). -/

namespace Sys2Proof.Machine

/-- Ending a wait by its bound stays inside the invocation and away from the Dispatch point. -/
theorem Kept.modeInv {s t : State} (hk : Kept s t) (h : ModeInv s) : ModeInv t := by
  rcases hk.seq with hq | ⟨hw, hq⟩
  · exact ⟨by rw [hk.irqMasked, hq]; exact h.masked, by rw [hk.phase, hq]; exact h.dispatch⟩
  · refine ⟨?_, fun hp => ?_⟩
    · rw [hk.irqMasked, h.masked, hq, hw]; simp
    · have := h.dispatch (hk.phase ▸ hp)
      rw [hw] at this; cases this

theorem ModeInv.left {s : State} (h : ModeInv s) : ModeInv (left s) := by
  by_cases hl : s.seq = .run .leave
  · rw [left_of_leave hl]
    refine ⟨by simp, fun hp => ?_⟩
    have := h.dispatch hp
    rw [hl] at this; cases this
  · rwa [left_of_ne hl]

/-- Away from the Dispatch point the phase is another one. -/
theorem ModeInv.phase_ne {s : State} (h : ModeInv s) (hs : s.seq ≠ .run .dispatch) : s.phase ≠ .dispatch :=
  fun hp => hs (h.dispatch hp)

/-- Inside an invocation, masked, with the phase Dispatch only at the Dispatch point. -/
theorem modeInv_of_running {s : State} (hm : s.irqMasked = true) (hq : s.seq ≠ .idle)
    (hp : s.phase = .dispatch → s.seq = .run .dispatch) : ModeInv s :=
  ⟨⟨fun _ => hq, fun _ => hm⟩, hp⟩

/-- The engine's effect of a step keeps the mode invariant. -/
theorem StepEffect.modeInv {s v : State} (h : StepEffect s v) (hi : ModeInv s) : ModeInv v := by
  have running : s.seq ≠ .idle → s.irqMasked = true := hi.masked.mpr
  cases h with
  | kept hv => exact hv.modeInv hi
  | entered hs hv =>
    have hp := hi.phase_ne (by simp [hs])
    exact hv.modeInv (modeInv_of_running rfl (by simp [enterInterrupt]) fun h => absurd h hp)
  | exited hs hv =>
    have hp := hi.phase_ne hs
    exact hv.modeInv ⟨by simp [exitInterrupt], fun h => absurd h hp⟩
  | moved q dl hn hs hq _ hv =>
    have hp := hi.phase_ne hs
    exact hv.modeInv (modeInv_of_running (running hn) hq fun h => absurd h hp)
  | allocated n ty tx rx k hs _ _ hv => exact hv.modeInv ⟨hi.masked, hi.dispatch⟩
  | reset m hs hm hv =>
    have hk : m.irqMasked = s.irqMasked := by rcases hm with rfl | ⟨-, rfl⟩ <;> rfl
    exact hv.modeInv (modeInv_of_running (hk.trans (running (by simp [hs]))) (by simp [resetRegisters])
      (by simp [resetRegisters]))
  | served n r w l ph da dv q hs _ _ _ hp hv =>
    have hm := running (by simp [hs])
    have hne := hi.phase_ne (by simp [hs])
    rcases hp with ⟨rfl, rfl⟩ | ⟨hph, hq⟩
    · exact hv.modeInv (modeInv_of_running hm (by simp) fun _ => rfl)
    · have hd : ph ≠ .dispatch := by rcases hph with rfl | rfl <;> simp [hne]
      exact hv.modeInv (modeInv_of_running hm (by rcases hq with rfl | rfl <;> simp) fun h => absurd h hd)
  | dispatched ph dl dv q hs hph hq _ _ hv =>
    have hm := running (by simp [hs])
    exact hv.modeInv (modeInv_of_running hm (by rcases hq with rfl | rfl <;> simp) fun h => absurd h hph)

/-- Settles O54, case by case over the effects of a step. -/
theorem stepKeepsMode : Obligations.StepKeepsMode := by
  unfold Obligations.StepKeepsMode
  intro s t hi h
  obtain ⟨v, hv, rfl⟩ := step_effect h
  exact (hv.modeInv hi).left

end Sys2Proof.Machine
end

section
/-! The scratch length, the logs and the device status (R30, R31, R36, R47, R323, R334). -/

namespace Sys2Proof.Machine

/-- The scratch length changes in RESET_BRANCH, to 0, and in COPY_EP0, within the capacity (R252, R255). -/
theorem StepEffect.scratchLen_cases {s v : State} (h : StepEffect s v) :
    v.scratchLen = s.scratchLen ∨ v.scratchLen = 0 ∨ v.scratchLen.toNat ≤ s.cfg.scratchCap := by
  cases h with
  | kept hv => exact .inl hv.scratchLen
  | entered _ hv => exact .inl hv.scratchLen
  | exited _ hv => exact .inl hv.scratchLen
  | moved _ _ _ _ _ _ hv => exact .inl hv.scratchLen
  | allocated _ _ _ _ _ _ _ _ hv => exact .inl hv.scratchLen
  | reset _ _ _ hv => exact .inr (.inl hv.scratchLen)
  | served _ _ _ l _ _ _ _ _ _ hl _ _ hv =>
    rw [show v.scratchLen = l from hv.scratchLen]
    exact hl.imp_right .inr
  | dispatched _ _ _ _ _ _ _ _ _ hv => exact .inl hv.scratchLen

/-- Settles O55: whatever COPY_EP0 copies is cut to the capacity. -/
theorem stepKeepsScratchBound : Obligations.StepKeepsScratchBound := by
  unfold Obligations.StepKeepsScratchBound
  intro s t _ hi h
  obtain ⟨v, hv, rfl⟩ := step_effect h
  rw [left_scratchLen, left_cfg, hv.cfg_eq]
  rcases hv.scratchLen_cases with hl | hl | hl
  · rwa [hl]
  · rw [hl]; exact Nat.zero_le _
  · exact hl

/-- The diagnostic log is extended or as it was (R36). -/
theorem StepEffect.diagLog_extended {s v : State} (h : StepEffect s v) : s.diagLog <+: v.diagLog := by
  have same : v.diagLog = s.diagLog → s.diagLog <+: v.diagLog := fun e => e ▸ List.prefix_refl _
  cases h with
  | kept hv => exact same hv.diagLog
  | entered _ hv => exact same hv.diagLog
  | exited _ hv => exact same hv.diagLog
  | moved _ dl _ _ _ hl hv => rwa [show v.diagLog = dl from hv.diagLog]
  | allocated _ _ _ _ _ _ _ _ hv => exact same hv.diagLog
  | reset m _ hm hv =>
    have hd : m.diagLog = s.diagLog := by rcases hm with rfl | ⟨-, rfl⟩ <;> rfl
    exact same (hv.diagLog.trans hd)
  | served _ _ _ _ _ _ _ _ _ _ _ _ _ hv => exact same hv.diagLog
  | dispatched _ dl _ _ _ _ _ hl _ hv => rwa [show v.diagLog = dl from hv.diagLog]

/-- Settles O58. -/
theorem logsAppendOnly : Obligations.LogsAppendOnly := by
  unfold Obligations.LogsAppendOnly
  intro s t h
  obtain ⟨v, hv, rfl⟩ := step_effect h
  simp only [left_diagLog, left_wireIn, left_cfg]
  exact ⟨hv.diagLog_extended, hv.linked.wire, hv.cfg_eq⟩

/-- Settles O60: the device state is written in RESET_BRANCH, by ADDRESS_APPLY and by an operation of format SETUP only. -/
theorem deviceStatusTransitions : Obligations.DeviceStatusTransitions := by
  unfold Obligations.DeviceStatusTransitions
  intro s t h hne
  obtain ⟨v, hv, rfl⟩ := step_effect h
  rw [left_dev] at hne ⊢
  rw [left_daddr]
  cases hv with
  | kept hv => exact absurd (congrArg Dev.status hv.dev) hne
  | entered _ hv => exact absurd (congrArg Dev.status hv.dev) hne
  | exited _ hv => exact absurd (congrArg Dev.status hv.dev) hne
  | moved _ _ _ _ _ _ hv => exact absurd (congrArg Dev.status hv.dev) hne
  | allocated _ _ _ _ _ _ _ _ hv => exact absurd (congrArg Dev.status hv.dev) hne
  | reset m hs _ hv => exact .inl ⟨congrArg Dev.status hv.dev, hs⟩
  | served _ _ _ _ _ da dv _ hs _ _ hd _ hv =>
    have ev : v.dev = dv := hv.dev
    have ea : v.daddr = da := hv.daddr
    rcases hd with ⟨-, hdv⟩ | ⟨hda, hdv⟩
    · exact absurd (by rw [ev, hdv]) hne
    · exact .inr (.inl ⟨by rw [ev, hdv], hs, ea.trans hda⟩)
  | dispatched _ _ dv _ hs _ _ _ hd hv =>
    have ev : v.dev = dv := hv.dev
    rcases hd with hd | ⟨x, y, z, hi, hst, hcf⟩
    · exact absurd (by rw [ev, hd]) hne
    · exact .inr (.inr ⟨by rw [ev, hst], hs, x, y, z, hi, by rw [ev, hcf]⟩)

end Sys2Proof.Machine
end

section
/-! The register write rule, the interrupt-status word and the state after power-on (R42, R44, R50, R335). -/

namespace Sys2Proof.Machine

/-! ## The write rule -/

/-- The write rule bit by bit: which bits are and-ed, exclusive-or-ed, kept and replaced (R42). -/
theorem getLsbD_writeRule (old v : Half) (k : Nat) :
    (writeRule old v).getLsbD k =
      (old.getLsbD k && v.getLsbD k && (0x8080#16).getLsbD k || (old.getLsbD k ^^ v.getLsbD k) && (0x7070#16).getLsbD k ||
        old.getLsbD k && (0x0800#16).getLsbD k || v.getLsbD k && (0x070F#16).getLsbD k) := by
  simp only [writeRule, BitVec.getLsbD_or, BitVec.getLsbD_and, BitVec.getLsbD_xor]

/-- The flags, CTR_RX and CTR_TX, are and-ed. -/
theorem getLsbD_writeRule_flag (old v : Half) {k : Nat} (hk : k ∈ [7, 15]) :
    (writeRule old v).getLsbD k = (old.getLsbD k && v.getLsbD k) := by
  rw [getLsbD_writeRule]
  fin_cases hk <;> simp

/-- The toggles and the two status fields are exclusive-or-ed. -/
theorem getLsbD_writeRule_toggle (old v : Half) {k : Nat} (hk : k ∈ [4, 5, 6, 12, 13, 14]) :
    (writeRule old v).getLsbD k = (old.getLsbD k ^^ v.getLsbD k) := by
  rw [getLsbD_writeRule]
  fin_cases hk <;> simp

/-- SETUP is kept. -/
theorem getLsbD_writeRule_setup (old v : Half) : (writeRule old v).getLsbD 11 = old.getLsbD 11 := by
  rw [getLsbD_writeRule]
  simp

/-- Type, kind and address are replaced. -/
theorem getLsbD_writeRule_replaced (old v : Half) {k : Nat} (hk : k ∈ [0, 1, 2, 3, 8, 9, 10]) :
    (writeRule old v).getLsbD k = v.getLsbD k := by
  rw [getLsbD_writeRule]
  fin_cases hk <;> simp

/-- A field of toggle bits is exclusive-or-ed. -/
theorem extractLsb'_writeRule_toggle (old v : Half) (lo len : Nat) (h : ∀ k, k < len → lo + k ∈ [4, 5, 6, 12, 13, 14]) :
    (writeRule old v).extractLsb' lo len = old.extractLsb' lo len ^^^ v.extractLsb' lo len := by
  apply BitVec.eq_of_getLsbD_eq
  intro k hk
  simp only [BitVec.getLsbD_xor, BitVec.getLsbD_extractLsb', hk, decide_true, Bool.true_and]
  exact getLsbD_writeRule_toggle old v (h k hk)

/-- A field of replaced bits is the one written. -/
theorem extractLsb'_writeRule_replaced (old v : Half) (lo len : Nat)
    (h : ∀ k, k < len → lo + k ∈ [0, 1, 2, 3, 8, 9, 10]) :
    (writeRule old v).extractLsb' lo len = v.extractLsb' lo len := by
  apply BitVec.eq_of_getLsbD_eq
  intro k hk
  simp only [BitVec.getLsbD_extractLsb', hk, decide_true, Bool.true_and]
  exact getLsbD_writeRule_replaced old v (h k hk)

/-- Settles O8: each field lies in one of the four groups of bits. -/
theorem writeRuleByField : Obligations.WriteRuleByField := by
  unfold Obligations.WriteRuleByField
  intro old v
  exact ⟨getLsbD_writeRule_flag old v (by decide), getLsbD_writeRule_toggle old v (by decide),
    extractLsb'_writeRule_toggle old v 12 2 (by decide), getLsbD_writeRule_setup old v,
    extractLsb'_writeRule_replaced old v 9 2 (by decide), getLsbD_writeRule_replaced old v (by decide),
    getLsbD_writeRule_flag old v (by decide), getLsbD_writeRule_toggle old v (by decide),
    extractLsb'_writeRule_toggle old v 4 2 (by decide), extractLsb'_writeRule_replaced old v 0 4 (by decide)⟩

/-! ## The interrupt-status word -/

theorem mem_flaggedList {s : State} {n : Nat} : n ∈ s.flaggedList ↔ n < nEp ∧ s.flagged n = true := by
  simp [State.flaggedList]

theorem flaggedList_ne_nil {s : State} (h : s.istrCtr = true) : s.flaggedList ≠ [] := by
  obtain ⟨n, hn, hf⟩ := List.any_eq_true.mp h
  exact List.ne_nil_of_mem (mem_flaggedList.mpr ⟨List.mem_range.mp hn, hf⟩)

/-- A draw selects a member of the list: itself, or the one at its remainder. -/
theorem selected_mem {ns : List Nat} (h : ns ≠ []) (d : Nat) :
    (if ns.contains d then d else ns.getD (d % ns.length) 0) ∈ ns := by
  split
  · rename_i hc; exact List.contains_iff_mem.mp hc
  · rw [List.getD_eq_getElem _ _ (Nat.mod_lt _ (List.length_pos_of_ne_nil h))]
    exact List.getElem_mem _

/-- Whatever the draw, the endpoint picked is one of the flagged (R335). -/
theorem pickEp_mem_flaggedList {s : State} (h : s.istrCtr = true) : s.pickEp.1 ∈ s.flaggedList := by
  have hne := flaggedList_ne_nil h
  unfold State.pickEp
  split
  · rename_i e; exact absurd e hne
  · rename_i n e; rw [e]; exact List.mem_singleton_self n
  · exact selected_mem hne _

/-- The fields of a word with CTR = 1 (R44). -/
theorem istrWord_fields_of_ctr (r d : Bool) (n : Fin 8) :
    let i : Half := 0x8000#16 ||| (if r then 0x0400#16 else 0) ||| (if d then 0x0010#16 else 0) ||| BitVec.ofNat 16 n
    i.getLsbD 15 = true ∧ i.getLsbD 10 = r ∧ interruptingEndpoint i = BitVec.ofNat 4 n ∧ i.getLsbD 4 = d := by
  revert r d n
  decide

theorem istrWord_of_ctr {s : State} (h : s.istrCtr = true) {n : Nat} (hn : n < 8) :
    (s.istrWord n).getLsbD 15 = true ∧ (s.istrWord n).getLsbD 10 = s.istrReset ∧
    interruptingEndpoint (s.istrWord n) = BitVec.ofNat 4 n ∧ (s.istrWord n).getLsbD 4 = ctrRx (s.eprAt n) := by
  unfold State.istrWord
  rw [if_pos h]
  exact istrWord_fields_of_ctr s.istrReset (ctrRx (s.eprAt n)) ⟨n, hn⟩

/-- Settles O51. -/
theorem interruptStatusNamesFlaggedEndpoint : Obligations.InterruptStatusNamesFlaggedEndpoint := by
  unfold Obligations.InterruptStatusNamesFlaggedEndpoint
  intro s hq h
  obtain ⟨hn, hf⟩ := mem_flaggedList.mp (pickEp_mem_flaggedList h)
  have hw : (readIstr s).1 = s.istrWord s.pickEp.1 := by simp only [readIstr, pause_of_quiet hq]
  obtain ⟨hctr, hreset, hep, hdir⟩ := istrWord_of_ctr h hn
  have hne : (interruptingEndpoint (s.istrWord s.pickEp.1)).toNat = s.pickEp.1 := by
    rw [hep, BitVec.toNat_ofNat]; exact Nat.mod_eq_of_lt (hn.trans (by decide))
  intro i
  rw [show i = s.istrWord s.pickEp.1 from hw, hne]
  exact ⟨hctr, hreset, hn, hf, hdir⟩

/-! ## Power-on -/

theorem epAt_reset (n : Nat) : State.reset.epAt n = Endpoint.zero := by
  by_cases h : n < 8 <;> simp [State.epAt, State.reset, h]

theorem eprAt_reset (n : Nat) : State.reset.eprAt n = 0x0000#16 := by
  by_cases h : n < 8 <;> simp [State.eprAt, State.reset, h]

theorem wf_testConfig : testConfig.wf where
  ep0Size := .inr (.inr (.inr rfl))
  pmaEven := rfl
  pmaLower := by decide
  pmaUpper := by decide
  rqHid := by decide

theorem memInv_reset : MemInv State.reset := ⟨rfl, rfl⟩

theorem allocInv_reset : AllocInv State.reset :=
  (allocInv_rewind wf_testConfig : AllocInv (rewind State.reset)).of_table rfl rfl rfl

theorem modeInv_reset : ModeInv State.reset := ⟨by decide, by decide⟩

theorem istrCtr_reset : State.reset.istrCtr = false := by
  simp [State.istrCtr, State.flagged, eprAt_reset, ctrRx, ctrTx]

/-- Settles O56. -/
theorem resetState : Obligations.ResetState := by
  unfold Obligations.ResetState
  exact ⟨wf_testConfig, memInv_reset, allocInv_reset, modeInv_reset, rfl, epAt_reset, eprAt_reset, rfl, istrCtr_reset,
    rfl, rfl, rfl, rfl, rfl, rfl, rfl, rfl, rfl, rfl⟩

end Sys2Proof.Machine
end

section
/-! Packet memory's canonical form and its bounds (R71, R72, R73, R332, R333). -/

namespace Sys2Proof.Machine

/-- Every step only extends the wire log and keeps the memory invariant, whatever moves of the SIE fall between its
accesses (R71, R82, R334). -/
theorem step_linked {s t : State} (h : step s = .next t) : Linked s t := by
  obtain ⟨v, hv, rfl⟩ := step_effect h
  obtain ⟨m, q, hl⟩ := left_shape v
  rw [hl]
  exact hv.linked.congr

/-- Settles O52: the engine stores only units that lie inside packet memory, the SIE only packets whose buffer does, and a
store at an offset inside keeps the canonical form. -/
theorem stepKeepsPacketMemory : Obligations.StepKeepsPacketMemory := by
  unfold Obligations.StepKeepsPacketMemory
  intro s t hc hi h
  exact (step_linked h).mem hc hi

end Sys2Proof.Machine
end

section
/-! The encoding (R105, R106, R108, R111): each format's decoder inverts the encoder, every Setup Packet is the word
of one operation, the classification by fields is the mask and match table, and an endpoint number outside the table is
refused. -/

namespace Sys2Proof

/-! ## Format SETUP: what the classification selects -/

@[simp] theorem decodeSetup_packSetup (rqHid bm rq : Byte) (v i l : Half) :
    decodeSetup rqHid (packSetup bm rq v i l) = decodeFields rqHid bm rq v i l := by
  simp only [decodeSetup, bmRequestTypeOf_packSetup, bRequestOf_packSetup, wValueOf_packSetup, wIndexOf_packSetup,
    wLengthOf_packSetup]

/-- The keys of rows 2 to 8 of R105, one by one. -/
theorem contains_deviceDescriptorKeys_eq_false {v : Half} :
    deviceDescriptorKeys.contains v = false ↔
      v ≠ 0x0100#16 ∧ v ≠ 0x0200#16 ∧ v ≠ 0x0300#16 ∧ v ≠ 0x0301#16 ∧ v ≠ 0x0302#16 ∧ v ≠ 0x0303#16 ∧ v ≠ 0x0600#16 := by
  simp [deviceDescriptorKeys]

/-- What FALLBACK keeps are the tests of the tree that all fail. -/
theorem fallbackSelected_iff {rqHid bm rq : Byte} {v : Half} :
    fallbackSelected rqHid bm rq v = true ↔
      bm ≠ 0x80#8 ∧ bm ≠ 0x00#8 ∧ ¬(bm = 0x81#8 ∧ rq = 0x06#8 ∧ v = 0x2200#16) ∧
      ¬((bm = 0x02#8 ∨ bm = 0x82#8) ∧ rq = 0x01#8) ∧ ¬(bm = 0x21#8 ∧ rq = 0x0A#8) ∧ ¬(bm = 0x21#8 ∧ rq = rqHid) := by
  simp only [fallbackSelected, Bool.and_eq_true, bne_iff_ne, Bool.not_eq_true', ← Bool.not_eq_true, Bool.or_eq_true,
    beq_iff_eq, and_or_left, not_or, and_assoc]

theorem decodeFields_getGroup (rqHid rq : Byte) (v i l : Half) :
    decodeFields rqHid 0x80#8 rq v i l = decodeGetGroup rq v i l := rfl

theorem decodeFields_setGroup (rqHid rq : Byte) (v i l : Half) :
    decodeFields rqHid 0x00#8 rq v i l = decodeSetGroup rq v i l := rfl

/-- Row 9 of R105. -/
theorem decodeGetGroup_of_unknownDescriptor {v : Half} (h : deviceDescriptorKeys.contains v = false) (i l : Half) :
    decodeGetGroup 0x06#8 v i l = .getDescUnknown v i l := by
  simp [decodeGetGroup, contains_deviceDescriptorKeys_eq_false.mp h]

/-- Row 11 of R105. -/
theorem decodeGetGroup_of_unknownRequest {rq : Byte} (h0 : rq ≠ 0x00#8) (h6 : rq ≠ 0x06#8) (h8 : rq ≠ 0x08#8)
    (v i l : Half) : decodeGetGroup rq v i l = .stdDevGetUnknown rq v i l := by
  rw [decodeGetGroup, if_neg h0, if_neg h6, if_neg h8]

/-- Row 14 of R105. -/
theorem decodeSetGroup_of_unknownRequest {rq : Byte} (h5 : rq ≠ 0x05#8) (h9 : rq ≠ 0x09#8) (v i l : Half) :
    decodeSetGroup rq v i l = .stdDevSetUnknown rq v i l := by
  rw [decodeSetGroup, if_neg h5, if_neg h9]

/-- Row 16 of R105, for either direction. -/
theorem decodeFields_clearFeatureEp (rqHid : Byte) (dir : BitVec 1) (v i l : Half) :
    decodeFields rqHid (dir ++ 0x02#7) 0x01#8 v i l = .clearFeatureEp dir v i l := by
  obtain rfl | rfl : dir = 0#1 ∨ dir = 1#1 := by revert dir; decide
  · rfl
  · rfl

/-- Row 18 of R105: the request code of row 17 would select SET_IDLE. -/
theorem decodeFields_hidSetFeature {rqHid : Byte} (h : rqHid ≠ 0x0A#8) (v i l : Half) :
    decodeFields rqHid 0x21#8 rqHid v i l = .hidSetFeature v i l := by
  simp [decodeFields, h]

/-- Row 19 of R105. -/
theorem decodeFields_fallback {rqHid bm rq : Byte} {v : Half} (h : fallbackSelected rqHid bm rq v = true) (i l : Half) :
    decodeFields rqHid bm rq v i l = .fallback bm rq v i l := by
  obtain ⟨hget, hset, hrep, hclr, hidle, hfeat⟩ := fallbackSelected_iff.mp h
  rw [decodeFields, if_neg hget, if_neg hset, if_neg hrep, if_neg hclr, if_neg hidle, if_neg hfeat]

/-! ## Formats IRQ and CMD -/

/-- The endpoint number reaches neither bit 10 nor the bits that select the row. -/
theorem decodeIstr_out (n : BitVec 4) : decodeIstr (0x8010#16 ||| n.setWidth 16) = some (.irqCtrOut n) := by
  revert n; decide

theorem decodeIstr_in (n : BitVec 4) : decodeIstr (0x8000#16 ||| n.setWidth 16) = some (.irqCtrIn n) := by
  revert n; decide

/-! ## Every operation decodes from its word -/

/-- Settles O2: an operation with fixed fields meets its own test in the tree, a catch-all operation fails the earlier
tests by its well-formedness. -/
theorem decodeEncodeRoundTrip : Obligations.DecodeEncodeRoundTrip := by
  unfold Obligations.DecodeEncodeRoundTrip
  intro rqHid i h
  cases i with
  | getDescUnknown v x l =>
    have hv : deviceDescriptorKeys.contains v = false := by simpa [Instr.wellFormed] using h
    simp only [encode, decode, decodeSetup_packSetup, decodeFields_getGroup, decodeGetGroup_of_unknownDescriptor hv]
  | stdDevGetUnknown rq v x l =>
    obtain ⟨⟨h0, h6⟩, h8⟩ : (rq ≠ 0x00#8 ∧ rq ≠ 0x06#8) ∧ rq ≠ 0x08#8 := by simpa [Instr.wellFormed] using h
    simp only [encode, decode, decodeSetup_packSetup, decodeFields_getGroup, decodeGetGroup_of_unknownRequest h0 h6 h8]
  | stdDevSetUnknown rq v x l =>
    obtain ⟨h5, h9⟩ : rq ≠ 0x05#8 ∧ rq ≠ 0x09#8 := by simpa [Instr.wellFormed] using h
    simp only [encode, decode, decodeSetup_packSetup, decodeFields_setGroup, decodeSetGroup_of_unknownRequest h5 h9]
  | clearFeatureEp dir v x l => simp only [encode, decode, decodeSetup_packSetup, decodeFields_clearFeatureEp]
  | hidSetFeature v x l =>
    have hrq : rqHid ≠ 0x0A#8 := by simpa [Instr.wellFormed] using h
    simp only [encode, decode, decodeSetup_packSetup, decodeFields_hidSetFeature hrq]
  | fallback bm rq v x l => simp only [encode, decode, decodeSetup_packSetup, decodeFields_fallback h]
  | irqCtrOut n => simp only [encode, decode, decodeIstr_out]
  | irqCtrIn n => simp only [encode, decode, decodeIstr_in]
  | allocate n t tx rx k => simp [encode, decode, decodeCmd]
  | write n data => simp [encode, decode, decodeCmd, Port.plain, of_decide_eq_true h]
  | writeIrq n data => simp [encode, decode, decodeCmd, Port.plain, of_decide_eq_true h]
  | irqReset => rfl
  | getState => rfl
  | read n => rfl
  | _ => simp only [encode, decode, decodeSetup_packSetup]; rfl

/-! ## Every Setup Packet is the word of the operation it decodes to -/

theorem encode_decodeGetGroup (rqHid rq : Byte) (v i l : Half) :
    encode rqHid (decodeGetGroup rq v i l) = .setup (packSetup 0x80#8 rq v i l) := by
  unfold decodeGetGroup
  repeat' split
  all_goals subst_vars; rfl

theorem encode_decodeSetGroup (rqHid rq : Byte) (v i l : Half) :
    encode rqHid (decodeSetGroup rq v i l) = .setup (packSetup 0x00#8 rq v i l) := by
  unfold decodeSetGroup
  repeat' split
  all_goals subst_vars; rfl

theorem wellFormed_decodeGetGroup (rqHid rq : Byte) (v i l : Half) :
    (decodeGetGroup rq v i l).wellFormed rqHid = true := by
  unfold decodeGetGroup
  repeat' split
  all_goals simp [Instr.wellFormed, deviceDescriptorKeys, *]

theorem wellFormed_decodeSetGroup (rqHid rq : Byte) (v i l : Half) :
    (decodeSetGroup rq v i l).wellFormed rqHid = true := by
  unfold decodeSetGroup
  repeat' split
  all_goals simp [Instr.wellFormed, *]

theorem encode_decodeFields (rqHid bm rq : Byte) (v i l : Half) :
    encode rqHid (decodeFields rqHid bm rq v i l) = .setup (packSetup bm rq v i l) := by
  unfold decodeFields
  split
  · next hget => rw [hget]; exact encode_decodeGetGroup rqHid rq v i l
  split
  · next hset => rw [hset]; exact encode_decodeSetGroup rqHid rq v i l
  split
  · next hrep => obtain ⟨rfl, rfl, rfl⟩ := hrep; rfl
  split
  · next hclr => obtain ⟨rfl | rfl, rfl⟩ := hclr <;> rfl
  split
  · next hidle => obtain ⟨rfl, rfl⟩ := hidle; rfl
  split
  · next hfeat => obtain ⟨rfl, rfl⟩ := hfeat; rfl
  · rfl

theorem wellFormed_decodeFields (rqHid bm rq : Byte) (v i l : Half) :
    (decodeFields rqHid bm rq v i l).wellFormed rqHid = true := by
  unfold decodeFields
  split
  · exact wellFormed_decodeGetGroup rqHid rq v i l
  next hget =>
  split
  · exact wellFormed_decodeSetGroup rqHid rq v i l
  next hset =>
  split
  · rfl
  next hrep =>
  split
  · rfl
  next hclr =>
  split
  · rfl
  next hidle =>
  split
  · next hfeat =>
    obtain ⟨rfl, rfl⟩ := hfeat
    simpa [Instr.wellFormed] using hidle
  · next hfeat => exact fallbackSelected_iff.mpr ⟨hget, hset, hrep, hclr, hidle, hfeat⟩

/-- Settles O3: a Setup Packet is the word of its five fields, and the tree keeps all of them. -/
theorem setupWordsHaveOneMeaning : Obligations.SetupWordsHaveOneMeaning := by
  unfold Obligations.SetupWordsHaveOneMeaning
  intro rqHid w
  exact ⟨(encode_decodeFields ..).trans (congrArg FetchWord.setup (packSetup_fields w)), wellFormed_decodeFields ..⟩

/-! ## The mask and match table -/

/-- A mask acts on each field of the packet. -/
theorem packSetup_and (bm rq bm' rq' : Byte) (v i l v' i' l' : Half) :
    packSetup bm rq v i l &&& packSetup bm' rq' v' i' l' =
      packSetup (bm &&& bm') (rq &&& rq') (v &&& v') (i &&& i') (l &&& l') := by
  apply BitVec.eq_of_getLsbD_eq
  intro k _
  simp only [BitVec.getLsbD_and, getLsbD_packSetup]
  split_ifs <;> rfl

theorem packSetup_inj {bm rq bm' rq' : Byte} {v i l v' i' l' : Half} :
    packSetup bm rq v i l = packSetup bm' rq' v' i' l' ↔ bm = bm' ∧ rq = rq' ∧ v = v' ∧ i = i' ∧ l = l' := by
  constructor
  · intro h
    exact ⟨by simpa using congrArg bmRequestTypeOf h, by simpa using congrArg bRequestOf h,
      by simpa using congrArg wValueOf h, by simpa using congrArg wIndexOf h, by simpa using congrArg wLengthOf h⟩
  · rintro ⟨rfl, rfl, rfl, rfl, rfl⟩
    rfl

/-- The match of row 18, whose request code is the parameter. -/
theorem setWidth_append_eq_packSetup (bm rq : Byte) : (rq ++ bm).setWidth 64 = packSetup bm rq 0#16 0#16 0#16 := by
  rw [← packSetup_and_16 bm rq 0#16 0#16 0#16,
    show 0x0000FFFF#64 = packSetup (.allOnes 8) (.allOnes 8) 0#16 0#16 0#16 from rfl, packSetup_and]
  simp only [BitVec.and_allOnes, BitVec.and_zero]

/-- A word meets a row of the table. -/
def SetupRow.meets (w : BitVec 64) (r : SetupRow) : Bool := w &&& r.mask == r.pat

theorem firstRow_eq (rqHid : Byte) (w : BitVec 64) :
    firstRow rqHid w = (setupRows rqHid).findIdx? (SetupRow.meets w) := rfl

/-- A row by its fields: the mask and the match of `bmRequestType`, of `bRequest` and of `wValue`. -/
def fieldRow (bmMask bm rqMask rq : Byte) (vMask v : Half) : SetupRow :=
  ⟨packSetup bmMask rqMask vMask 0#16 0#16, packSetup bm rq v 0#16 0#16⟩

/-- A row that tests `bmRequestType` alone. -/
def recipientRow (bm : Byte) : SetupRow := fieldRow (.allOnes 8) bm 0#8 0#8 0#16 0#16

/-- A row that tests `bRequest` as well. -/
def requestRow (bm rq : Byte) : SetupRow := fieldRow (.allOnes 8) bm (.allOnes 8) rq 0#16 0#16

/-- A row that tests `wValue` as well. -/
def descriptorRow (bm rq : Byte) (v : Half) : SetupRow :=
  fieldRow (.allOnes 8) bm (.allOnes 8) rq (.allOnes 16) v

/-- The row of CLEAR_FEATURE, whose mask leaves the direction bit out. -/
def clearFeatureRow : SetupRow := fieldRow 0x7F#8 0x02#8 (.allOnes 8) 0x01#8 0#16 0#16

/-- The row of FALLBACK, which tests nothing. -/
def anyRow : SetupRow := fieldRow 0#8 0#8 0#8 0#8 0#16 0#16

section
variable (bm rq bm' rq' : Byte) (v i l v' : Half)

/-- The masks leave wIndex and wLength out of the selection. -/
theorem meets_fieldRow (bmMask rqMask : Byte) (vMask : Half) :
    (fieldRow bmMask bm' rqMask rq' vMask v').meets (packSetup bm rq v i l) =
      decide (bm &&& bmMask = bm' ∧ rq &&& rqMask = rq' ∧ v &&& vMask = v') := by
  simp only [SetupRow.meets, fieldRow, packSetup_and, beq_eq_decide, packSetup_inj, BitVec.and_zero, and_true]

theorem meets_recipientRow : (recipientRow bm').meets (packSetup bm rq v i l) = decide (bm = bm') := by
  simp only [recipientRow, meets_fieldRow, BitVec.and_allOnes, BitVec.and_zero, and_true]

theorem meets_requestRow : (requestRow bm' rq').meets (packSetup bm rq v i l) = decide (bm = bm' ∧ rq = rq') := by
  simp only [requestRow, meets_fieldRow, BitVec.and_allOnes, BitVec.and_zero, and_true]

theorem meets_descriptorRow :
    (descriptorRow bm' rq' v').meets (packSetup bm rq v i l) = decide (bm = bm' ∧ rq = rq' ∧ v = v') := by
  simp only [descriptorRow, meets_fieldRow, BitVec.and_allOnes]

theorem meets_clearFeatureRow : clearFeatureRow.meets (packSetup bm rq v i l) =
    decide ((bm = 0x02#8 ∨ bm = 0x82#8) ∧ rq = 0x01#8) := by
  have hdir : bm &&& 0x7F#8 = 0x02#8 ↔ bm = 0x02#8 ∨ bm = 0x82#8 := by revert bm; decide
  simp only [clearFeatureRow, meets_fieldRow, BitVec.and_allOnes, BitVec.and_zero, and_true, hdir]

theorem meets_anyRow : anyRow.meets (packSetup bm rq v i l) = true := by
  simp only [anyRow, meets_fieldRow, BitVec.and_zero, and_true, decide_true]

end

/-- The nineteen rows by the fields they test, the column "selects" of R105. -/
theorem setupRows_eq (rqHid : Byte) : setupRows rqHid =
    [ requestRow 0x80#8 0x00#8, descriptorRow 0x80#8 0x06#8 0x0100#16, descriptorRow 0x80#8 0x06#8 0x0200#16,
      descriptorRow 0x80#8 0x06#8 0x0300#16, descriptorRow 0x80#8 0x06#8 0x0301#16,
      descriptorRow 0x80#8 0x06#8 0x0302#16, descriptorRow 0x80#8 0x06#8 0x0303#16,
      descriptorRow 0x80#8 0x06#8 0x0600#16, requestRow 0x80#8 0x06#8, requestRow 0x80#8 0x08#8, recipientRow 0x80#8,
      requestRow 0x00#8 0x05#8, requestRow 0x00#8 0x09#8, recipientRow 0x00#8,
      descriptorRow 0x81#8 0x06#8 0x2200#16, clearFeatureRow, requestRow 0x21#8 0x0A#8,
      requestRow 0x21#8 rqHid, anyRow ] := by
  rw [setupRows, setWidth_append_eq_packSetup]
  rfl

/-- Whether each row of the table selects these fields, in the order of the rows. -/
def selections (rqHid bm rq : Byte) (v : Half) : List Bool :=
  [ bm = 0x80#8 ∧ rq = 0x00#8, bm = 0x80#8 ∧ rq = 0x06#8 ∧ v = 0x0100#16, bm = 0x80#8 ∧ rq = 0x06#8 ∧ v = 0x0200#16,
    bm = 0x80#8 ∧ rq = 0x06#8 ∧ v = 0x0300#16, bm = 0x80#8 ∧ rq = 0x06#8 ∧ v = 0x0301#16,
    bm = 0x80#8 ∧ rq = 0x06#8 ∧ v = 0x0302#16, bm = 0x80#8 ∧ rq = 0x06#8 ∧ v = 0x0303#16,
    bm = 0x80#8 ∧ rq = 0x06#8 ∧ v = 0x0600#16, bm = 0x80#8 ∧ rq = 0x06#8, bm = 0x80#8 ∧ rq = 0x08#8, bm = 0x80#8,
    bm = 0x00#8 ∧ rq = 0x05#8, bm = 0x00#8 ∧ rq = 0x09#8, bm = 0x00#8,
    bm = 0x81#8 ∧ rq = 0x06#8 ∧ v = 0x2200#16, (bm = 0x02#8 ∨ bm = 0x82#8) ∧ rq = 0x01#8,
    bm = 0x21#8 ∧ rq = 0x0A#8, bm = 0x21#8 ∧ rq = rqHid, true ]

theorem firstRow_packSetup (rqHid bm rq : Byte) (v i l : Half) :
    firstRow rqHid (packSetup bm rq v i l) = (selections rqHid bm rq v).findIdx? id := by
  have hmap : selections rqHid bm rq v = (setupRows rqHid).map (SetupRow.meets (packSetup bm rq v i l)) := by
    simp only [setupRows_eq, selections, List.map_cons, List.map_nil, meets_recipientRow, meets_requestRow,
      meets_descriptorRow, meets_clearFeatureRow, meets_anyRow]
  rw [firstRow_eq, hmap, List.findIdx?_map]
  rfl

theorem setupRow_decodeGetGroup (rqHid rq : Byte) (v i l : Half) :
    (decodeGetGroup rq v i l).setupRow = (selections rqHid 0x80#8 rq v).findIdx? id := by
  unfold decodeGetGroup
  repeat' split
  all_goals simp [Instr.setupRow, selections, List.findIdx?_cons, *]

theorem setupRow_decodeSetGroup (rqHid rq : Byte) (v i l : Half) :
    (decodeSetGroup rq v i l).setupRow = (selections rqHid 0x00#8 rq v).findIdx? id := by
  unfold decodeSetGroup
  repeat' split
  all_goals simp [Instr.setupRow, selections, List.findIdx?_cons, *]

/-- The tree and the table select the same row. -/
theorem setupRow_decodeFields (rqHid bm rq : Byte) (v i l : Half) :
    (decodeFields rqHid bm rq v i l).setupRow = (selections rqHid bm rq v).findIdx? id := by
  unfold decodeFields
  split
  · next hget => rw [hget]; exact setupRow_decodeGetGroup rqHid rq v i l
  next hget =>
  split
  · next hset => rw [hset]; exact setupRow_decodeSetGroup rqHid rq v i l
  next hset =>
  split
  · next hrep => simp [Instr.setupRow, selections, List.findIdx?_cons, hrep]
  next hrep =>
  split
  · next hclr => obtain ⟨rfl | rfl, rfl⟩ := hclr <;> rfl
  next hclr =>
  split
  · next hidle => obtain ⟨rfl, rfl⟩ := hidle; rfl
  next hidle =>
  split
  · next hfeat =>
    obtain ⟨rfl, rfl⟩ := hfeat
    have hrq : rq ≠ 0x0A#8 := fun h => hidle ⟨rfl, h⟩
    simp [Instr.setupRow, selections, List.findIdx?_cons, hrq]
  · next hfeat =>
    simp [Instr.setupRow, selections, List.findIdx?_cons, hget, hset, hrep, hclr, hidle, hfeat]

/-- Settles O4: the masks separate the fields, and the table's rows stand in the order of the tree's tests. -/
theorem decodeFollowsMaskTable : Obligations.DecodeFollowsMaskTable := by
  unfold Obligations.DecodeFollowsMaskTable
  intro rqHid w
  rw [← packSetup_fields w, decodeSetup_packSetup, firstRow_packSetup, setupRow_decodeFields]

/-! ## Words written out -/

/-- Settles O1, by running the decoder on the ten words. -/
theorem writtenWordsDecode : Obligations.WrittenWordsDecode := by
  unfold Obligations.WrittenWordsDecode
  decide

end Sys2Proof

namespace Sys2Proof.Machine

/-! ## Endpoint numbers outside the table -/

/-- `CTR_BRANCH` tests the endpoint number before it touches the state (U5). -/
theorem ctrBranch_of_le {n : BitVec 4} (h : 8 ≤ n.toNat) (d : Bool) (s : State) :
    ctrBranch n d s = .refused (.epIdOutOfRange n) :=
  if_neg (Nat.not_lt.mpr h)

/-- Settles O38: both rows run `CTR_BRANCH`. -/
theorem endpointNumberOutOfRangeRefused : Obligations.EndpointNumberOutOfRangeRefused := by
  unfold Obligations.EndpointNumberOutOfRangeRefused
  intro s n h
  exact ⟨ctrBranch_of_le h true s, ctrBranch_of_le h false s⟩

end Sys2Proof.Machine
end

section
/-! The register algebra (R42, R131 to R151): how transforms compose, the bits a transform of a group can reach, and what
writing a transformed word leaves in a status field, a toggle and a flag. -/

namespace Sys2Proof.Machine

/-! ## Transforms -/

/-- A transform bit by bit: `A` keeps, `X` flips (R131). -/
theorem getLsbD_transform (a x v : Half) (k : Nat) :
    (transform a x v).getLsbD k = ((v.getLsbD k && a.getLsbD k) ^^ x.getLsbD k) := by
  simp only [transform, BitVec.getLsbD_xor, BitVec.getLsbD_and]

theorem extractLsb'_transform (a x v : Half) (lo len : Nat) :
    (transform a x v).extractLsb' lo len =
      (v.extractLsb' lo len &&& a.extractLsb' lo len) ^^^ x.extractLsb' lo len := by
  rw [transform, BitVec.extractLsb'_xor, BitVec.extractLsb'_and]

/-- One transform after another is a transform. -/
theorem transform_transform (a x b y v : Half) :
    transform a x (transform b y v) = transform (b &&& a) ((y &&& a) ^^^ x) v := by
  apply BitVec.eq_of_getLsbD_eq
  intro k _
  simp only [getLsbD_transform, BitVec.getLsbD_and, BitVec.getLsbD_xor, Bool.and_xor_distrib_right, Bool.and_assoc,
    Bool.xor_assoc]

/-- The four steps of `normalize` make one mask (R149). -/
theorem normalize_eq_transform (v : Half) : normalize v = transform 0x3F3F#16 0x0000#16 v := by
  simp only [normalize, keepDtogRx, keepDtogTx, clearCtrRx, clearCtrTx, transform_transform]
  rfl

/-- Settles O6: seventeen of the transforms are written as their constants, `normalize` is composed. -/
theorem transformConstants : Obligations.TransformConstants := by
  unfold Obligations.TransformConstants
  intro v
  exact ⟨rfl, rfl, rfl, rfl, rfl, rfl, rfl, rfl, rfl, rfl, rfl, rfl, rfl, rfl, rfl, rfl, rfl, normalize_eq_transform v⟩

/-! ## Bit groups -/

/-- The constants of a transform of the bit group `g`: outside the group `A` keeps every bit and `X` flips none. -/
def WithinGroup (g a x : Half) : Prop :=
  ∀ k < 16, g.getLsbD k = false → a.getLsbD k = true ∧ x.getLsbD k = false

theorem getLsbD_transform_outside {g a x : Half} (h : WithinGroup g a x) (v : Half) {k : Nat} (hk : k < 16)
    (hg : g.getLsbD k = false) : (transform a x v).getLsbD k = v.getLsbD k := by
  obtain ⟨ha, hx⟩ := h k hk hg
  rw [getLsbD_transform, ha, hx, Bool.and_true, Bool.xor_false]

theorem transform_and_not_group {g a x : Half} (h : WithinGroup g a x) (v : Half) :
    transform a x v &&& ~~~g = v &&& ~~~g := by
  apply BitVec.eq_of_getLsbD_eq
  intro k hk
  simp only [BitVec.getLsbD_and, BitVec.getLsbD_not, hk, decide_true, Bool.true_and]
  cases hg : g.getLsbD k with
  | true => rw [Bool.not_true, Bool.and_false, Bool.and_false]
  | false => rw [getLsbD_transform_outside h v hk hg]

/-- What a transform leaves under a mask depends on the bits under that mask alone. -/
theorem transform_and_congr {g v w : Half} (a x : Half) (h : v &&& g = w &&& g) :
    transform a x v &&& g = transform a x w &&& g := by
  apply BitVec.eq_of_getLsbD_eq
  intro k _
  have hk : (v.getLsbD k && g.getLsbD k) = (w.getLsbD k && g.getLsbD k) := by simpa using congrArg (·.getLsbD k) h
  rw [BitVec.getLsbD_and, BitVec.getLsbD_and, getLsbD_transform, getLsbD_transform]
  cases hg : g.getLsbD k with
  | true => rw [hg, Bool.and_true, Bool.and_true] at hk; rw [hk]
  | false => rw [Bool.and_false, Bool.and_false]

/-- At a bit outside its group a transform does not show, before or after another one. -/
theorem getLsbD_transform_comm {g a x : Half} (h : WithinGroup g a x) (b y v : Half) {k : Nat} (hk : k < 16)
    (hg : g.getLsbD k = false) :
    (transform a x (transform b y v)).getLsbD k = (transform b y (transform a x v)).getLsbD k := by
  rw [getLsbD_transform_outside h _ hk hg, getLsbD_transform b y, getLsbD_transform b y,
    getLsbD_transform_outside h _ hk hg]

/-- Every bit is outside one of two disjoint groups. -/
theorem transform_comm {g h a x b y : Half} (hg : WithinGroup g a x) (hh : WithinGroup h b y) (hd : g &&& h = 0)
    (v : Half) :
    transform a x (transform b y v) = transform b y (transform a x v) := by
  apply BitVec.eq_of_getLsbD_eq
  intro k hk
  have hor : g.getLsbD k = false ∨ h.getLsbD k = false := by
    rw [← Bool.and_eq_false_iff, ← BitVec.getLsbD_and, hd]
    exact BitVec.getLsbD_zero
  obtain hgk | hhk := hor
  · exact getLsbD_transform_comm hg b y v hk hgk
  · exact (getLsbD_transform_comm hh a x v hk hhk).symm

/-- Every row of the table of R131 is a transform with constants of its group. -/
theorem exists_transform_of_mem {t : Half × (Half → Half)} (ht : t ∈ transformTable) :
    ∃ a x, t.2 = transform a x ∧ WithinGroup t.1 a x := by
  have hn : normalize = transform 0x3F3F#16 0x0000#16 := funext normalize_eq_transform
  simp only [transformTable, hn, List.mem_cons, List.not_mem_nil, or_false] at ht
  rcases ht with rfl | rfl | rfl | rfl | rfl | rfl | rfl | rfl | rfl | rfl | rfl | rfl | rfl | rfl | rfl | rfl | rfl | rfl
  all_goals exact ⟨_, _, rfl, by unfold WithinGroup; decide⟩

/-- Settles O7: the constants of a row decide both what it leaves alone and what it commutes with. -/
theorem disjointTransformsCommute : Obligations.DisjointTransformsCommute := by
  unfold Obligations.DisjointTransformsCommute
  refine ⟨?_, ?_, ?_, ?_⟩
  · intro t ht u hu hd v
    obtain ⟨a, x, hta, hga⟩ := exists_transform_of_mem ht
    obtain ⟨b, y, hub, hgb⟩ := exists_transform_of_mem hu
    rw [hta, hub]
    exact transform_comm hga hgb hd v
  · intro t ht v
    obtain ⟨a, x, hta, hga⟩ := exists_transform_of_mem ht
    rw [hta]
    exact transform_and_not_group hga v
  · intro t ht v w hvw
    obtain ⟨a, x, hta, -⟩ := exists_transform_of_mem ht
    rw [hta]
    exact transform_and_congr a x hvw
  · intro v
    exact ⟨transform_transform .., transform_transform ..⟩

/-! ## Writing a transformed word -/

section
variable {a r v : Half} {lo len k : Nat} (x : Half)

/-- A status field that is current is cancelled by the write, which leaves the field of `X` (R151). -/
theorem extractLsb'_write_transform_of_current (hlo : ∀ j, j < len → lo + j ∈ [4, 5, 6, 12, 13, 14])
    (ha : a.extractLsb' lo len = BitVec.allOnes len) (hcur : r.extractLsb' lo len = v.extractLsb' lo len) :
    (writeRule r (transform a x v)).extractLsb' lo len = x.extractLsb' lo len := by
  rw [extractLsb'_writeRule_toggle r _ lo len hlo, extractLsb'_transform, ha, BitVec.and_allOnes, hcur,
    ← BitVec.xor_assoc, BitVec.xor_self, BitVec.zero_xor]

/-- A field that `A` masks out is flipped by `X` alone, whatever the word. -/
theorem extractLsb'_write_transform_of_masked (hlo : ∀ j, j < len → lo + j ∈ [4, 5, 6, 12, 13, 14])
    (ha : a.extractLsb' lo len = 0#len) :
    (writeRule r (transform a x v)).extractLsb' lo len = r.extractLsb' lo len ^^^ x.extractLsb' lo len := by
  rw [extractLsb'_writeRule_toggle r _ lo len hlo, extractLsb'_transform, ha, BitVec.and_zero, BitVec.zero_xor]

/-- A toggle that is current is cancelled by the write, which leaves the bit of `X` (R151). -/
theorem getLsbD_write_transform_of_current (hk : k ∈ [4, 5, 6, 12, 13, 14]) (ha : a.getLsbD k = true)
    (hcur : r.getLsbD k = v.getLsbD k) : (writeRule r (transform a x v)).getLsbD k = x.getLsbD k := by
  rw [getLsbD_writeRule_toggle r _ hk, getLsbD_transform, ha, Bool.and_true, hcur, ← Bool.xor_assoc, Bool.xor_self,
    Bool.false_xor]

/-- A toggle that `A` masks out is flipped by `X` alone, whatever the word. -/
theorem getLsbD_write_transform_of_masked (hk : k ∈ [4, 5, 6, 12, 13, 14]) (ha : a.getLsbD k = false) :
    (writeRule r (transform a x v)).getLsbD k = (r.getLsbD k ^^ x.getLsbD k) := by
  rw [getLsbD_writeRule_toggle r _ hk, getLsbD_transform, ha, Bool.and_false, Bool.false_xor]

/-- A flag that `A` masks out is kept where `X` has a 1 and cleared where it has a 0. -/
theorem getLsbD_write_transform_flag (hk : k ∈ [7, 15]) (ha : a.getLsbD k = false) :
    (writeRule r (transform a x v)).getLsbD k = (r.getLsbD k && x.getLsbD k) := by
  rw [getLsbD_writeRule_flag r _ hk, getLsbD_transform, ha, Bool.and_false, Bool.false_xor]

end

/-- Settles O9: the target is the status field of `X`. -/
theorem statusTransformsLand : Obligations.StatusTransformsLand := by
  unfold Obligations.StatusTransformsLand
  intro r v
  refine ⟨fun hcur => ?_, fun hcur => ?_, ?_, ?_⟩
  · have lands (x : Half) : statRx (writeRule r (transform 0xFFFF#16 x v)) = statRx x :=
      extractLsb'_write_transform_of_current x (by decide) rfl hcur
    exact ⟨lands _, lands _, lands _⟩
  · have lands (x : Half) : statTx (writeRule r (transform 0xFFFF#16 x v)) = statTx x :=
      extractLsb'_write_transform_of_current x (by decide) rfl hcur
    exact ⟨lands _, lands _, lands _⟩
  · exact (extractLsb'_write_transform_of_masked 0#16 (by decide) rfl).trans BitVec.xor_zero
  · exact (extractLsb'_write_transform_of_masked 0#16 (by decide) rfl).trans BitVec.xor_zero

/-- Settles O10: a toggle is kept, cleared or set as a status field is, and both flag transforms mask the flag out. -/
theorem toggleAndFlagTransformsLand : Obligations.ToggleAndFlagTransformsLand := by
  unfold Obligations.ToggleAndFlagTransformsLand
  intro r v
  refine ⟨?_, ?_, fun hcur => ⟨?_, ?_⟩, fun hcur => ⟨?_, ?_⟩, ?_, ?_, ?_, ?_⟩
  · exact (getLsbD_write_transform_of_masked 0#16 (by decide) rfl).trans (Bool.xor_false _)
  · exact (getLsbD_write_transform_of_masked 0#16 (by decide) rfl).trans (Bool.xor_false _)
  · exact getLsbD_write_transform_of_current 0x0000#16 (by decide) rfl hcur
  · exact getLsbD_write_transform_of_current 0x4000#16 (by decide) rfl hcur
  · exact getLsbD_write_transform_of_current 0x0000#16 (by decide) rfl hcur
  · exact getLsbD_write_transform_of_current 0x0040#16 (by decide) rfl hcur
  · exact (getLsbD_write_transform_flag 0#16 (by decide) rfl).trans (Bool.and_false _)
  · exact (getLsbD_write_transform_flag 0#16 (by decide) rfl).trans (Bool.and_false _)
  · exact (getLsbD_write_transform_flag 0x8080#16 (by decide) rfl).trans (Bool.and_true _)
  · exact (getLsbD_write_transform_flag 0x8080#16 (by decide) rfl).trans (Bool.and_true _)

end Sys2Proof.Machine
end

section
/-! The allocator (R160 to R166): where the word of ALLOCATE lands a register, what a successful ALLOCATE leaves, and
that a failed one leaves nothing but its result. -/

namespace Sys2Proof.Machine

/-! ## The word of ALLOCATE -/

/-- The part of the word of ALLOCATE that does not depend on the register (R165). -/
def typeAndNumber (t : EpType) (n : BitVec 4) : Half := (t.code.setWidth 16 <<< 9) ||| n.setWidth 16

/-- On the toggles and the statuses the word of ALLOCATE is a transform of the register: keep all of them, flip the
targets (R131, R165). -/
theorem allocWord_eq (r : Half) (t : EpType) (n : BitVec 4) :
    allocWord r t n = transform 0x7070#16 0x3020#16 r ||| typeAndNumber t n := by
  have h : (r &&& 0x4040#16) ||| ((r &&& 0x3000#16) ^^^ 0x3000#16) ||| ((r &&& 0x0030#16) ^^^ 0x0020#16) =
      transform 0x7070#16 0x3020#16 r := by
    apply BitVec.eq_of_getLsbD_eq
    intro k hk
    rw [getLsbD_transform]
    simp only [BitVec.getLsbD_or, BitVec.getLsbD_xor, BitVec.getLsbD_and]
    interval_cases k <;> simp
  rw [allocWord, h, typeAndNumber, BitVec.or_assoc]

theorem getLsbD_typeAndNumber (t : EpType) (n : BitVec 4) {k : Nat} (hk : k ∈ [4, 5, 6, 7, 8, 12, 13, 14, 15]) :
    (typeAndNumber t n).getLsbD k = false := by
  revert k n
  cases t <;> decide

theorem epTypeField_typeAndNumber (t : EpType) (n : BitVec 4) : epTypeField (typeAndNumber t n) = t.code := by
  revert n
  cases t <;> decide

theorem epAddress_typeAndNumber (t : EpType) (n : BitVec 4) : epAddress (typeAndNumber t n) = n := by
  revert n
  cases t <;> decide

/-- Outside type and number the word of ALLOCATE is the transform. -/
theorem getLsbD_allocWord (r : Half) (t : EpType) (n : BitVec 4) {k : Nat}
    (hk : k ∈ [4, 5, 6, 7, 8, 12, 13, 14, 15]) :
    (allocWord r t n).getLsbD k = (transform 0x7070#16 0x3020#16 r).getLsbD k := by
  rw [allocWord_eq, BitVec.getLsbD_or, getLsbD_typeAndNumber t n hk, Bool.or_false]

/-- On type and number it is what it was given. -/
theorem extractLsb'_allocWord (r : Half) (t : EpType) (n : BitVec 4) (lo len : Nat)
    (ha : (0x7070#16).extractLsb' lo len = 0#len) (hx : (0x3020#16).extractLsb' lo len = 0#len) :
    (allocWord r t n).extractLsb' lo len = (typeAndNumber t n).extractLsb' lo len := by
  rw [allocWord_eq, BitVec.extractLsb'_or, extractLsb'_transform, ha, hx, BitVec.and_zero, BitVec.xor_zero,
    BitVec.zero_or]

/-- The toggles and the statuses land on the targets, whatever the register held. -/
theorem getLsbD_write_allocWord_toggle (r : Half) (t : EpType) (n : BitVec 4) {k : Nat}
    (hk : k ∈ [4, 5, 6, 12, 13, 14]) :
    (writeRule r (allocWord r t n)).getLsbD k = (0x3020#16).getLsbD k := by
  have hs : k ∈ [4, 5, 6, 7, 8, 12, 13, 14, 15] := by revert k; decide
  have ha : (0x7070#16).getLsbD k = true := by revert k; decide
  rw [getLsbD_writeRule_toggle r _ hk, getLsbD_allocWord r t n hs, ← getLsbD_writeRule_toggle r _ hk]
  exact getLsbD_write_transform_of_current _ hk ha rfl

theorem extractLsb'_write_allocWord_toggle (r : Half) (t : EpType) (n : BitVec 4) (lo len : Nat)
    (h : ∀ k, k < len → lo + k ∈ [4, 5, 6, 12, 13, 14]) :
    (writeRule r (allocWord r t n)).extractLsb' lo len = (0x3020#16).extractLsb' lo len := by
  apply BitVec.eq_of_getLsbD_eq
  intro k hk
  rw [BitVec.getLsbD_extractLsb', BitVec.getLsbD_extractLsb', getLsbD_write_allocWord_toggle r t n (h k hk)]

/-- Both flags are written with 0. -/
theorem getLsbD_write_allocWord_flag (r : Half) (t : EpType) (n : BitVec 4) {k : Nat} (hk : k ∈ [7, 15]) :
    (writeRule r (allocWord r t n)).getLsbD k = false := by
  have hs : k ∈ [4, 5, 6, 7, 8, 12, 13, 14, 15] := by revert k; decide
  have ha : (0x7070#16).getLsbD k = false := by revert k; decide
  have hx : (0x3020#16).getLsbD k = false := by revert k; decide
  rw [getLsbD_writeRule_flag r _ hk, getLsbD_allocWord r t n hs, ← getLsbD_writeRule_flag r _ hk,
    getLsbD_write_transform_flag _ hk ha, hx, Bool.and_false]

/-- Settles O12: the current statuses and toggles cancel in the write, type and number replace. -/
theorem allocWordLands : Obligations.AllocWordLands := by
  unfold Obligations.AllocWordLands
  intro r t n
  refine ⟨?_, ?_, ?_, ?_, extractLsb'_write_allocWord_toggle r t n 12 2 (by decide),
    extractLsb'_write_allocWord_toggle r t n 4 2 (by decide), getLsbD_write_allocWord_toggle r t n (by decide),
    getLsbD_write_allocWord_toggle r t n (by decide), getLsbD_write_allocWord_flag r t n (by decide),
    getLsbD_write_allocWord_flag r t n (by decide)⟩
  · rw [allocWord_eq, BitVec.or_assoc]; rfl
  · exact (extractLsb'_writeRule_replaced r _ 9 2 (by decide)).trans
      ((extractLsb'_allocWord r t n 9 2 rfl rfl).trans (epTypeField_typeAndNumber t n))
  · rw [epKind, getLsbD_writeRule_replaced r _ (by decide), getLsbD_allocWord r t n (by decide), getLsbD_transform]
    simp
  · exact (extractLsb'_writeRule_replaced r _ 0 4 (by decide)).trans
      ((extractLsb'_allocWord r t n 0 4 rfl rfl).trans (epAddress_typeAndNumber t n))

/-! ## ALLOCATE -/

theorem rxGranularityOk_iff {n : Nat} :
    rxGranularityOk n = true ↔ n % 2 = 0 ∧ n ≤ 992 ∧ (64 ≤ n → n % 32 = 0) := by
  simp only [rxGranularityOk, Bool.and_eq_true, Bool.or_eq_true, beq_iff_eq, decide_eq_true_eq]
  omega

theorem getLsbD_zero_eq_decide_odd (w : Half) : w.getLsbD 0 = decide (w.toNat % 2 = 1) := by
  rw [BitVec.getLsbD, Nat.testBit_zero]

/-- ALLOCATE with an even `tx_size`: the allocator's effect, then the code of its checks as the result (R160, R161). -/
theorem execAllocate_of_even {tx : Half} (he : tx.toNat % 2 = 0) (n : BitVec 4) (t : EpType) (rx : Half) (h : BitVec 1)
    (s : State) :
    execAllocate n t tx rx h s = andThen (allocOp n t tx rx h s) fun u => .next { u with
      result := .alloc (allocCodeNumber (allocCheck s.cfg.pmaSize s.bump.toNat n.toNat tx.toNat rx.toNat)) } := by
  unfold execAllocate
  rw [if_neg (by rw [getLsbD_zero_eq_decide_odd]; simp [he])]

theorem allocOp_of_passes {n : BitVec 4} {tx rx : Half} {s : State} (hp : AllocPasses n tx rx s) (t : EpType)
    (h : BitVec 1) : allocOp n t tx rx h s = allocApply n t tx rx h s := by
  unfold allocOp
  rw [show allocCheck _ _ _ _ _ = .ok from hp]

/-- A failing ALLOCATE does nothing (R161, R166). -/
theorem allocOp_of_fails {n : BitVec 4} {tx rx : Half} {s : State} (hp : ¬ AllocPasses n tx rx s) (t : EpType)
    (h : BitVec 1) : allocOp n t tx rx h s = .next s := by
  unfold allocOp
  split
  · exact absurd ‹_› hp
  · rfl

/-- A failing ALLOCATE changes the result output only. -/
theorem execAllocate_of_fails {tx : Half} (he : tx.toNat % 2 = 0) {n : BitVec 4} {rx : Half} {s : State} {c : AllocCode}
    (hc : allocCheck s.cfg.pmaSize s.bump.toNat n.toNat tx.toNat rx.toNat = c) (hne : c ≠ .ok) (t : EpType)
    (h : BitVec 1) : execAllocate n t tx rx h s = .next { s with result := .alloc (allocCodeNumber c) } := by
  rw [execAllocate_of_even he, allocOp_of_fails (fun hp => hne (hc.symm.trans hp)), hc, andThen_next]

/-- The four words of an entry of the buffer table are all that its programming writes (R76, R161). -/
theorem read_bufferTable_ne (m : Memory) (n x : Nat) (w0 w1 w2 w3 : Half) (h : x < 8 * n ∨ 8 * n + 8 ≤ x) :
    ((((m.write16 (8 * n) w0).write16 (8 * n + 2) w1).write16 (8 * n + 4) w2).write16 (8 * n + 6) w3).read x =
      m.read x := by
  rw [read_write16_ne _ _ _ _ (by omega), read_write16_ne _ _ _ _ (by omega), read_write16_ne _ _ _ _ (by omega),
    read_write16_ne _ _ _ _ (by omega)]

/-- Settles O14: the checks pass, and the accesses follow one another undisturbed. -/
theorem allocateSucceeds : Obligations.AllocateSucceeds := by
  unfold Obligations.AllocateSucceeds
  intro s n t tx rx h hq hc he hn htx hrx hroom hr2 hr992 hr32
  have hp : AllocPasses n tx rx s :=
    allocPasses_iff.mpr ⟨hn, htx, hrx, hroom, rxGranularityOk_iff.mpr ⟨hr2, hr992, hr32⟩⟩
  refine ⟨fun a ha => read_bufferTable_ne _ _ _ _ _ _ _ ha, ?_⟩
  rw [exec, execAllocate_of_even he, allocOp_of_passes hp, allocApply_of_quiet hq hc hn, andThen_next,
    show allocCheck _ _ _ _ _ = .ok from hp]
  rfl

/-- Settles O15: the checks of R161, each after those before it have passed. -/
theorem allocateFailsWithoutEffect : Obligations.AllocateFailsWithoutEffect := by
  unfold Obligations.AllocateFailsWithoutEffect
  intro s n t tx rx h
  refine ⟨fun ho => ?_, fun he => ⟨fun hn => ?_, fun hn hover => ?_, fun hn htx hrx hroom => ?_,
    fun hn htx hrx hroom hgran => ?_⟩⟩
  · exact if_pos (by rw [getLsbD_zero_eq_decide_odd]; exact decide_eq_true ho)
  · exact execAllocate_of_fails he (c := .errBadIndex) (if_pos hn) nofun t h
  · refine execAllocate_of_fails he (c := .errOversize) ?_ nofun t h
    rw [allocCheck, if_neg (Nat.not_le.mpr hn), if_pos hover]
  · refine execAllocate_of_fails he (c := .errExhausted) ?_ nofun t h
    rw [allocCheck, if_neg (Nat.not_le.mpr hn), if_neg (by omega), if_pos hroom]
  · refine execAllocate_of_fails he (c := .errRxGranularity) ?_ nofun t h
    rw [allocCheck, if_neg (Nat.not_le.mpr hn), if_neg (by omega), if_neg (by omega),
      if_neg (by rw [rxGranularityOk_iff]; omega)]

end Sys2Proof.Machine
end

section
/-! No step of a state the allocator has laid out faults (R72, R75, R167, U3): every access the engine issues goes to
the buffer table or into a region of the endpoint it acts on. -/

namespace Sys2Proof.Machine

/-! ## Outcomes that are no fault -/

/-- The outcome is a next state or a refusal. -/
def NoFault : Out → Prop
  | .next _ => True
  | .fault _ => False
  | .refused _ => True

theorem noFault_next (s : State) : NoFault (.next s) := trivial

theorem noFault_refused (r : Refusal) : NoFault (.refused r) := trivial

theorem NoFault.ne_fault {o : Out} (h : NoFault o) (f : Fault) : o ≠ .fault f := by
  rintro rfl
  exact h

/-- A sequence does not fault when its first part does not, and what follows does not from the states it answers. -/
theorem noFault_andThen {o : Out} {k : State → Out} (ho : NoFault o) (hk : ∀ t, o = .next t → NoFault (k t)) :
    NoFault (andThen o k) := by
  cases o with
  | next t => exact hk t rfl
  | fault f => exact ho
  | refused r => exact noFault_refused r

/-! ## The layout -/

/-- What the statement supposes of a state: a legal configuration, the allocator's invariant, and endpoint 0 as the
reset branch creates it. -/
structure LaidOut (s : State) : Prop where
  cfgOk : s.cfg.wf
  alloc : AllocInv s
  ep0   : Ep0Sized s

/-- The layout depends on the configuration, the bump pointer and the regions of the entries only. -/
theorem LaidOut.of_regions {s t : State} (h : LaidOut s) (hc : t.cfg = s.cfg) (hb : t.bump = s.bump)
    (he : ∀ n, n < nEp → regions (t.epAt n) = regions (s.epAt n)) : LaidOut t := by
  have h0 := he 0 (by decide)
  simp only [regions, Prod.mk.injEq] at h0
  obtain ⟨ha, -, -, -, hr⟩ := h0
  refine ⟨hc ▸ h.cfgOk, h.alloc.congr hc hb he, ha ▸ h.ep0.1, ?_⟩
  rw [hr, hc]
  exact h.ep0.2

theorem LaidOut.congr {s t : State} (h : LaidOut s) (hc : t.cfg = s.cfg := by rfl) (hb : t.bump = s.bump := by rfl)
    (he : t.ep = s.ep := by rfl) : LaidOut t := h.of_regions hc hb fun n _ => by rw [epAt_congr he]

theorem LaidOut.accessed {s t : State} (h : LaidOut s) (ha : Accessed s t) : LaidOut t := h.congr ha.cfg ha.bump ha.ep

theorem LaidOut.setEp {s : State} (h : LaidOut s) {n : Nat} (hn : n < nEp) {e : Endpoint}
    (he : regions e = regions (s.epAt n)) : LaidOut (s.setEp n e) :=
  h.of_regions rfl rfl fun m _ => by
    rw [epAt_setEp s n m e hn]
    split
    · rename_i hnm
      rw [← hnm, he]
    · rfl

section
variable {s : State} (h : LaidOut s) {n : Nat} (hn : n < nEp) (ha : (s.epAt n).allocated = true)
include h hn ha

/-- The transmit buffer of an allocated endpoint lies inside packet memory. -/
theorem LaidOut.txReady : TxReady s n := by
  have he := h.alloc.entries n hn
  have hb := h.alloc.bumpHigh
  rw [EntryOk, if_pos ha] at he
  obtain ⟨-, hbase, hsize, hrx, -, hend⟩ := he
  exact ⟨h.cfgOk, hn, ha, hbase, hsize, by omega⟩

/-- So does its receive buffer. -/
theorem LaidOut.rxReady {count : Nat} (hcount : count ≤ (s.epAt n).rxSize.toNat) : RxReady s n count := by
  have he := h.alloc.entries n hn
  have hb := h.alloc.bumpHigh
  rw [EntryOk, if_pos ha] at he
  obtain ⟨-, hbase, hsize, hrx, hgran, hend⟩ := he
  have := unitCount_le hcount (even_of_rxGranularityOk hgran)
  exact ⟨by omega, by omega⟩

end

/-! ## Single accesses -/

theorem noFault_store16 {s : State} {a : Nat} (h : s.unitOk a = true) (w : Half) : NoFault (store16 a w s) := by
  rw [store16, if_pos h]
  exact noFault_next _

theorem noFault_load16 {s : State} {a : Nat} (h : s.unitOk a = true) {k : Half → State → Out}
    (hk : ∀ w, NoFault (k w s.pause)) : NoFault (load16 a s k) := by
  rw [load16, if_pos h]
  exact hk _

theorem noFault_loadBytes {s : State} {n c : Nat} (h : RxReady s n c) {k : List Byte → State → Out}
    (hk : ∀ bs u, Accessed s u → NoFault (k bs u)) : NoFault (loadBytes (s.epAt n).rxBase.toNat c s k) := by
  unfold loadBytes
  split
  · exact hk _ _ (.refl s)
  · rw [if_pos ⟨h.evenBase, h.room⟩]
    exact hk _ _ (readUnits_accessed _ _ s)

theorem noFault_handlerReturn (w : Half) (s : State) : NoFault (handlerReturn w s) := noFault_next _

/-! ## Accesses in sequence -/

/-- The access is to a unit of packet memory, or to none. -/
def Access.InBounds (s : State) : Access → Prop
  | .storeUnit n k _ => s.unitOk ((s.epAt n.toNat).txBase.toNat + 2 * k) = true
  | .setCount n _ => s.unitOk (btCountTx n.toNat) = true
  | .readReg _ => True
  | .armReg _ => True
  | .loadUnit n k _ => s.unitOk ((s.epAt n.toNat).rxBase.toNat + 2 * k) = true
  | .finishRead _ => True

theorem Access.InBounds.congr {s t : State} (hc : t.cfg = s.cfg) (he : t.ep = s.ep) {a : Access} (h : a.InBounds s) :
    a.InBounds t := by
  have hu (x : Nat) : t.unitOk x = s.unitOk x := by rw [State.unitOk, State.unitOk, hc]
  cases a with
  | storeUnit n k w => rw [Access.InBounds, hu, epAt_congr he]; exact h
  | setCount n c => rw [Access.InBounds, hu]; exact h
  | readReg n => exact trivial
  | armReg n => exact trivial
  | loadUnit n k b => rw [Access.InBounds, hu, epAt_congr he]; exact h
  | finishRead c => exact trivial

theorem noFault_doAccess {s : State} {a : Access} (h : a.InBounds s) : NoFault (doAccess a s) := by
  cases a with
  | storeUnit n k w => exact noFault_store16 h w
  | setCount n c => exact noFault_store16 h c
  | readReg n => exact noFault_next _
  | armReg n => exact noFault_next _
  | loadUnit n k b =>
    rw [doAccess]
    exact noFault_load16 h fun _ => noFault_next _
  | finishRead c => exact noFault_next _

/-- An access moves no region, so the bounds of the later ones can be seen before the first. -/
theorem noFault_runAccesses {as : List Access} {s : State} (h : ∀ a ∈ as, a.InBounds s) :
    NoFault (runAccesses as s) := by
  induction as generalizing s with
  | nil => exact noFault_next s
  | cons a as ih =>
    rw [List.forall_mem_cons] at h
    refine noFault_andThen (noFault_doAccess h.1) fun t ht => ih fun b hb => ?_
    have hacc := accessed_doAccess ht
    exact (h.2 b hb).congr hacc.cfg hacc.ep

theorem noFault_runApp {as : List Access} {s : State} (h : ∀ a ∈ as, a.InBounds s) : NoFault (runApp as s) := by
  unfold runApp
  split
  · exact noFault_runAccesses h
  · exact noFault_andThen (noFault_runAccesses fun a ha => h a (List.mem_of_mem_take ha)) fun _ _ => noFault_next _

theorem mem_storeAccesses {a : Access} {n : BitVec 4} {k : Nat} {ws : List Half} (h : a ∈ storeAccesses n k ws) :
    ∃ j w, a = .storeUnit n j w ∧ j < k + ws.length := by
  induction ws generalizing k with
  | nil => cases h
  | cons w ws ih =>
    rw [List.length_cons]
    rcases List.mem_cons.mp h with rfl | h
    · exact ⟨k, w, rfl, by omega⟩
    · obtain ⟨j, w', ha, hj⟩ := ih h
      exact ⟨j, w', ha, by omega⟩

theorem mem_loadAccesses {a : Access} {n : BitVec 4} {k c : Nat} (h : a ∈ loadAccesses n k c) :
    ∃ j b, a = .loadUnit n j b ∧ j < k + unitCount c := by
  induction k, c using loadAccesses.induct with
  | case1 k => cases h
  | case2 k =>
    rw [loadAccesses, List.mem_singleton] at h
    exact ⟨k, false, h, by rw [unitCount]; omega⟩
  | case3 k c ih =>
    rcases List.mem_cons.mp h with rfl | h
    · exact ⟨k, true, rfl, by rw [unitCount]; omega⟩
    · obtain ⟨j, b, ha, hj⟩ := ih h
      rw [unitCount] at hj ⊢
      exact ⟨j, b, ha, by omega⟩

/-- COPY_IN stores into the transmit buffer, whose size bounds the copy, and the count into the buffer table (R281). -/
theorem inBounds_of_mem_copyInAccesses {s : State} {n : BitVec 4} (hr : TxReady s n.toNat) {data : List Byte}
    {a : Access} (h : a ∈ copyInAccesses s n data) : a.InBounds s := by
  rcases List.mem_append.mp h with h | h
  · obtain ⟨j, w, rfl, hj⟩ := mem_storeAccesses h
    rw [length_copyUnits, List.length_take] at hj
    have hc : min (copyLength data.length (s.epAt n.toNat)) data.length ≤ (s.epAt n.toNat).txSize.toNat := by
      unfold copyLength; omega
    have hu := unitCount_le hc hr.evenSize
    have hroom := hr.room
    have heven := hr.evenBase
    exact (unitOk_iff ..).mpr ⟨by omega, by omega⟩
  · rw [List.mem_singleton.mp h]
    exact unitOk_buffer_table hr.cfgOk hr.inTable (by decide) (by decide)

/-- READ loads from the receive buffer, whose size bounds the count (R288). -/
theorem inBounds_of_mem_readAccesses {s : State} {n : BitVec 4}
    (hr : RxReady s n.toNat (readCount (s.epAt n.toNat))) {a : Access} (h : a ∈ readAccesses s n) : a.InBounds s := by
  rcases List.mem_append.mp h with h | h
  · obtain ⟨j, b, rfl, hj⟩ := mem_loadAccesses h
    have hroom := hr.room
    have heven := hr.evenBase
    exact (unitOk_iff ..).mpr ⟨by omega, by omega⟩
  · rw [List.mem_singleton.mp h]
    exact trivial

/-! ## The transfer unit -/

theorem noFault_onEndpoint {n : BitVec 4} {s : State} {k : Out}
    (hk : n.toNat < nEp → (s.epAt n.toNat).allocated = true → NoFault k) : NoFault (onEndpoint n s k) := by
  unfold onEndpoint
  split
  · split
    · exact hk ‹_› ‹_›
    · exact noFault_refused _
  · exact noFault_refused _

section
variable {s : State} (h : LaidOut s)
include h

theorem LaidOut.noFault_writeIrqOp (n : BitVec 4) (data : List Byte) : NoFault (writeIrqOp n data s) :=
  noFault_onEndpoint fun hn ha => noFault_runAccesses fun _ => inBounds_of_mem_copyInAccesses (h.txReady hn ha)

theorem LaidOut.noFault_execWriteIrq (n : BitVec 4) (data : List Byte) : NoFault (execWriteIrq n data s) := by
  unfold execWriteIrq
  split
  · exact noFault_refused _
  · exact h.noFault_writeIrqOp n data

theorem LaidOut.noFault_execWrite (n : BitVec 4) (data : List Byte) : NoFault (execWrite n data s) := by
  refine noFault_onEndpoint fun hn ha => noFault_runApp fun a hm => ?_
  rcases List.mem_append.mp hm with hm | hm
  · exact inBounds_of_mem_copyInAccesses (h.txReady hn ha) hm
  · rcases List.mem_pair.mp hm with rfl | rfl <;> exact trivial

theorem LaidOut.noFault_execRead (n : BitVec 4) : NoFault (execRead n s) :=
  noFault_onEndpoint fun hn ha => noFault_runApp fun _ hm =>
    (inBounds_of_mem_readAccesses (h.rxReady hn ha (Nat.min_le_right ..)) hm).congr rfl rfl

/-! ## The control state machine -/

/-- A packet staged on endpoint 0; what follows it writes registers only. -/
theorem LaidOut.noFault_staged (data : List Byte) {k : State → Out} (hk : ∀ t, NoFault (k t)) :
    NoFault (andThen (writeIrqOp 0 data s) k) :=
  noFault_andThen (h.noFault_writeIrqOp 0 data) fun t _ => hk t

theorem LaidOut.noFault_sendChunk : NoFault (sendChunk s) := by
  refine h.noFault_staged _ fun t => ?_
  dsimp only
  split
  · exact noFault_handlerReturn _ _
  · exact noFault_next _

theorem LaidOut.noFault_tx0 (src : List Byte) (len : Nat) : NoFault (tx0 src len s) := by
  unfold tx0
  split
  · exact h.noFault_staged _ fun _ => noFault_handlerReturn _ _
  · exact h.congr.noFault_sendChunk

theorem LaidOut.noFault_resumeTx : NoFault (resumeTx s) := by
  unfold resumeTx
  split
  · exact h.noFault_staged _ fun _ => noFault_handlerReturn _ _
  · exact h.noFault_sendChunk

theorem LaidOut.noFault_acknowledge : NoFault (acknowledge s) := h.noFault_staged _ fun _ => noFault_handlerReturn _ _

theorem LaidOut.noFault_unrec (bm rq : Byte) (v : Half) : NoFault (unrec bm rq v s) := h.congr.noFault_acknowledge

theorem LaidOut.noFault_serve (bytes : List Byte) (len : Nat) : NoFault (serve bytes len s) :=
  h.congr.noFault_tx0 bytes len

theorem LaidOut.noFault_serveDescriptor (bm : Byte) (v l : Half) : NoFault (serveDescriptor bm v l s) := by
  unfold serveDescriptor
  split
  · exact h.noFault_unrec ..
  · exact h.noFault_serve ..

end

/-! ## The allocator -/

/-- ALLOCATE writes the buffer table only, for an endpoint of the table (R161). -/
theorem noFault_allocOp {s : State} (h : s.cfg.wf) (n : BitVec 4) (ty : EpType) (tx rx : Half) (k : BitVec 1) :
    NoFault (allocOp n ty tx rx k s) := by
  unfold allocOp
  split
  · obtain ⟨hn, -⟩ := allocPasses_iff.mp ‹_›
    have hu {t : State} (ht : Accessed s t) {j : Nat} (he : j % 2 = 0) (hj : j ≤ 6) :
        t.unitOk (8 * n.toNat + j) = true := unitOk_buffer_table (ht.cfg ▸ h) hn he hj
    have h0 : s.unitOk (btAddrTx n.toNat) = true := hu (.refl s) (j := 0) (by decide) (by decide)
    refine noFault_andThen (noFault_store16 h0 _) fun s1 h1 => ?_
    have a1 := accessed_store16 h1
    refine noFault_andThen (noFault_store16 (hu a1 (by decide) (by decide)) _) fun s2 h2 => ?_
    have a2 := a1.trans (accessed_store16 h2)
    refine noFault_andThen (noFault_store16 (hu a2 (by decide) (by decide)) _) fun s3 h3 => ?_
    have a3 := a2.trans (accessed_store16 h3)
    exact noFault_andThen (noFault_store16 (hu a3 (by decide) (by decide)) _) fun _ _ => noFault_next _
  · exact noFault_next s

theorem noFault_execAllocate {s : State} (h : s.cfg.wf) (n : BitVec 4) (ty : EpType) (tx rx : Half) (k : BitVec 1) :
    NoFault (execAllocate n ty tx rx k s) := by
  unfold execAllocate
  split
  · exact noFault_refused _
  · exact noFault_andThen (noFault_allocOp h n ty tx rx k) fun _ _ => noFault_next _

theorem noFault_execIrqReset {s : State} (h : s.cfg.wf) : NoFault (execIrqReset s) :=
  noFault_andThen (noFault_allocOp (by rw [← pause_cfg s] at h; exact h) ..) fun _ _ => noFault_next _

/-! ## The dispatcher -/

/-- SNAPSHOT(n) reads the buffer table and latches no region (R254). -/
theorem LaidOut.noFault_snapshot {s : State} (h : LaidOut s) {n : Nat} (hn : n < nEp) {k : State → Out}
    (hk : ∀ u, LaidOut u → NoFault (k u)) : NoFault (snapshot n s k) := by
  have hp := h.accessed (accessed_pause s)
  have hl : LaidOut (s.pause.setEp n (latchFlags (s.pause.epAt n) (s.pause.eprAt n))) := hp.setEp hn rfl
  rw [snapshot, readReg]
  refine noFault_load16 (unitOk_buffer_table hl.cfgOk hn (k := 6) (by decide) (by decide)) fun w => hk _ ?_
  exact (hl.accessed (accessed_pause _)).setEp hn rfl

/-- COPY_EP0(n, d) reads at most EP0_SIZE bytes of the receive buffer of endpoint 0, which has that size (R255). -/
theorem LaidOut.noFault_copyEp0 {s : State} (h : LaidOut s) (n : Nat) (d : Bool) {k : State → Out}
    (hk : ∀ u, NoFault (k u)) : NoFault (copyEp0 n d s k) := by
  have hsize := h.ep0.2
  have hready {c : Nat} (hc : c ≤ s.cfg.ep0Size) : RxReady s 0 c :=
    h.rxReady (by decide) h.ep0.1 (hsize.symm ▸ hc)
  unfold copyEp0
  dsimp only
  split
  · split
    · have h8 : 8 ≤ s.cfg.ep0Size := by have := h.cfgOk.ep0Size; omega
      exact noFault_loadBytes (hready h8) fun _ _ _ => hk _
    · split
      · exact noFault_loadBytes (hready (Nat.min_le_right ..)) fun _ _ _ => hk _
      · exact hk s
  · exact hk s

/-- The handlers only write registers, or leave their WRITE_IRQ operations to the next steps (R256). -/
theorem noFault_callHandler (s : State) : NoFault (callHandler s) := by
  unfold callHandler
  dsimp only
  split
  · split
    · unfold ep0Handler
      dsimp only
      split
      · exact noFault_next _
      · split <;> exact noFault_handlerReturn _ _
    · unfold callExternal
      dsimp only
      split
      · exact noFault_handlerReturn _ _
      · exact noFault_next _
  · exact noFault_handlerReturn _ _

theorem LaidOut.noFault_ctrBranch {s : State} (h : LaidOut s) (n : BitVec 4) (d : Bool) :
    NoFault (ctrBranch n d s) := by
  unfold ctrBranch
  split
  · exact LaidOut.noFault_snapshot h.congr ‹_› fun u hu => hu.noFault_copyEp0 _ d noFault_callHandler
  · exact noFault_refused _

/-! ## The step -/

/-- No operation faults. -/
theorem LaidOut.noFault_exec {s : State} (h : LaidOut s) (i : Instr) : NoFault (exec i s) := by
  cases i with
  | getStatus => exact h.noFault_serve ..
  | getDescDevice i l => exact h.noFault_serveDescriptor 0x80#8 0x0100#16 l
  | getDescConfig i l => exact h.noFault_serveDescriptor 0x80#8 0x0200#16 l
  | getDescString0 i l => exact h.noFault_serveDescriptor 0x80#8 0x0300#16 l
  | getDescString1 i l => exact h.noFault_serveDescriptor 0x80#8 0x0301#16 l
  | getDescString2 i l => exact h.noFault_serveDescriptor 0x80#8 0x0302#16 l
  | getDescString3 i l => exact h.noFault_serveDescriptor 0x80#8 0x0303#16 l
  | getDescQualifier i l => exact h.noFault_serveDescriptor 0x80#8 0x0600#16 l
  | getDescUnknown => exact h.noFault_unrec ..
  | getConfiguration => exact h.noFault_serve ..
  | stdDevGetUnknown => exact h.noFault_unrec ..
  | setAddress => exact h.congr.noFault_acknowledge
  | setConfiguration => exact h.congr.noFault_acknowledge
  | stdDevSetUnknown => exact h.noFault_unrec ..
  | getDescHidReport i l => exact h.noFault_serveDescriptor 0x81#8 0x2200#16 l
  | clearFeatureEp => exact h.noFault_acknowledge
  | setIdle => exact h.noFault_acknowledge
  | hidSetFeature => exact noFault_handlerReturn _ _
  | fallback => exact h.noFault_unrec ..
  | irqReset => exact noFault_execIrqReset h.cfgOk
  | irqCtrOut n => exact h.noFault_ctrBranch n true
  | irqCtrIn n => exact h.noFault_ctrBranch n false
  | getState => exact noFault_next _
  | allocate => exact noFault_execAllocate h.cfgOk ..
  | write n data => exact h.noFault_execWrite n data
  | writeIrq n data => exact h.noFault_execWriteIrq n data
  | read n => exact h.noFault_execRead n

/-- A fetch moves no region. -/
theorem LaidOut.fetched {s u : State} {i : Instr} (h : LaidOut s) (hf : fetch s = .instr i u) : LaidOut u := by
  rcases fetch_eq_instr hf with ⟨p, split, rest, -, -, -, -, rfl⟩ | ⟨-, -, -, rfl⟩ | ⟨-, -, rfl⟩ | ⟨-, -, rfl⟩ |
    ⟨w, rest, -, -, -, rfl⟩
  · exact h.congr
  · exact (h.accessed (accessed_pause s)).congr
  · exact h
  · exact h
  · exact h.congr

/-- Of the moves that run no operation only two issue accesses to packet memory: the end of a wait, and a preempted
command, of which there is none here. -/
theorem LaidOut.noFault_move {s : State} {o : Out} (h : LaidOut s) (ha : s.app = []) (hf : fetch s = .move o) :
    NoFault o := by
  rcases fetch_eq_move hf with ⟨-, hidle⟩ | ⟨-, rfl⟩ | ⟨-, rfl | rfl⟩ | ⟨-, rfl⟩ | ⟨-, rfl⟩ | ⟨-, rfl⟩ | ⟨-, rfl⟩ |
    ⟨-, hwait⟩
  · rcases hidle with rfl | rfl | ⟨sp, p, rfl⟩ | ⟨m, rest, rfl⟩ | ⟨rest, rfl | rfl⟩ | ⟨e, rfl⟩
    · exact noFault_next _
    · exact noFault_next _
    · exact noFault_runApp (by rw [ha]; exact nofun)
    · exact noFault_next _
    · exact noFault_next _
    · exact noFault_next _
    · exact noFault_refused _
  · exact noFault_next _
  · exact noFault_next _
  · exact noFault_next _
  · exact noFault_next _
  · exact noFault_handlerReturn _ _
  · exact noFault_handlerReturn _ _
  · exact noFault_next _
  · rcases hwait with ⟨rfl, -⟩ | ⟨rfl, -⟩ | ⟨m, rest, rfl, -⟩ | ⟨rfl, -⟩
    · exact noFault_next _
    · exact (h.accessed (accessed_pause s)).congr.noFault_resumeTx
    · exact noFault_next _
    · exact noFault_next _

/-- Settles O57: a step is a fetched operation or a move of its own, and neither leaves the regions. -/
theorem noFaultUnderAllocator : Obligations.NoFaultUnderAllocator := by
  unfold Obligations.NoFaultUnderAllocator
  intro s f hc hi h0 ha hs
  have h : LaidOut s := ⟨hc, hi, h0⟩
  cases hf : fetch s with
  | instr i u =>
    rw [step_of_instr hf, leaving_eq_fault] at hs
    exact ((h.fetched hf).noFault_exec i).ne_fault f hs
  | move o =>
    rw [step_of_move hf, leaving_eq_fault] at hs
    exact (h.noFault_move ha hf).ne_fault f hs

end Sys2Proof.Machine
end

section
/-! The descriptor lookup (R181): each blob has one key, and the lookup inverts the map from blobs to keys. -/

namespace Sys2Proof.Machine

/-- The pair (descriptor type, index) under which the table of R181 lists a blob. -/
def blobKey : Blob → Byte × Byte
  | .dev => (0x01#8, 0x00#8)
  | .cfg => (0x02#8, 0x00#8)
  | .str0 => (0x03#8, 0x00#8)
  | .str1 => (0x03#8, 0x01#8)
  | .str2 => (0x03#8, 0x02#8)
  | .str3 => (0x03#8, 0x03#8)
  | .qual => (0x06#8, 0x00#8)
  | .hidRep => (0x22#8, 0x00#8)

theorem lookup_blobKey (b : Blob) : lookup (blobKey b).1 (blobKey b).2 = some b := by
  cases b <;> rfl

/-- Each test of `lookup` compares with the key of the blob it answers. -/
theorem eq_blobKey_of_lookup {dt di : Byte} {b : Blob} (h : lookup dt di = some b) : (dt, di) = blobKey b := by
  unfold lookup at h
  split_ifs at h with hdev hcfg hstr0 hstr1 hstr2 hstr3 hqual hhid <;> cases h
  · exact Prod.ext_iff.mpr hdev
  · exact Prod.ext_iff.mpr hcfg
  · exact Prod.ext_iff.mpr hstr0
  · exact Prod.ext_iff.mpr hstr1
  · exact Prod.ext_iff.mpr hstr2
  · exact Prod.ext_iff.mpr hstr3
  · exact Prod.ext_iff.mpr hqual
  · exact Prod.ext_iff.mpr hhid

theorem lookup_eq_some_iff {dt di : Byte} {b : Blob} : lookup dt di = some b ↔ (dt, di) = blobKey b := by
  refine ⟨eq_blobKey_of_lookup, fun h => ?_⟩
  rw [← lookup_blobKey b, ← h]

theorem lookup_eq_none_iff {dt di : Byte} : lookup dt di = none ↔ ∀ b, (dt, di) ≠ blobKey b := by
  simp only [Option.eq_none_iff_forall_ne_some, ne_eq, lookup_eq_some_iff]

/-- A byte inside a blob is read as the ROM holds it (R192). -/
theorem romByte_of_getElem? {r : Rom} {b : Blob} {i : Nat} {c : Byte} (h : (romBlob r b)[i]? = some c) :
    romByte r b i = c := by
  rw [romByte, h, Option.getD_some]

/-- Settles O16: a pair the table does not list is the key of no blob. -/
theorem lookupTable : Obligations.LookupTable := by
  unfold Obligations.LookupTable
  refine ⟨lookup_blobKey .dev, lookup_blobKey .cfg, lookup_blobKey .str0, lookup_blobKey .str1, lookup_blobKey .str2,
    lookup_blobKey .str3, lookup_blobKey .qual, lookup_blobKey .hidRep, fun dt di hnot => ?_, fun r =>
    ⟨rfl, rfl, rfl, rfl, rfl, rfl, rfl, rfl, fun _ _ _ => romByte_of_getElem?⟩⟩
  refine lookup_eq_none_iff.mpr fun b hkey => hnot ?_
  rw [hkey]
  cases b <;> simp [blobKey]

end Sys2Proof.Machine
end

section
/-! The requests that complete in one operation (R201, R203 to R221): the acknowledgements, the receive arming and the
responses served by `SERVE`. -/

namespace Sys2Proof.Machine

/-! ## Acknowledgements -/

/-- UNREC() is ACK() with one more entry of the log (R201, R313). -/
theorem unrec_of_quiet {s : State} (h : s.Quiet) (hr : TxReady s 0) (bm rq : Byte) (v : Half) :
    unrec bm rq v s = .next { acked s with diagLog := s.diagLog ++ [.unrecognized bm rq v] } :=
  acknowledge_of_quiet (s := { s with diagLog := s.diagLog ++ [.unrecognized bm rq v] }) h (hr.congr rfl rfl)

/-- Settles O17: both operations are ACK() and nothing else. -/
theorem acknowledgedRequestsComplete : Obligations.AcknowledgedRequestsComplete := by
  unfold Obligations.AcknowledgedRequestsComplete
  intro s dir v x l h hr
  exact ⟨acknowledge_of_quiet h hr, acknowledge_of_quiet h hr⟩

/-- Settles O18: the four operations are UNREC() of their own request. -/
theorem unrecognizedRequestsComplete : Obligations.UnrecognizedRequestsComplete := by
  unfold Obligations.UnrecognizedRequestsComplete
  intro s bm rq v x l h hr
  exact ⟨unrec_of_quiet h hr .., unrec_of_quiet h hr .., unrec_of_quiet h hr .., unrec_of_quiet h hr ..⟩

/-- Settles O19: both operations acknowledge after their write of the device state. -/
theorem deviceSetRequestsComplete : Obligations.DeviceSetRequestsComplete := by
  unfold Obligations.DeviceSetRequestsComplete
  intro s v x l h hr
  constructor
  · exact acknowledge_of_quiet (s := { s with
      dev := { s.dev with pendingAddr := requestedAddress v }, addrLatch := true }) h (hr.congr rfl rfl)
  · exact acknowledge_of_quiet (s := { s with
      dev := { s.dev with status := .configured, config := configurationValue v } }) h (hr.congr rfl rfl)

/-- Settles O20: nothing comes before the final write but the phase. -/
theorem hidSetFeatureArmsReceive : Obligations.HidSetFeatureArmsReceive := by
  unfold Obligations.HidSetFeatureArmsReceive
  intro s v x l h
  exact handlerReturn_of_quiet (s := { s with phase := .dataStageOut }) h _

/-! ## Responses -/

/-- Settles O21: the lengths are those of the bytes, `wLength` is not looked at. -/
theorem statusAndConfigurationServed : Obligations.StatusAndConfigurationServed := by
  unfold Obligations.StatusAndConfigurationServed
  intro s v x l h hr
  exact ⟨serve_of_quiet h hr _ 2 (by decide) (by decide), serve_of_quiet h hr _ 1 (Nat.le_refl 1) (by decide)⟩

/-- Settles O22: a consistent ROM holds the three blobs in full. -/
theorem fixedDescriptorsServed : Obligations.FixedDescriptorsServed := by
  unfold Obligations.FixedDescriptorsServed
  intro s x l h hr hrom
  have full := blobLen_le_of_consistent hrom
  exact ⟨serveDescriptor_of_quiet h hr 0x80#8 0x0100#16 l .dev rfl (full .dev),
    serveDescriptor_of_quiet h hr 0x80#8 0x0200#16 l .cfg rfl (full .cfg),
    serveDescriptor_of_quiet h hr 0x80#8 0x0600#16 l .qual rfl (full .qual)⟩

/-- A consistent string blob has a byte 0, the one that names its length (R188, R190). -/
theorem length_pos_of_stringBlobOk {b : List Byte} (h : stringBlobOk b = true) : 0 < b.length := by
  simp only [stringBlobOk, Bool.and_eq_true, decide_eq_true_eq] at h
  omega

/-- A string is served up to the length its byte 0 names, which is the length the blob has (R181, R183, R188). -/
theorem serveDescriptor_string_of_quiet {s : State} (h : s.Quiet) (hr : TxReady s 0) (v l : Half) (b : Blob)
    (hb : lookup (descriptorType v) (descriptorIndex v) = some b)
    (hlen : blobLen s.cfg.rom b = (romByte s.cfg.rom b 0).toNat) (hok : stringBlobOk (romBlob s.cfg.rom b) = true) :
    serveDescriptor 0x80#8 v l s = .next (sentFirst s (romBlob s.cfg.rom b)
      (min ((romBlob s.cfg.rom b).getD 0 0).toNat l.toNat)) := by
  simp only [stringBlobOk, Bool.and_eq_true, beq_iff_eq, decide_eq_true_eq] at hok
  obtain ⟨⟨⟨hnamed, -⟩, -⟩, htwo⟩ := hok
  rw [romByte_zero _ _ (by omega)] at hlen
  rw [serveDescriptor_of_quiet h hr _ _ l b hb (by omega), hlen]

/-- Settles O23: a consistent ROM has well-formed strings. -/
theorem stringDescriptorsServed : Obligations.StringDescriptorsServed := by
  unfold Obligations.StringDescriptorsServed
  intro s x l h hr hrom
  simp only [romConsistent, Bool.and_eq_true] at hrom
  obtain ⟨⟨⟨⟨-, h0⟩, h1⟩, h2⟩, h3⟩ := hrom
  have served := serveDescriptor_string_of_quiet h hr
  exact ⟨served 0x0300#16 l .str0 rfl rfl h0, served 0x0301#16 l .str1 rfl rfl h1,
    served 0x0302#16 l .str2 rfl rfl h2, served 0x0303#16 l .str3 rfl rfl h3⟩

/-- Settles O24: the length of the report is that of the blob, whatever the ROM. -/
theorem hidReportServed : Obligations.HidReportServed := by
  unfold Obligations.HidReportServed
  intro s x l h hr
  exact serveDescriptor_of_quiet h hr 0x81#8 0x2200#16 l .hidRep rfl (Nat.le_refl _)

end Sys2Proof.Machine
end

section
/-! What an operation of format SETUP can change when no move of the SIE falls between its accesses, whether or not its
accesses are possible: the staged units and COUNT_TX of endpoint 0, two endpoint registers, and the transfer's own
registers (R201, R213, R214, R220, R230, R243, R281). -/

namespace Sys2Proof.Machine

/-! ## COPY_IN -/

/-- A store that answers a next state has stored its unit. -/
theorem eq_of_store16_next {s t : State} (h : s.Quiet) {a : Nat} {w : Half} (hs : store16 a w s = .next t) :
    t = { s with pma := s.pma.write16 a w } := by
  unfold store16 at hs
  split at hs
  · rw [pause_of_quiet h] at hs
    cases hs
    rfl
  · cases hs

/-- The stores of COPY_IN that answer a next state have stored all units. -/
theorem eq_of_storeAccesses_next {n : BitVec 4} {ws : List Half} {k : Nat} {s t : State} (h : s.Quiet)
    (hs : runAccesses (storeAccesses n k ws) s = .next t) :
    t = { s with pma := s.pma.writeUnits ((s.epAt n.toNat).txBase.toNat + 2 * k) ws } := by
  induction ws generalizing k s with
  | nil => cases hs; rfl
  | cons w ws ih =>
    obtain ⟨u, hu, hs⟩ := andThen_eq_next.mp hs
    obtain rfl := eq_of_store16_next h hu
    exact ih (by exact h) hs

/-- Packet memory `p` agrees with that of `s` outside the units of `c` bytes at endpoint 0's transmit buffer and outside
BT[0].COUNT_TX (R281). -/
def StagedWithin (s : State) (c : Nat) (p : Memory) : Prop :=
  ∀ a : Nat, (a < (s.epAt 0).txBase.toNat ∨ (s.epAt 0).txBase.toNat + 2 * unitCount c ≤ a) → (a < 2 ∨ 4 ≤ a) →
    p.read a = s.pma.read a

theorem StagedWithin.mono {s : State} {c d : Nat} {p : Memory} (h : StagedWithin s c p) (hcd : c ≤ d) :
    StagedWithin s d p := fun a ha hcount => h a (by unfold unitCount at ha ⊢; omega) hcount

/-- WRITE_IRQ on endpoint 0 changes packet memory only, within the units of what it copies (R280, R281). -/
theorem stagedWithin_of_writeIrqOp_next {s t : State} (h : s.Quiet) {data : List Byte}
    (hw : writeIrqOp 0 data s = .next t) :
    ∃ p, t = { s with pma := p } ∧ StagedWithin s (copyLength data.length (s.epAt 0)) p := by
  obtain ⟨-, -, hw⟩ := onEndpoint_eq_next hw
  rw [copyInAccesses, runAccesses_append] at hw
  obtain ⟨u, hu, hw⟩ := andThen_eq_next.mp hw
  obtain rfl := eq_of_storeAccesses_next h hu
  obtain ⟨v, hv, hw⟩ := andThen_eq_next.mp hw
  obtain rfl := eq_of_store16_next (by exact h) hv
  cases hw
  have hlen : (data.take (copyLength data.length (s.epAt 0))).length = copyLength data.length (s.epAt 0) :=
    List.length_take_of_le (Nat.min_le_left _ _)
  refine ⟨_, rfl, fun a ha hcount => ?_⟩
  rw [← hlen] at ha
  exact (read_write16_ne _ _ _ _ hcount).trans (read_writeUnits_copyUnits_ne _ _ _ _ ha)

/-! ## The transmit procedure -/

/-- What transmitting a first packet of at most `c` bytes can change (R230, R231, R257). -/
structure Transmitted (c : Nat) (s t : State) : Prop where
  shape : ∃ p e ph co cr ts q wc, t =
    { s with pma := p, epr := e, phase := ph, curOff := co, curRem := cr, txSrc := ts, seq := q, waitCtr := wc }
  epr   : ∀ m, m ≠ s.served.toNat → m ≠ 0 → t.eprAt m = s.eprAt m
  mem   : StagedWithin s c t.pma

/-- The final write after staging (R257). -/
theorem Transmitted.of_handlerReturn {c : Nat} {s u t : State} (h : s.Quiet) {p : Memory} {ph : Phase} {co cr : Half}
    (hu : u = { s with pma := p, phase := ph, curOff := co, curRem := cr }) (hp : StagedWithin s c p) {w : Half}
    (hr : handlerReturn w u = .next t) : Transmitted c s t := by
  subst hu
  rw [handlerReturn_of_quiet (by exact h)] at hr
  cases hr
  exact ⟨⟨_, _, _, _, _, _, _, _, rfl⟩, fun m hm _ => eprAt_writeEpr_ne s _ m _ hm.symm, hp⟩

/-- ARM_MID and the start of the wait after staging (R231, R232). -/
theorem Transmitted.of_armMidAndWait {c : Nat} {s u t : State} (h : s.Quiet) {p : Memory} {co cr : Half}
    (hu : u = { s with pma := p, curOff := co, curRem := cr }) (hp : StagedWithin s c p)
    (hr : armMidAndWait u = .next t) : Transmitted c s t := by
  subst hu
  rw [armMidAndWait, readReg_of_quiet (by exact h), writeReg_of_quiet (by exact h)] at hr
  cases hr
  exact ⟨⟨_, _, _, _, _, _, _, _, rfl⟩, fun m _ hm => eprAt_writeEpr_ne s 0 m _ hm.symm, hp⟩

theorem transmitted_of_sendChunk {s t : State} (h : s.Quiet) (hs : sendChunk s = .next t) :
    Transmitted (copyLength s.curRem.toNat (s.epAt 0)) s t := by
  obtain ⟨u, hu, hs⟩ := andThen_eq_next.mp hs
  obtain ⟨p, rfl, hp⟩ := stagedWithin_of_writeIrqOp_next h hu
  have hp := hp.mono (d := copyLength s.curRem.toNat (s.epAt 0)) (by
    simp only [copyLength, List.length_take]
    omega)
  dsimp only at hs
  split at hs
  · exact .of_handlerReturn h rfl hp hs
  · exact .of_armMidAndWait h rfl hp hs

/-- Transmitting after the transfer's registers and the phase are set is transmitting from the state before. -/
theorem Transmitted.of_cursor {c : Nat} {s t : State} {ph : Phase} {co cr : Half} {ts : List Byte}
    (h : Transmitted c { s with phase := ph, curOff := co, curRem := cr, txSrc := ts } t) : Transmitted c s t := by
  obtain ⟨_, _, _, _, _, _, _, _, ht⟩ := h.shape
  exact ⟨⟨_, _, _, _, _, _, _, _, ht⟩, h.epr, h.mem⟩

theorem transmitted_of_tx0 {src : List Byte} {len : Nat} (hl : len < 65536) {s t : State} (h : s.Quiet)
    (hs : tx0 src len s = .next t) : Transmitted (copyLength len (s.epAt 0)) s t := by
  unfold tx0 at hs
  split at hs
  · obtain ⟨u, hu, hs⟩ := andThen_eq_next.mp hs
    obtain ⟨p, rfl, hp⟩ := stagedWithin_of_writeIrqOp_next h hu
    have hp := hp.mono (d := copyLength len (s.epAt 0)) (by
      simp only [copyLength, List.length_take]
      omega)
    exact .of_handlerReturn h rfl hp hs
  · have ht := transmitted_of_sendChunk (by exact h) hs
    rw [show (BitVec.ofNat 16 len).toNat = len from Nat.mod_eq_of_lt hl] at ht
    exact ht.of_cursor

theorem transmitted_of_serve {bs : List Byte} {len : Nat} (hl : len < 65536) {s t : State} (h : s.Quiet)
    (hs : serve bs len s = .next t) : Transmitted (copyLength len (s.epAt 0)) s t :=
  (transmitted_of_tx0 hl (by exact h) hs).of_cursor

/-- The cursor of a transfer and its poll counter are as before. -/
def CursorKept (s t : State) : Prop :=
  t.curOff = s.curOff ∧ t.curRem = s.curRem ∧ t.txSrc = s.txSrc ∧ t.waitCtr = s.waitCtr

theorem CursorKept.of_handlerReturn {w : Half} {s u t : State} (h : u.Quiet) (hs : handlerReturn w u = .next t)
    (hu : CursorKept s u) : CursorKept s t := by
  rw [handlerReturn_of_quiet h] at hs
  cases hs
  exact hu

theorem transmitted_of_acknowledge {s t : State} (h : s.Quiet) (hs : acknowledge s = .next t) :
    Transmitted 0 s t ∧ CursorKept s t := by
  obtain ⟨u, hu, hs⟩ := andThen_eq_next.mp hs
  obtain ⟨p, rfl, hp⟩ := stagedWithin_of_writeIrqOp_next h hu
  have hp := hp.mono (d := 0) (Nat.min_le_left _ _)
  exact ⟨.of_handlerReturn h rfl hp hs, CursorKept.of_handlerReturn (by exact h) hs ⟨rfl, rfl, rfl, rfl⟩⟩

/-! ## The operations -/

/-- The operation answers by `SERVE`, with the first packet R183 and R230 give; its row is none of those that only
acknowledge or arm. -/
def Serves (i : Instr) (s : State) : Prop :=
  ∃ bs len r, len < 65536 ∧ exec i s = serve bs len s ∧
    firstPacketLength s i = some (copyLength len (s.epAt 0)) ∧ i.setupRow = some r ∧
    r ∉ [8, 10, 11, 12, 13, 15, 16, 17, 18]

/-- The operation writes at most the device state, the latch and the log, each only in its rows, and acknowledges. -/
def Acknowledges (i : Instr) (s : State) : Prop :=
  ∃ dv al dl, exec i s = acknowledge { s with dev := dv, addrLatch := al, diagLog := dl } ∧
    firstPacketLength s i = some 0 ∧ (i.setupRow ≠ some 11 → i.setupRow ≠ some 12 → dv = s.dev) ∧
    (i.setupRow ≠ some 11 → al = s.addrLatch) ∧
    (i.setupRow ≠ some 8 → i.setupRow ≠ some 10 → i.setupRow ≠ some 13 → i.setupRow ≠ some 18 → dl = s.diagLog)

theorem responseLength_lt (n : Nat) (l : Half) : responseLength n l < 65536 :=
  Nat.lt_of_le_of_lt (Nat.min_le_right _ _) l.isLt

/-- A descriptor the table lists is served. -/
theorem serves_of_descriptor {i : Instr} {s : State} (bm : Byte) (v : Half) {l : Half} (b : Blob) {r : Nat}
    (he : exec i s = serveDescriptor bm v l s) (hb : lookup (descriptorType v) (descriptorIndex v) = some b)
    (hf : firstPacketLength s i = some (copyLength (responseLength (blobLen s.cfg.rom b) l) (s.epAt 0)))
    (hrow : i.setupRow = some r) (hr : r ∉ [8, 10, 11, 12, 13, 15, 16, 17, 18]) : Serves i s :=
  ⟨_, _, r, responseLength_lt (blobLen s.cfg.rom b) l, by rw [he, serveDescriptor, hb], hf, hrow, hr⟩

/-- A catch-all operation acknowledges after its log entry. -/
theorem acknowledges_of_unrec {i : Instr} {s : State} {bm rq : Byte} {v : Half} (he : exec i s = unrec bm rq v s)
    (hf : firstPacketLength s i = some 0)
    (hrow : i.setupRow = some 8 ∨ i.setupRow = some 10 ∨ i.setupRow = some 13 ∨ i.setupRow = some 18) :
    Acknowledges i s := by
  refine ⟨s.dev, s.addrLatch, _, he, hf, fun _ _ => rfl, fun _ => rfl, fun h8 h10 h13 h18 => ?_⟩
  rcases hrow with h | h | h | h
  · exact absurd h h8
  · exact absurd h h10
  · exact absurd h h13
  · exact absurd h h18

/-- The three kinds of operation of format SETUP (R201). -/
theorem exec_setup_cases {i : Instr} (hi : i.setupRow ≠ none) (s : State) :
    Serves i s ∨ Acknowledges i s ∨ ∃ v x l, i = .hidSetFeature v x l := by
  cases i with
  | getStatus => exact .inl ⟨_, 2, 0, by decide, rfl, rfl, rfl, by decide⟩
  | getDescDevice => exact .inl (serves_of_descriptor 0x80#8 0x0100#16 .dev rfl rfl rfl rfl (by decide))
  | getDescConfig => exact .inl (serves_of_descriptor 0x80#8 0x0200#16 .cfg rfl rfl rfl rfl (by decide))
  | getDescString0 => exact .inl (serves_of_descriptor 0x80#8 0x0300#16 .str0 rfl rfl rfl rfl (by decide))
  | getDescString1 => exact .inl (serves_of_descriptor 0x80#8 0x0301#16 .str1 rfl rfl rfl rfl (by decide))
  | getDescString2 => exact .inl (serves_of_descriptor 0x80#8 0x0302#16 .str2 rfl rfl rfl rfl (by decide))
  | getDescString3 => exact .inl (serves_of_descriptor 0x80#8 0x0303#16 .str3 rfl rfl rfl rfl (by decide))
  | getDescQualifier => exact .inl (serves_of_descriptor 0x80#8 0x0600#16 .qual rfl rfl rfl rfl (by decide))
  | getDescUnknown => exact .inr (.inl (acknowledges_of_unrec rfl rfl (.inl rfl)))
  | getConfiguration => exact .inl ⟨_, 1, 9, by decide, rfl, rfl, rfl, by decide⟩
  | stdDevGetUnknown => exact .inr (.inl (acknowledges_of_unrec rfl rfl (.inr (.inl rfl))))
  | setAddress =>
    exact .inr (.inl ⟨_, _, s.diagLog, rfl, rfl, fun h => absurd rfl h, fun h => absurd rfl h, fun _ _ _ _ => rfl⟩)
  | setConfiguration =>
    exact .inr (.inl ⟨_, s.addrLatch, s.diagLog, rfl, rfl, fun _ h => absurd rfl h, fun _ => rfl, fun _ _ _ _ => rfl⟩)
  | stdDevSetUnknown => exact .inr (.inl (acknowledges_of_unrec rfl rfl (.inr (.inr (.inl rfl)))))
  | getDescHidReport => exact .inl (serves_of_descriptor 0x81#8 0x2200#16 .hidRep rfl rfl rfl rfl (by decide))
  | clearFeatureEp =>
    exact .inr (.inl ⟨s.dev, s.addrLatch, s.diagLog, rfl, rfl, fun _ _ => rfl, fun _ => rfl, fun _ _ _ _ => rfl⟩)
  | setIdle =>
    exact .inr (.inl ⟨s.dev, s.addrLatch, s.diagLog, rfl, rfl, fun _ _ => rfl, fun _ => rfl, fun _ _ _ _ => rfl⟩)
  | hidSetFeature v x l => exact .inr (.inr ⟨v, x, l, rfl⟩)
  | fallback => exact .inr (.inl (acknowledges_of_unrec rfl rfl (.inr (.inr (.inr rfl)))))
  | irqReset | irqCtrOut | irqCtrIn | getState | allocate | write | writeIrq | read => exact absurd rfl hi

/-- What an operation of format SETUP that answers a next state leaves. -/
structure SetupEffect (i : Instr) (s t : State) : Prop where
  shape  : ∃ dv al dl c, Transmitted c { s with dev := dv, addrLatch := al, diagLog := dl } t
  dev    : i.setupRow ≠ some 11 → i.setupRow ≠ some 12 → t.dev = s.dev
  latch  : i.setupRow ≠ some 11 → t.addrLatch = s.addrLatch
  log    : i.setupRow ≠ some 8 → i.setupRow ≠ some 10 → i.setupRow ≠ some 13 → i.setupRow ≠ some 18 →
    t.diagLog = s.diagLog
  cursor : ∀ r, i.setupRow = some r → r ∈ [8, 10, 11, 12, 13, 15, 16, 17, 18] → CursorKept s t
  mem    : (∃ c, firstPacketLength s i = some c ∧ StagedWithin s c t.pma) ∨
    firstPacketLength s i = none ∧ t.pma = s.pma

/-- A transmission leaves the device state, the latch and the log. -/
theorem Transmitted.logs {c : Nat} {s t : State} (h : Transmitted c s t) :
    t.dev = s.dev ∧ t.addrLatch = s.addrLatch ∧ t.diagLog = s.diagLog := by
  obtain ⟨_, _, _, _, _, _, _, _, rfl⟩ := h.shape
  exact ⟨rfl, rfl, rfl⟩

theorem setupEffect_of_exec {i : Instr} {s t : State} (h : s.Quiet) (hi : i.setupRow ≠ none)
    (he : exec i s = .next t) : SetupEffect i s t := by
  rcases exec_setup_cases hi s with ⟨bs, len, r, hl, hserve, hf, hrow, hr⟩ | ⟨dv, al, dl, hack, hf, hdv, hal, hdl⟩ |
      ⟨v, x, l, rfl⟩
  · have ht := transmitted_of_serve hl h (hserve ▸ he)
    obtain ⟨hdv, hal, hdl⟩ := ht.logs
    refine ⟨⟨s.dev, s.addrLatch, s.diagLog, _, ht⟩, fun _ _ => hdv, fun _ => hal, fun _ _ _ _ => hdl,
      fun r' hr' hmem => ?_, .inl ⟨_, hf, ht.mem⟩⟩
    cases hrow.symm.trans hr'
    exact absurd hmem hr
  · obtain ⟨ht, hcur⟩ := transmitted_of_acknowledge (by exact h) (hack ▸ he)
    obtain ⟨hdv', hal', hdl'⟩ := ht.logs
    refine ⟨⟨dv, al, dl, _, ht⟩, fun h11 h12 => hdv'.trans (hdv h11 h12), fun h11 => hal'.trans (hal h11),
      fun h8 h10 h13 h18 => hdl'.trans (hdl h8 h10 h13 h18), fun _ _ _ => hcur, .inl ⟨_, hf, ht.mem⟩⟩
  · have ht : Transmitted 0 s t := .of_handlerReturn h rfl (fun _ _ _ => rfl) he
    obtain ⟨hdv, hal, hdl⟩ := ht.logs
    have hcur := CursorKept.of_handlerReturn (s := s) (by exact h) he ⟨rfl, rfl, rfl, rfl⟩
    refine ⟨⟨s.dev, s.addrLatch, s.diagLog, 0, ht⟩, fun _ _ => hdv, fun _ => hal, fun _ _ _ _ => hdl,
      fun _ _ _ => hcur, .inr ⟨rfl, ?_⟩⟩
    rw [exec, execHidSetFeature, handlerReturn_of_quiet (by exact h)] at he
    cases he
    rfl

/-- Settles O25: no transmission writes the first fields, and the device state, latch and log are kept in their rows. -/
theorem setupRequestsFrame : Obligations.SetupRequestsFrame := by
  unfold Obligations.SetupRequestsFrame
  intro s t i h hi he
  have effect := setupEffect_of_exec h hi he
  obtain ⟨dv, al, dl, c, ht⟩ := effect.shape
  have hepr := ht.epr
  obtain ⟨_, _, _, _, _, _, _, _, rfl⟩ := ht.shape
  exact ⟨rfl, rfl, rfl, rfl, rfl, rfl, rfl, rfl, rfl, rfl, rfl, rfl, rfl, rfl, rfl, rfl, rfl, rfl, rfl, rfl, rfl, rfl,
    rfl, rfl, rfl, effect.dev, effect.latch, effect.log, fun m _ hserved h0 => hepr m hserved h0, effect.cursor⟩

/-- Settles O26: COPY_IN of the first packet is the only store. -/
theorem setupRequestsMemoryFrame : Obligations.SetupRequestsMemoryFrame := by
  unfold Obligations.SetupRequestsMemoryFrame
  intro s t i h hi he
  rcases (setupEffect_of_exec h hi he).mem with ⟨c, hc, hmem⟩ | ⟨hnone, hmem⟩
  · refine ⟨fun c' hc' => ?_, fun hnone => (nomatch hc.symm.trans hnone)⟩
    cases hc.symm.trans hc'
    exact hmem
  · exact ⟨fun c hc => (nomatch hnone.symm.trans hc), fun _ a => by rw [hmem]⟩

end Sys2Proof.Machine
end

section
/-! The bounded wait and its ends (R230 to R233, R312, R336), and the control handler (R200, R240 to R242). -/

namespace Sys2Proof.Machine

/-! ## Going on after a wait -/

/-- The trailing empty packet (R230). -/
theorem resumeTx_of_done {s : State} (h : s.Quiet) (hr : TxReady s 0) (h0 : s.curRem = 0) :
    resumeTx s = .next (servedShort s []) := by
  rw [resumeTx, if_pos h0, writeIrqOp_ep0 h hr, andThen_next, List.take_nil]
  exact returnTx_of_quiet (s := { s with pma := stagedPma s 0 [] }) h

theorem resumeTx_of_more {s : State} (h0 : s.curRem ≠ 0) : resumeTx s = sendChunk s := if_neg h0

/-- A waiting step that observes a completion resumes the transfer. -/
theorem step_of_wait_ctr {s : State} (h : s.Quiet) (hw : s.seq = .wait) (hc : s.istrCtr = true) :
    step s = leaving (resumeTx { s with seq := .run .dispatch }) :=
  step_of_move (by rw [fetch_of_wait hw, fetchWait, pause_of_quiet h, if_neg (not_not.mpr hw), if_pos hc])

/-- Settles O27: the step resumes the transfer, and the cursor says how it goes on. -/
theorem waitResumes : Obligations.WaitResumes := by
  unfold Obligations.WaitResumes
  intro s h hr hw hc hcur m chunk
  have hr' : TxReady { s with seq := .run .dispatch } 0 := hr.congr rfl rfl
  rw [step_of_wait_ctr h hw hc]
  refine ⟨fun h0 => ?_, fun h0 hm => ?_, fun h0 hm => ?_⟩
  · rw [resumeTx_of_done (by exact h) hr' h0]
    rfl
  · have hchunk : chunk = (s.txSrc.drop s.curOff.toNat).take s.curRem.toNat := by
      simp only [chunk, Nat.min_eq_left (Nat.le_of_lt hm)]
    have hlen : chunk.length = s.curRem.toNat := by
      rw [hchunk, List.length_take_of_le (by rw [List.length_drop]; omega)]
    rw [resumeTx_of_more (by exact h0), sendChunk_of_short (by exact h) hr' hm, hlen, hchunk, BitVec.ofNat_toNat,
      BitVec.setWidth_eq]
    rfl
  · have hchunk : chunk = (s.txSrc.drop s.curOff.toNat).take m := by
      simp only [chunk, Nat.min_eq_right hm]
    rw [resumeTx_of_more (by exact h0), sendChunk_of_full (by exact h) hr' hm hcur, hchunk]
    rfl

/-! ## Polling -/

/-- A move of the SIE starts no exit. -/
theorem left_sieMove {s : State} (hs : s.seq ≠ .run .leave) (m : SieMove) : left (s.sieMove m) = s.sieMove m := by
  refine left_of_ne ?_
  rcases (accessed_sieMove s m).seq with hseq | ⟨-, hseq⟩
  · rw [hseq]; exact hs
  · rw [hseq]; nofun

/-- A waiting step without a completion is the next line where that is the SIE's. -/
theorem step_of_wait_sie {s : State} (h : s.Quiet) (hw : s.seq = .wait) (hc : s.istrCtr = false) {m : SieMove}
    {rest : List Line} (hp : s.program = .sie m :: rest) :
    step s = .next ({ countPoll s with program := rest }.sieMove m) := by
  have hf : fetch s = .move (.next ({ countPoll s with program := rest }.sieMove m)) := by
    rw [fetch_of_wait hw, fetchWait, pause_of_quiet h, if_neg (not_not.mpr hw), if_neg (by rw [hc]; nofun), hp]
  rw [step_of_move hf, leaving,
    left_sieMove (by rw [show State.seq { countPoll s with program := rest } = _ from hw]; nofun)]

/-- Otherwise it is a poll. -/
theorem step_of_wait_poll {s : State} (h : s.Quiet) (hw : s.seq = .wait) (hc : s.istrCtr = false)
    (hp : ∀ m rest, s.program ≠ .sie m :: rest) : step s = .next (countPoll s) := by
  have hf : fetch s = .move (.next (countPoll s)) := by
    rw [fetch_of_wait hw, fetchWait, pause_of_quiet h, if_neg (not_not.mpr hw), if_neg (by rw [hc]; nofun)]
    split
    · exact absurd ‹_› (hp _ _)
    · rfl
  rw [step_of_move hf, leaving, left_of_ne (by rw [show (countPoll s).seq = _ from hw]; nofun)]

/-- Settles O28: the poll counter is what `countPoll` makes of it. -/
theorem waitHoldsWithoutCompletion : Obligations.WaitHoldsWithoutCompletion := by
  unfold Obligations.WaitHoldsWithoutCompletion
  intro s h hw hc
  exact ⟨(countPoll s).waitCtr, fun m rest hp => step_of_wait_sie h hw hc hp, step_of_wait_poll h hw hc⟩

/-! ## The bound -/

theorem sieMove_timeout {s : State} (hw : s.seq = .wait) (hc : s.istrCtr = false) :
    s.sieMove .timeout = { s with seq := .run .timeout } :=
  if_pos (by simp [State.sieEnabled, hw, hc])

/-- Settles O29: the tail logs the cursor and returns the word of the snapshot. -/
theorem timeoutAbandonsTransfer : Obligations.TimeoutAbandonsTransfer := by
  unfold Obligations.TimeoutAbandonsTransfer
  intro s h hw hc
  refine ⟨sieMove_timeout hw hc, ?_⟩
  rw [sieMove_timeout hw hc, step_of_move (by exact fetch_of_run (p := .timeout) rfl), timeoutTail,
    returnTx_of_quiet (by exact h)]
  rfl

/-! ## The words of the final writes -/

theorem statTx_normalize (v : Half) : statTx (normalize v) = statTx v := by
  rw [normalize_eq_transform, statTx, extractLsb'_transform]
  exact BitVec.xor_zero.trans BitVec.and_allOnes

theorem dtogTx_normalize (v : Half) : dtogTx (normalize v) = false := by
  rw [dtogTx, normalize_eq_transform, getLsbD_transform]
  simp

theorem ctrTx_normalize (v : Half) : ctrTx (normalize v) = false := by
  rw [ctrTx, normalize_eq_transform, getLsbD_transform]
  simp

theorem ctrRx_normalize (v : Half) : ctrRx (normalize v) = false := by
  rw [ctrRx, normalize_eq_transform, getLsbD_transform]
  simp

theorem statTx_retTx (v : Half) : statTx (retTx v) = statTx v ^^^ 3#2 := by
  rw [retTx, setValidTx, setNakRx, transform_transform, statTx, extractLsb'_transform]
  exact congrArg (· ^^^ 3#2) BitVec.and_allOnes

/-- The word `RET_TX(v)` lands transmit by the statuses of the register and of `v` (R201, R257). -/
theorem statTx_write_retTx (r v : Half) :
    statTx (writeRule r (normalize (retTx v))) = statTx r ^^^ (statTx v ^^^ 3#2) := by
  obtain ⟨-, -, -, -, -, -, -, -, hstat, -⟩ := writeRuleByField r (normalize (retTx v))
  rw [hstat, statTx_normalize, statTx_retTx]

/-- A normalized word clears both transaction-complete flags (R149). -/
theorem flags_write_normalize (r v : Half) :
    ctrRx (writeRule r (normalize v)) = false ∧ ctrTx (writeRule r (normalize v)) = false := by
  obtain ⟨hrx, -, -, -, -, -, htx, -⟩ := writeRuleByField r (normalize v)
  exact ⟨by rw [hrx, ctrRx_normalize, Bool.and_false], by rw [htx, ctrTx_normalize, Bool.and_false]⟩

/-- Settles O30: VALID in hardware, exclusive-or-ed with the word of a snapshot that held NAK, is NAK. -/
theorem staleSnapshotDisarms : Obligations.StaleSnapshotDisarms := by
  unfold Obligations.StaleSnapshotDisarms
  intro r s hr hs
  obtain ⟨-, -, -, -, -, -, -, hdtog, -⟩ := writeRuleByField r (normalize (retTx s))
  refine ⟨?_, ?_, (flags_write_normalize r _).2⟩
  · rw [statTx_write_retTx, hr, hs]
    decide
  · rw [hdtog, dtogTx_normalize, Bool.xor_false]

/-! ## The control handler -/

theorem callHandler_of_ep0 {s : State} (ha : (s.epAt s.served.toNat).allocated = true)
    (hh : (s.epAt s.served.toNat).handler = .ep0) : callHandler s = ep0Handler s := by
  rw [callHandler, if_pos ha, hh]

/-- A latched SETUP (R200). -/
theorem ep0Handler_of_setup {s : State} (hx : (s.epAt s.served.toNat).rxFlag = true)
    (hs : (s.epAt s.served.toNat).setupFlag = true) :
    ep0Handler s = .next { s with phase := .dispatch, seq := .run .dispatch } :=
  if_pos (by rw [hx, hs]; rfl)

/-- A completion or no flag at all, the address applied where the flag of a transmission is latched (R240 to R242). -/
theorem ep0Handler_of_completion {s : State} (h : s.Quiet)
    (hs : ¬ ((s.epAt s.served.toNat).rxFlag = true ∧ (s.epAt s.served.toNat).setupFlag = true)) :
    ep0Handler s =
      let u := if (s.epAt s.served.toNat).txFlag then afterAddress s else s
      if (s.epAt s.served.toNat).rxFlag || (s.epAt s.served.toNat).txFlag then
        handlerReturn (retCpl (s.epAt s.served.toNat).status) { u with phase := .waitSetup }
      else handlerReturn (retKeep (s.epAt s.served.toNat).status) u := by
  rw [ep0Handler, if_neg (by rw [Bool.and_eq_true]; exact hs), addressApply_of_quiet h]

/-- Settles O35: the flags of the snapshot are those of the register. -/
theorem controlHandlerCases : Obligations.ControlHandlerCases := by
  unfold Obligations.ControlHandlerCases
  intro s n out i r e h hc hn hcopy ha hh
  obtain ⟨hserved, hrace, -, -⟩ := afterEvent_fields s n out
  have hq : e.Quiet := hrace.trans h
  have hep : e.epAt e.served.toNat = snapped (s.epAt n.toNat) r (s.pma.read16 (8 * n.toNat + 6)) := by
    rw [hserved]
    exact afterEvent_epAt s n out hn
  have hexec : exec i s = ep0Handler e := by
    have hbranch : exec i s = ctrBranch n out s := by cases out <;> rfl
    rw [hbranch, ctrBranch_of_quiet h hc hn out hcopy]
    exact callHandler_of_ep0 (by rw [hep]; exact ha) (by rw [hep]; exact hh)
  have hrx : (e.epAt e.served.toNat).rxFlag = ctrRx r := by rw [hep]; rfl
  have htx : (e.epAt e.served.toNat).txFlag = ctrTx r := by rw [hep]; rfl
  have hsetup : (e.epAt e.served.toNat).setupFlag = setupBit r := by rw [hep]; rfl
  have hstatus : (e.epAt e.served.toNat).status = r := by rw [hep]; rfl
  rw [hexec]
  obtain ⟨hserved', hrace', -, -, -⟩ := afterAddress_fields e
  refine ⟨fun hr hs => ep0Handler_of_setup (hrx.trans hr) (hsetup.trans hs), fun hrs ht => ?_, fun hr hs ht => ?_,
    fun hr ht => ?_⟩
  · rw [ep0Handler_of_completion hq (by rw [hrx, hsetup]; exact hrs)]
    simp only [hrx, htx, hstatus, ht, Bool.or_true, if_true, retCpl_eq]
    exact handlerReturn_eq_afterFinal (by exact hrace'.trans hq) (by exact hserved'.trans hserved) _
  · rw [ep0Handler_of_completion hq (by rw [hrx, hsetup, hs]; simp)]
    simp only [hrx, htx, hstatus, hr, ht, Bool.or_false, if_true, Bool.false_eq_true, if_false, retCpl_eq]
    exact handlerReturn_eq_afterFinal (by exact hq) (by exact hserved) _
  · rw [ep0Handler_of_completion hq (by rw [hrx, hr]; simp)]
    simp only [hrx, htx, hstatus, hr, ht, Bool.or_false, Bool.false_eq_true, if_false]
    exact handlerReturn_eq_afterFinal hq hserved _

end Sys2Proof.Machine
end

section
/-! The points of the schedule: what a step runs at each of them (R27, R85, R202, R250 to R258, R317). -/

namespace Sys2Proof.Machine

/-! ## Inside an invocation -/

/-- The word of a well-formed operation of format SETUP decodes to it (R105). -/
theorem decodeSetup_of_encode {rqHid : Byte} {i : Instr} {w : BitVec 64} (hwf : i.wellFormed rqHid = true)
    (he : encode rqHid i = .setup w) : decodeSetup rqHid w = i := by
  have h := decodeEncodeRoundTrip rqHid i hwf
  rw [he] at h
  cases h
  rfl

theorem step_of_dispatch {s : State} (hs : s.seq = .run .dispatch) :
    step s = leaving (exec (decodeSetup s.cfg.rqHidSetFeature s.setup) s) := step_of_instr (fetch_of_run hs)

theorem step_of_serve {s : State} {i : Instr} (hs : s.seq = .run .serve) (hd : decodeCtr s.istrLatch = some i) :
    step s = leaving (exec i s) :=
  step_of_instr (by rw [fetch_of_run hs, fetchRun, hd])

theorem step_of_reset {s : State} (hs : s.seq = .run .resetTest) (hr : s.pause.istrReset = true) :
    step s = leaving (exec .irqReset { s.pause with seq := .run .ctrTest }) :=
  step_of_instr (by rw [fetch_of_run hs, fetchRun, if_pos hr])

theorem step_of_no_reset {s : State} (hs : s.seq = .run .resetTest) (hr : s.pause.istrReset = false) :
    step s = .next { s.pause with seq := .run .ctrTest } := by
  rw [step_of_move (by rw [fetch_of_run hs, fetchRun, if_neg (by rw [hr]; nofun)]), leaving, left_of_ne]
  nofun

/-- The test of `ISTR.CTR` latches the word it reads (R253). -/
theorem step_of_ctr {s : State} (hs : s.seq = .run .ctrTest) (hc : s.pause.istrCtr = true) :
    step s = .next { (readIstr s).2 with istrLatch := (readIstr s).1, seq := .run .serve } := by
  rw [step_of_move (by rw [fetch_of_run hs, fetchRun, if_pos (by rw [readIstr_ctr, hc])]), leaving, left_of_ne]
  nofun

theorem step_of_no_ctr {s : State} (hs : s.seq = .run .ctrTest) (hc : s.pause.istrCtr = false) :
    step s = .next (exitInterrupt s.pause) := by
  rw [step_of_move (by rw [fetch_of_run hs, fetchRun, if_neg (by rw [readIstr_ctr, hc]; nofun)]),
    readIstr_of_no_flag hc, leaving, left_of_ne]
  nofun

theorem step_of_ext_write {s : State} (hs : s.seq = .run .ext) {w : HandlerWrite} {rest : List HandlerWrite}
    (hq : s.hq = w :: rest) : step s = leaving (exec (.writeIrq w.n w.data) { s with hq := rest }) :=
  step_of_instr (by rw [fetch_of_run hs, fetchRun, hq])

/-- An external handler with nothing outstanding returns, and the invocation leaves (R256 to R258). -/
theorem step_of_ext_return {s : State} (hs : s.seq = .run .ext) (hq : s.hq = []) :
    step s = .next { s.pause with
      epr := eprAfter s.pause s.served.toNat (normalize s.hword), irqMasked := false, seq := .idle } := by
  rw [step_of_move (by rw [fetch_of_run hs, fetchRun, hq])]
  rfl

/-! ## Between invocations -/

theorem step_of_idle_cmd {s : State} {p : Port} {split : Option Nat} {rest : List Line} {i : Instr} (hs : s.seq = .idle)
    (ha : s.app = []) (hp : s.program = .cmd p split :: rest) (hd : decodeCmd p = .ok i) :
    step s = leaving (exec i { s with program := rest, appSplit := split }) :=
  step_of_instr (by rw [fetch_of_idle hs, fetchIdle, hp]; simp only [ha, List.isEmpty_nil, if_true, hd])

theorem step_of_idle_sie {s : State} {m : SieMove} {rest : List Line} (hs : s.seq = .idle)
    (hp : s.program = .sie m :: rest) : step s = .next ({ s with program := rest }.sieMove m) := by
  rw [step_of_move (by rw [fetch_of_idle hs, fetchIdle, hp]), leaving,
    left_sieMove (by rw [show State.seq { s with program := rest } = _ from hs]; nofun)]

theorem step_of_idle_app {s : State} {split : Option Nat} {rest : List Line} (hs : s.seq = .idle)
    (hp : s.program = .app split :: rest) : step s = leaving (resumeApp split { s with program := rest }) :=
  step_of_move (by rw [fetch_of_idle hs, fetchIdle, hp])

/-- A preempted command goes on before the next one starts (R317). -/
theorem step_of_idle_cmd_waiting {s : State} {p : Port} {split : Option Nat} {rest : List Line} (hs : s.seq = .idle)
    (hp : s.program = .cmd p split :: rest) (ha : s.app ≠ []) : step s = leaving (resumeApp none s) :=
  step_of_move (by
    rw [fetch_of_idle hs, fetchIdle, hp]
    simp only [List.isEmpty_iff, if_neg ha])

/-- A preempted command goes on when no line and no request is left. -/
theorem step_of_idle_app_waiting {s : State} (hs : s.seq = .idle) (hp : s.program = []) (hr : s.irqRequest = false)
    (ha : s.app ≠ []) : step s = leaving (resumeApp none s) :=
  step_of_move (by
    rw [fetch_of_idle hs, fetchIdle, hp]
    simp only [hr, Bool.false_and, Bool.false_eq_true, if_false, List.isEmpty_iff, if_neg ha])

/-- Settles O50: one lemma per point. -/
theorem stepRunsDecodedInstruction : Obligations.StepRunsDecodedInstruction := by
  unfold Obligations.StepRunsDecodedInstruction
  intro s
  refine ⟨fun i => ⟨fun hs hwf he => ?_, step_of_serve, fun p split rest hs ha hp hd => step_of_idle_cmd hs ha hp hd⟩,
    fun hs => ⟨step_of_reset hs, step_of_no_reset hs⟩, readIstr_ctr s,
    fun hs => ⟨fun hc => ?_, step_of_no_ctr hs⟩,
    fun hs => ⟨fun w rest hq => step_of_ext_write hs hq, step_of_ext_return hs⟩,
    fun hs => ⟨fun m rest hp => step_of_idle_sie hs hp, fun split rest hp => step_of_idle_app hs hp,
      fun p split rest hp ha => step_of_idle_cmd_waiting hs hp ha, step_of_idle_app_waiting hs⟩⟩
  · rw [step_of_dispatch hs, decodeSetup_of_encode hwf he]
  · obtain ⟨draws, count, hread⟩ := readIstr_shape s
    exact ⟨draws, count, by rw [step_of_ctr hs hc, hread]⟩

end Sys2Proof.Machine
end

section
/-! The packets TX0 cuts a payload into (R230, R234, R235): full ones, then one shorter than M, which is empty exactly
when M divides the length. -/

namespace Sys2Proof.Machine

theorem packetsOf_of_lt {m : Nat} {bs : List Byte} (h : bs.length < m) (fuel : Nat) : packetsOf m fuel bs = [bs] := by
  cases fuel with
  | zero => rfl
  | succ fuel => exact if_pos h

theorem packetsOf_of_le {m : Nat} {bs : List Byte} (h : m ≤ bs.length) (fuel : Nat) :
    packetsOf m (fuel + 1) bs = bs.take m :: packetsOf m fuel (bs.drop m) := if_neg (Nat.not_lt.mpr h)

/-- With fuel for every byte, the packets are the last one, or a full one before those of the rest. -/
theorem packetsOf_induction {m : Nat} (hm : 0 < m) {P : List Byte → List (List Byte) → Prop}
    (last : ∀ bs, bs.length < m → P bs [bs])
    (full : ∀ bs ps, m ≤ bs.length → P (bs.drop m) ps → P bs (bs.take m :: ps)) :
    ∀ fuel bs, bs.length ≤ fuel → P bs (packetsOf m fuel bs) := by
  intro fuel
  induction fuel with
  | zero => exact fun bs h => last bs (by omega)
  | succ fuel ih =>
    intro bs h
    rcases Nat.lt_or_ge bs.length m with hlt | hle
    · rw [packetsOf_of_lt hlt]
      exact last bs hlt
    · rw [packetsOf_of_le hle]
      exact full bs _ hle (ih _ (by rw [List.length_drop]; omega))

/-- A full packet is not empty. -/
theorem take_ne_nil {m : Nat} (hm : 0 < m) {bs : List Byte} (h : m ≤ bs.length) : bs.take m ≠ [] := by
  rw [ne_eq, List.take_eq_nil_iff, not_or]
  exact ⟨Nat.ne_of_gt hm, List.ne_nil_of_length_pos (Nat.lt_of_lt_of_le hm h)⟩

section
variable {m : Nat} (hm : 0 < m) {fuel : Nat} {bs : List Byte} (hf : bs.length ≤ fuel)
include hm hf

theorem flatten_packetsOf : (packetsOf m fuel bs).flatten = bs := by
  refine packetsOf_induction hm (P := fun bs ps => ps.flatten = bs) (fun bs _ => ?_) (fun bs ps _ ih => ?_) fuel bs hf
  · exact List.append_nil bs
  · rw [List.flatten_cons, ih, List.take_append_drop]

theorem nil_mem_packetsOf_iff : [] ∈ packetsOf m fuel bs ↔ bs.length % m = 0 := by
  refine packetsOf_induction hm (P := fun bs ps => [] ∈ ps ↔ bs.length % m = 0) (fun bs h => ?_) (fun bs ps h ih => ?_)
    fuel bs hf
  · rw [List.mem_singleton, eq_comm, Nat.mod_eq_of_lt h, List.length_eq_zero_iff]
  · rw [List.mem_cons, or_iff_right (take_ne_nil hm h).symm, ih, List.length_drop, ← Nat.mod_eq_sub_mod h]

/-- The last packet holds what is left of the length. -/
theorem getLast?_packetsOf : ∃ p, (packetsOf m fuel bs).getLast? = some p ∧ p.length = bs.length % m := by
  refine packetsOf_induction hm (P := fun bs ps => ∃ p, ps.getLast? = some p ∧ p.length = bs.length % m)
    (fun bs h => ?_) (fun bs ps h ih => ?_) fuel bs hf
  · exact ⟨bs, rfl, (Nat.mod_eq_of_lt h).symm⟩
  · obtain ⟨p, hp, hlen⟩ := ih
    refine ⟨p, ?_, ?_⟩
    · rw [List.getLast?_cons, hp, Option.getD_some]
    · rw [hlen, List.length_drop, ← Nat.mod_eq_sub_mod h]

/-- `ceil(L / M)` packets are not empty (R234). -/
theorem length_filter_packetsOf :
    ((packetsOf m fuel bs).filter fun p => !p.isEmpty).length = (bs.length + m - 1) / m := by
  refine packetsOf_induction hm (P := fun bs ps => (ps.filter fun p => !p.isEmpty).length = (bs.length + m - 1) / m)
    (fun bs h => ?_) (fun bs ps h ih => ?_) fuel bs hf
  · cases bs with
    | nil => exact (Nat.div_eq_of_lt (by simp only [List.length_nil]; omega)).symm
    | cons b bs =>
      rw [List.length_cons] at h ⊢
      rw [show bs.length + 1 + m - 1 = bs.length + m by omega, Nat.add_div_right _ hm, Nat.div_eq_of_lt (by omega)]
      rfl
  · have hfull : (!(bs.take m).isEmpty) = true := by
      rw [Bool.not_eq_true', List.isEmpty_eq_false_iff]
      exact take_ne_nil hm h
    rw [List.filter_cons, if_pos hfull, List.length_cons, ih, List.length_drop, ← Nat.add_div_right _ hm]
    congr 1
    omega

end

end Sys2Proof.Machine
end

section
/-! A whole transfer to a host that takes every packet (R230 to R235, R334): each packet is staged and armed, the host
takes it, and the completion brings the next one. -/

namespace Sys2Proof.Machine

/-! ## Registers -/

/-- An IN leaves transmit NAK (R334). -/
theorem statTx_sieInReg (w : Half) : statTx (sieInReg w) = 2#2 := by
  apply BitVec.eq_of_getLsbD_eq
  intro k hk
  simp only [statTx, sieInReg, BitVec.getLsbD_extractLsb', BitVec.getLsbD_or, BitVec.getLsbD_and]
  interval_cases k <;> simp

/-- An IN sets CTR_TX (R334). -/
theorem ctrTx_sieInReg (w : Half) : ctrTx (sieInReg w) = true := by
  simp only [ctrTx, sieInReg, BitVec.getLsbD_or]
  simp

theorem flagged_congr {s t : State} {n : Nat} (h : t.eprAt n = s.eprAt n) : t.flagged n = s.flagged n := by
  rw [State.flagged, State.flagged, h]

theorem istrCtr_eq_false {s : State} (h : ∀ n, n < 8 → s.flagged n = false) : s.istrCtr = false := by
  rw [State.istrCtr, List.any_eq_false]
  intro n hn
  rw [h n (List.mem_range.mp hn)]
  nofun

theorem istrCtr_of_flagged {s : State} {n : Nat} (hn : n < 8) (h : s.flagged n = true) : s.istrCtr = true :=
  List.any_eq_true.mpr ⟨n, List.mem_range.mpr hn, h⟩

/-! ## What COPY_IN leaves of packet memory -/

section
variable {s : State} (hwf : s.pma.wf = true) (hbase : bumpInit ≤ (s.epAt 0).txBase.toNat) (bytes : List Byte)

include hwf in
theorem wf_stagedPma : (stagedPma s 0 bytes).wf = true := wf_write16 _ _ _ (wf_writeUnits _ _ _ hwf)

include hwf in
theorem count_stagedPma : (stagedPma s 0 bytes).read16 (btCountTx 0) = BitVec.ofNat 16 bytes.length :=
  read16_write16_self _ _ _ (wf_writeUnits _ _ _ hwf)

include hwf hbase in
theorem readBytes_stagedPma : (stagedPma s 0 bytes).readBytes (s.epAt 0).txBase.toNat bytes.length = bytes := by
  rw [stagedPma, readBytes_congr (m := s.pma.writeUnits (s.epAt 0).txBase.toNat (copyUnits bytes)) _ _
    fun a ha _ => read_write16_ne _ _ _ _ (by simp only [bumpInit] at hbase; omega)]
  exact readBytes_writeUnits_copyUnits _ _ _ hwf

include hbase in
theorem addr_stagedPma : (stagedPma s 0 bytes).read16 (btAddrTx 0) = s.pma.read16 (btAddrTx 0) := by
  simp only [bumpInit] at hbase
  have unchanged : ∀ a, a < 2 → (s.pma.writeUnits (s.epAt 0).txBase.toNat (copyUnits bytes)).read a = s.pma.read a :=
    fun a ha => read_writeUnits_copyUnits_ne _ _ _ _ (.inl (by omega))
  rw [stagedPma, read16_write16_ne _ _ _ _ (.inl (by decide)), Memory.read16, Memory.read16,
    unchanged _ (by decide), unchanged _ (by decide)]

end

/-! ## The states of a transfer -/

/-- Endpoint 0, of packet size m, in a transfer to a host that takes every packet: no other completion is pending, and
the snapshot held transmit NAK. -/
structure Sending (m : Nat) (s : State) : Prop where
  quiet   : s.Quiet
  ready   : TxReady s 0
  size    : (s.epAt 0).txSize.toNat = m
  pos     : 0 < m
  small   : m < 1024
  wf      : s.pma.wf = true
  base    : bumpInit ≤ (s.epAt 0).txBase.toNat
  enabled : s.daddr.getLsbD 7 = true
  addr    : s.pma.read16 (btAddrTx 0) = (s.epAt 0).txBase
  served  : s.served = 0
  stale   : statTx s.snapshotWord = 2#2
  others  : ∀ n, 0 < n → n < 8 → s.flagged n = false

/-- The packet p is staged at endpoint 0 and armed, no completion is pending. -/
structure Loaded (s : State) (p : List Byte) : Prop where
  bytes : s.pma.readBytes (s.epAt 0).txBase.toNat p.length = p
  count : s.inLength 0 = p.length
  room  : p.length ≤ (s.epAt 0).txSize.toNat
  armed : statTx (s.eprAt 0) = 3#2
  clear : s.flagged 0 = false

/-- The bytes bs of the payload are still to be staged (R34, R230). -/
structure Remaining (s : State) (bs : List Byte) : Prop where
  inside : s.curOff.toNat + s.curRem.toNat ≤ s.txSrc.length
  bound  : s.curOff.toNat + s.curRem.toNat < 65536
  bytes  : (s.txSrc.drop s.curOff.toNat).take s.curRem.toNat = bs

theorem Remaining.length {s : State} {bs : List Byte} (h : Remaining s bs) : bs.length = s.curRem.toNat := by
  rw [← h.bytes, List.length_take_of_le (by rw [List.length_drop]; have := h.inside; omega)]

/-- The first packet of the bytes bs is staged: a short one with the invocation over, a full one with the wait begun. -/
structure Staged (m : Nat) (bs : List Byte) (s : State) : Prop where
  sending : Sending m s
  loaded  : Loaded s (bs.take m)
  last    : bs.length < m → s.seq = .idle
  more    : m ≤ bs.length → s.seq = .wait ∧ Remaining s (bs.drop m)

/-- The wait stands before a completion, the bytes bs are still to be staged. -/
structure Completed (m : Nat) (bs : List Byte) (s : State) : Prop where
  sending   : Sending m s
  waiting   : s.seq = .wait
  flag      : s.flagged 0 = true
  nak       : statTx (s.eprAt 0) = 2#2
  remaining : Remaining s bs

/-- A transfer goes on when packet memory keeps ADDR_TX of endpoint 0 and the other endpoints keep their registers. -/
theorem Sending.congr {m : Nat} {s t : State} (h : Sending m s) (hwf : t.pma.wf = true)
    (haddr : t.pma.read16 (btAddrTx 0) = s.pma.read16 (btAddrTx 0)) (hepr : ∀ n, n ≠ 0 → t.eprAt n = s.eprAt n)
    (hrace : t.race = s.race := by rfl) (hcfg : t.cfg = s.cfg := by rfl) (hep : t.ep = s.ep := by rfl)
    (hdaddr : t.daddr = s.daddr := by rfl) (hserved : t.served = s.served := by rfl) : Sending m t where
  quiet := hrace.trans h.quiet
  ready := h.ready.congr hcfg hep
  size := by rw [epAt_congr hep]; exact h.size
  pos := h.pos
  small := h.small
  wf := hwf
  base := by rw [epAt_congr hep]; exact h.base
  enabled := by rw [hdaddr]; exact h.enabled
  addr := by rw [epAt_congr hep, haddr]; exact h.addr
  served := hserved.trans h.served
  stale := by rw [State.snapshotWord, hserved, epAt_congr hep]; exact h.stale
  others n h0 h8 := (flagged_congr (hepr n (Nat.ne_of_gt h0))).trans (h.others n h0 h8)

/-- Changes outside packet memory and the endpoint registers leave a transfer as it is. -/
theorem Sending.of_bookkeeping {m : Nat} {s t : State} (h : Sending m s) (hpma : t.pma = s.pma := by rfl)
    (hepr : t.epr = s.epr := by rfl) (hrace : t.race = s.race := by rfl) (hcfg : t.cfg = s.cfg := by rfl)
    (hep : t.ep = s.ep := by rfl) (hdaddr : t.daddr = s.daddr := by rfl) (hserved : t.served = s.served := by rfl) :
    Sending m t :=
  h.congr (hpma ▸ h.wf) (by rw [hpma]) (fun n _ => eprAt_congr hepr n) hrace hcfg hep hdaddr hserved

/-! ## Staging -/

/-- After a packet is staged and a normalized word of the given transmit status is written, the packet is loaded. -/
theorem Sending.loaded {m : Nat} {s t : State} (h : Sending m s) {p : List Byte} (hp : p.length ≤ m) {v : Half}
    (hv : statTx (writeRule (s.eprAt 0) (normalize v)) = 3#2) (hpma : t.pma = stagedPma s 0 p)
    (hepr : t.epr = eprAfter s 0 (normalize v)) (hep : t.ep = s.ep) : Loaded t p := by
  have hreg : t.eprAt 0 = writeRule (s.eprAt 0) (normalize v) :=
    (eprAt_congr (s := s.writeEpr 0 (normalize v)) hepr 0).trans (eprAt_writeEpr_self s 0 _ (by decide))
  obtain ⟨hrx, htx⟩ := flags_write_normalize (s.eprAt 0) v
  have hsmall := h.small
  refine ⟨?_, ?_, ?_, ?_, ?_⟩
  · rw [epAt_congr hep, hpma, readBytes_stagedPma h.wf h.base]
  · rw [State.inLength, hpma, count_stagedPma h.wf, receivedCount, BitVec.extractLsb'_toNat, BitVec.toNat_ofNat,
      Nat.shiftRight_zero]
    omega
  · rw [epAt_congr hep, h.size]
    exact hp
  · rw [hreg, hv]
  · rw [State.flagged, hreg, hrx, htx]
    rfl

/-- Staging keeps the transfer. -/
theorem Sending.of_staged {m : Nat} {s t : State} (h : Sending m s) {p : List Byte} {v : Half}
    (hpma : t.pma = stagedPma s 0 p) (hepr : t.epr = eprAfter s 0 v) (hrace : t.race = s.race := by rfl)
    (hcfg : t.cfg = s.cfg := by rfl) (hep : t.ep = s.ep := by rfl) (hdaddr : t.daddr = s.daddr := by rfl)
    (hserved : t.served = s.served := by rfl) : Sending m t :=
  h.congr (by rw [hpma]; exact wf_stagedPma h.wf p) (by rw [hpma]; exact addr_stagedPma h.base p)
    (fun n hn => (eprAt_congr (s := s.writeEpr 0 v) hepr n).trans (eprAt_writeEpr_ne s 0 n v hn.symm))
    hrace hcfg hep hdaddr hserved

/-- A short packet with the final write is the last one (R230, R257). -/
theorem Sending.staged_short {m : Nat} {s : State} (h : Sending m s) (hnak : statTx (s.eprAt 0) = 2#2) {bs : List Byte}
    (hbs : bs.length < m) : Staged m bs (left (servedShort s bs)) := by
  have hserved : s.served.toNat = 0 := by rw [h.served]; rfl
  have hepr : (left (servedShort s bs)).epr = eprAfter s 0 (normalize (retTx s.snapshotWord)) := by
    rw [← hserved]; rfl
  have hv : statTx (writeRule (s.eprAt 0) (normalize (retTx s.snapshotWord))) = 3#2 := by
    rw [statTx_write_retTx, hnak, h.stale]
    decide
  refine ⟨h.of_staged rfl hepr, ?_, fun _ => rfl, fun hle => absurd hbs (Nat.not_lt.mpr hle)⟩
  rw [List.take_of_length_le (Nat.le_of_lt hbs)]
  exact h.loaded (Nat.le_of_lt hbs) hv rfl hepr rfl

/-- A chunk of M bytes with ARM_MID leaves the rest to be staged (R230, R231). -/
theorem Sending.staged_chunk {m : Nat} {s : State} (h : Sending m s) {bs : List Byte} (hbs : m ≤ bs.length)
    (hrem : Remaining s bs) : Staged m bs (servedChunk s (bs.take m)) := by
  have hlen : (bs.take m).length = m := List.length_take_of_le hbs
  have hv : statTx (writeRule (s.eprAt 0) (normalize (retTx (s.eprAt 0)))) = 3#2 := by
    rw [statTx_write_retTx, ← BitVec.xor_assoc, BitVec.xor_self, BitVec.zero_xor]
  refine ⟨h.of_staged rfl rfl, h.loaded (Nat.le_of_eq hlen) hv rfl rfl rfl, fun hlt => absurd hlt (Nat.not_lt.mpr hbs),
    fun _ => ⟨rfl, ?_⟩⟩
  have hrest := hrem.length
  have hinside := hrem.inside
  have hbound := hrem.bound
  have hoff : (servedChunk s (bs.take m)).curOff.toNat = s.curOff.toNat + m := by
    show (s.curOff + BitVec.ofNat 16 (bs.take m).length).toNat = _
    rw [hlen, BitVec.toNat_add, BitVec.toNat_ofNat]
    omega
  have hleft : (servedChunk s (bs.take m)).curRem.toNat = s.curRem.toNat - m := by
    show (s.curRem - BitVec.ofNat 16 (bs.take m).length).toNat = _
    rw [hlen, BitVec.toNat_sub, BitVec.toNat_ofNat]
    omega
  refine ⟨?_, ?_, ?_⟩
  · rw [hoff, hleft]
    exact Nat.le_trans (by omega) hinside
  · rw [hoff, hleft]
    omega
  · rw [hoff, hleft, ← hrem.bytes, List.drop_take, List.drop_drop]
    rfl

/-! ## The steps -/

/-- The host takes the staged packet (R334). -/
theorem Loaded.sieMove {m : Nat} {s : State} (hs : Sending m s) {p : List Byte} (h : Loaded s p) :
    s.sieMove (.inTok 0) =
      { s with wireIn := s.wireIn ++ [(0#4, p)], epr := s.epr.setIfInBounds 0 (sieInReg (s.eprAt 0)) } := by
  have hroom := hs.ready.room
  have hfit := h.room
  have hen : s.sieEnabled (.inTok 0) = true := by
    have hcount : s.inLength (0 : BitVec 4).toNat = p.length := h.count
    have haddr : s.pma.read16 (btAddrTx (0 : BitVec 4).toNat) = (s.epAt 0).txBase := hs.addr
    have harmed : statTx (s.eprAt (0 : BitVec 4).toNat) = statValid := h.armed
    simp only [State.sieEnabled, State.enabled, hs.enabled, hcount, haddr, harmed, Bool.and_eq_true, beq_self_eq_true,
      decide_eq_true_eq, true_and]
    exact ⟨by decide, by omega⟩
  rw [State.sieMove, if_pos hen, State.sieEffect]
  show State.setEpr { s with wireIn := s.wireIn ++ [(0#4, s.pma.readBytes (s.pma.read16 (btAddrTx 0)).toNat
    (s.inLength 0))] } 0 _ = _
  rw [hs.addr, h.count, h.bytes]
  rfl

theorem Sending.istrCtr_eq_false {m : Nat} {s : State} (h : Sending m s) (h0 : s.flagged 0 = false) :
    s.istrCtr = false := by
  refine Machine.istrCtr_eq_false fun n hn => ?_
  cases n with
  | zero => exact h0
  | succ n => exact h.others _ (Nat.succ_pos n) hn

/-- Outside a wait the host takes the last packet. -/
theorem Staged.step_last {m : Nat} {bs : List Byte} {s : State} (h : Staged m bs s) (hbs : bs.length < m)
    {rest : List Line} (hp : s.program = .sie (.inTok 0) :: rest) :
    ∃ t, step s = .next t ∧ t.seq = .idle ∧ t.wireIn = s.wireIn ++ [(0#4, bs)] := by
  have hidle := h.last hbs
  have hsend : Sending m { s with program := rest } := h.sending.of_bookkeeping
  have hload : Loaded { s with program := rest } bs := by
    have hl := h.loaded
    rw [List.take_of_length_le (Nat.le_of_lt hbs)] at hl
    exact ⟨hl.bytes, hl.count, hl.room, hl.armed, hl.clear⟩
  exact ⟨_, (step_of_idle_sie hidle hp).trans (congrArg _ (hload.sieMove hsend)), hidle, rfl⟩

/-- During the wait the host takes a full packet. -/
theorem Staged.step_full {m : Nat} {bs : List Byte} {s : State} (h : Staged m bs s) (hbs : m ≤ bs.length)
    {rest : List Line} (hp : s.program = .sie (.inTok 0) :: rest) :
    ∃ t, step s = .next t ∧ Completed m (bs.drop m) t ∧ t.program = rest ∧
      t.wireIn = s.wireIn ++ [(0#4, bs.take m)] := by
  obtain ⟨hwait, hrem⟩ := h.more hbs
  have hctr := h.sending.istrCtr_eq_false h.loaded.clear
  have hsend : Sending m { countPoll s with program := rest } := h.sending.of_bookkeeping
  have hload : Loaded { countPoll s with program := rest } (bs.take m) :=
    ⟨h.loaded.bytes, h.loaded.count, h.loaded.room, h.loaded.armed, h.loaded.clear⟩
  refine ⟨_, (step_of_wait_sie h.sending.quiet hwait hctr hp).trans (congrArg _ (hload.sieMove hsend)), ?_, rfl, rfl⟩
  have hreg := eprAt_setEpr_self s 0 (sieInReg (s.eprAt 0)) (by decide)
  refine ⟨hsend.congr h.sending.wf rfl fun n hn => eprAt_setEpr_ne s 0 n _ hn.symm, hwait, ?_,
    (congrArg statTx hreg).trans (statTx_sieInReg _), ⟨hrem.inside, hrem.bound, hrem.bytes⟩⟩
  refine (flagged_congr (s := s.setEpr 0 (sieInReg (s.eprAt 0))) rfl).trans ?_
  rw [State.flagged, hreg, ctrTx_sieInReg, Bool.or_true]

/-- The completion brings the next packet. -/
theorem Completed.step {m : Nat} {bs : List Byte} {s : State} (h : Completed m bs s) :
    ∃ t, step s = .next t ∧ Staged m bs t ∧ t.program = s.program ∧ t.wireIn = s.wireIn := by
  have hs := h.sending
  have hsize := hs.size
  have hlen := h.remaining.length
  obtain ⟨hdone, hshort, hfull⟩ := waitResumes s hs.quiet hs.ready h.waiting
    (istrCtr_of_flagged (by decide) h.flag) h.remaining.inside
  simp only [hsize] at hshort hfull
  rcases Nat.lt_or_ge bs.length m with hlt | hle
  · by_cases h0 : s.curRem = 0
    · have hnil : bs = [] := List.eq_nil_of_length_eq_zero (by rw [hlen, h0]; rfl)
      subst hnil
      exact ⟨_, hdone h0, hs.staged_short h.nak hlt, rfl, rfl⟩
    · rw [Nat.min_eq_left (by omega), h.remaining.bytes] at hshort
      exact ⟨_, hshort h0 (hlen ▸ hlt), Sending.staged_short (s := { s with
        curOff := s.curOff + BitVec.ofNat 16 bs.length, curRem := 0 }) hs.of_bookkeeping h.nak hlt, rfl, rfl⟩
  · have h0 : s.curRem ≠ 0 := by
      intro h0
      rw [hlen, h0] at hle
      exact absurd hs.pos (Nat.not_lt.mpr hle)
    have hchunk : (s.txSrc.drop s.curOff.toNat).take m = bs.take m := by
      rw [← h.remaining.bytes, List.take_take, Nat.min_eq_left (hlen ▸ hle)]
    rw [Nat.min_eq_right (hlen ▸ hle), hchunk] at hfull
    exact ⟨_, hfull h0 (hlen ▸ hle), hs.staged_chunk hle h.remaining, rfl, rfl⟩

/-- SERVE from the Dispatch point stages the first packet. -/
theorem Sending.staged_first {m : Nat} {s : State} (h : Sending m s) (hnak : statTx (s.eprAt 0) = 2#2) {src : List Byte}
    {len : Nat} (hl : len ≤ src.length) (hw : len < 65536) :
    Staged m (src.take len) (left (sentFirst s src len)) ∧ (left (sentFirst s src len)).program = s.program ∧
      (left (sentFirst s src len)).wireIn = s.wireIn := by
  have hsrc : (src.take len).length = len := List.length_take_of_le hl
  unfold sentFirst
  dsimp only
  rw [show (State.epAt { s with phase := _ } 0).txSize.toNat = m from h.size]
  split
  · exact ⟨Sending.staged_short (by exact h.of_bookkeeping) (by exact hnak) (by rw [hsrc]; assumption), rfl, rfl⟩
  · rename_i hlt
    have hle : m ≤ (src.take len).length := by rw [hsrc]; exact Nat.not_lt.mp hlt
    have hcut : src.take m = (src.take len).take m := by
      rw [List.take_take, Nat.min_eq_left (Nat.not_lt.mp hlt)]
    have hrem : (BitVec.ofNat 16 len).toNat = len := Nat.mod_eq_of_lt hw
    rw [hcut, left_of_ne (by exact nofun)]
    refine ⟨Sending.staged_chunk (by exact h.of_bookkeeping) hle ⟨?_, ?_, ?_⟩, rfl, rfl⟩
    · show 0 + (BitVec.ofNat 16 len).toNat ≤ src.length
      rw [hrem]; omega
    · show 0 + (BitVec.ofNat 16 len).toNat < 65536
      rw [hrem]; omega
    · show (src.drop 0).take (BitVec.ofNat 16 len).toNat = src.take len
      rw [hrem, List.drop_zero]

/-! ## The run -/

/-- A run of one step more goes on from the state the step answers (`Host.Core.run`). -/
theorem run_succ_of_step {M : Host.Core} {s t : M.State} (h : M.step s = .next t) (k : Nat) :
    M.run (k + 1) s = M.run k t := by
  rw [Host.Core.run, h]

theorem run_of_step {s t : State} (h : step s = .next t) (k : Nat) : core.run (k + 1) s = core.run k t :=
  run_succ_of_step (M := core) h k

/-- From a staged packet on, the host takes the packets of the bytes in order, and the invocation is over with the last
one. -/
theorem run_of_staged {m : Nat} (hm : 0 < m) (fuel : Nat) (bs : List Byte) (hf : bs.length ≤ fuel) :
    ∀ s, Staged m bs s → s.program = List.replicate (packetsOf m fuel bs).length (.sie (.inTok 0)) →
      ∃ k t, 2 * (packetsOf m fuel bs).length = k + 1 ∧ core.run k s = .next t ∧ t.seq = .idle ∧
        t.wireIn = s.wireIn ++ (packetsOf m fuel bs).map fun p => (0#4, p) := by
  refine packetsOf_induction hm (P := fun bs ps => ∀ s, Staged m bs s →
    s.program = List.replicate ps.length (.sie (.inTok 0)) →
      ∃ k t, 2 * ps.length = k + 1 ∧ core.run k s = .next t ∧ t.seq = .idle ∧
        t.wireIn = s.wireIn ++ ps.map fun p => (0#4, p)) (fun bs hlt s h hp => ?_) (fun bs ps hle ih s h hp => ?_)
    fuel bs hf
  · obtain ⟨t, hstep, hidle, hwire⟩ := h.step_last hlt hp
    exact ⟨1, t, rfl, run_of_step hstep 0, hidle, hwire⟩
  · obtain ⟨u, hstep, hcompleted, hprog, hwire⟩ := h.step_full hle hp
    obtain ⟨v, hstep', hstaged, hprog', hwire'⟩ := hcompleted.step
    obtain ⟨k, t, hk, hrun, hidle, hwire''⟩ := ih v hstaged (hprog'.trans hprog)
    refine ⟨k + 2, t, by rw [List.length_cons]; omega, ?_, hidle, ?_⟩
    · rw [run_of_step hstep, run_of_step hstep', hrun]
    · rw [hwire'', hwire', hwire, List.append_assoc]
      rfl

/-- Settles O31: the run by the induction over the packets, the counts by the same induction. -/
theorem packetCountLaw : Obligations.PacketCountLaw := by
  unfold Obligations.PacketCountLaw
  intro s x l m len bytes packets hq hr hm hm' hwf hbase hseq hsetup hserved hen haddr hstatus hnak hothers hprog
  have hlen : bytes.length = len := List.length_take_of_le (Nat.min_le_left _ _)
  have hf : bytes.length ≤ len := Nat.le_of_eq hlen
  have hsend : Sending m s := ⟨hq, hr, rfl, hm, hm', hwf, hbase, hen, haddr, hserved,
    by rw [State.snapshotWord, hserved]; exact (congrArg statTx hstatus).trans hnak, hothers⟩
  have hdecode : decodeSetup s.cfg.rqHidSetFeature s.setup = .getDescHidReport x l :=
    decodeSetup_of_encode rfl (congrArg FetchWord.setup hsetup.symm)
  have hstep : step s = .next (left (sentFirst s s.cfg.rom.hidRep len)) := by
    rw [step_of_dispatch hseq, hdecode, hidReportServed s x l hq hr]
    rfl
  obtain ⟨hstaged, hprog', hwire⟩ := hsend.staged_first hnak (src := s.cfg.rom.hidRep) (len := len)
    (Nat.min_le_left _ _) (Nat.lt_of_le_of_lt (Nat.min_le_right _ _) l.isLt)
  obtain ⟨k, t, hk, hrun, hidle, hsent⟩ := run_of_staged hm len bytes hf _ hstaged (hprog'.trans hprog)
  refine ⟨⟨t, ?_, hidle, by rw [hsent, hwire]⟩, flatten_packetsOf hm hf, ?_, ?_, fun _ hmod => ?_⟩
  · rw [show 2 * packets.length = k + 1 from hk, run_of_step hstep, hrun]
  · rw [← hlen]
    exact length_filter_packetsOf hm hf
  · rw [← hlen]
    exact nil_mem_packetsOf_iff hm hf
  · obtain ⟨p, hp, hplen⟩ := getLast?_packetsOf hm hf
    rw [hlen, hmod] at hplen
    rw [List.eq_nil_of_length_eq_zero hplen] at hp
    exact hp

end Sys2Proof.Machine
end

section
/-! The dispatcher's final write (R149, R257): what `normalize` keeps of the returned word and where the write lands it. -/

namespace Sys2Proof.Machine

/-- `normalize` keeps the fields that lie under its mask (R149). -/
theorem extractLsb'_normalize (v : Half) {lo len : Nat} (hmask : (0x3F3F#16).extractLsb' lo len = BitVec.allOnes len)
    (hzero : (0x0000#16).extractLsb' lo len = 0#len) : (normalize v).extractLsb' lo len = v.extractLsb' lo len := by
  rw [normalize_eq_transform, extractLsb'_transform, hmask, hzero, BitVec.and_allOnes, BitVec.xor_zero]

theorem epKind_normalize (v : Half) : epKind (normalize v) = epKind v := by
  rw [epKind, normalize_eq_transform, getLsbD_transform]
  exact (Bool.xor_false _).trans (Bool.and_true _)

theorem dtogRx_normalize (v : Half) : dtogRx (normalize v) = false := by
  rw [dtogRx, normalize_eq_transform, getLsbD_transform]
  simp

/-- Settles O11: the flags and toggles of the written word are 0, every other field is that of the returned word. -/
theorem finalWriteNormalizes : Obligations.FinalWriteNormalizes := by
  unfold Obligations.FinalWriteNormalizes
  intro old w
  obtain ⟨-, hdrx, hsrx, hsetup, htype, hkind, -, hdtx, hstx, haddr⟩ := writeRuleByField old (normalize w)
  obtain ⟨hrx, htx⟩ := flags_write_normalize old w
  refine ⟨(normalize_eq_transform w).trans BitVec.xor_zero, hrx, htx, ?_, ?_, ?_, ?_, hsetup, ?_, ?_, ?_⟩
  · rw [hdrx, dtogRx_normalize, Bool.xor_false]
  · rw [hdtx, dtogTx_normalize, Bool.xor_false]
  · exact hsrx.trans (congrArg (statRx old ^^^ ·) (extractLsb'_normalize w rfl rfl))
  · rw [hstx, statTx_normalize]
  · exact htype.trans (extractLsb'_normalize w rfl rfl)
  · rw [hkind, epKind_normalize]
  · exact haddr.trans (extractLsb'_normalize w rfl rfl)

end Sys2Proof.Machine
end

section
/-! The reset branch in full (R252, R170), and which steps write `DADDR` (R213, R240, R252, R262). -/

namespace Sys2Proof.Machine

/-! ## RESET_BRANCH -/

/-- `EP0_SIZE` fits the operand of ALLOCATE (R6). -/
theorem toNat_ep0SizeWord {s : State} (hc : s.cfg.wf) : (ep0SizeWord s).toNat = s.cfg.ep0Size := by
  unfold ep0SizeWord
  rcases hc.ep0Size with h | h | h | h <;> rw [h] <;> rfl

/-- After REWIND endpoint 0 fits, whatever the configuration (R6, R161, R252). -/
theorem allocPasses_ep0 {s : State} (hc : s.cfg.wf) (hb : s.bump = 64#16) :
    AllocPasses 0 (ep0SizeWord s) (ep0SizeWord s) s := by
  have hsize : (ep0SizeWord s).toNat = s.cfg.ep0Size := toNat_ep0SizeWord hc
  have hroom : 64 + 2 * s.cfg.ep0Size ≤ s.cfg.pmaSize := hc.pmaLower
  have hbump : s.bump.toNat = 64 := by rw [hb]; rfl
  rw [allocPasses_iff, hsize, hbump, rxGranularityOk_iff]
  have hcode := hc.ep0Size
  refine ⟨by decide, ?_, ?_, ?_, ?_⟩ <;> omega

/-- The ALLOCATE of RESET_BRANCH succeeds (R252). -/
theorem allocOp_ep0_of_quiet {s : State} (h : s.Quiet) (hc : s.cfg.wf) (hb : s.bump = 64#16) :
    allocOp 0 .control (ep0SizeWord s) (ep0SizeWord s) 0#1 s =
      .next (allocated 0 .control (ep0SizeWord s) (ep0SizeWord s) 0#1 s) := by
  rw [allocOp_of_passes (allocPasses_ep0 hc hb), allocApply_of_quiet h hc (by decide)]

/-- Settles O32: REWIND makes room, ALLOCATE re-creates endpoint 0, and the lines around it write the rest. -/
theorem resetBranchRecreatesEndpointZero : Obligations.ResetBranchRecreatesEndpointZero := by
  unfold Obligations.ResetBranchRecreatesEndpointZero
  intro s h hc
  have ha := allocOp_ep0_of_quiet (s := resetEngine { s with istrReset := false }) h hc rfl
  rw [exec, execIrqReset, pause_of_quiet h]
  dsimp only
  rw [show BitVec.ofNat 16 _ = ep0SizeWord (resetEngine { s with istrReset := false }) from rfl, ha, andThen_next,
    pause_of_quiet (by exact h), allocated, toNat_ep0SizeWord (by exact hc)]
  rfl

/-! ## DADDR -/

/-- `DADDR` is written in RESET_BRANCH and by ADDRESS_APPLY (R240, R252, R262). -/
theorem StepEffect.daddr_cases {s v : State} (h : StepEffect s v) :
    v.daddr = s.daddr ∨ (s.seq = .run .resetTest ∧ v.daddr = 0x80#8) ∨
    (s.seq = .run .serve ∧ v.daddr = 0x80#8 ||| s.dev.pendingAddr.setWidth 8 ∧ v.dev.status = .addressed) := by
  cases h with
  | kept hv => exact .inl hv.daddr
  | entered _ hv => exact .inl hv.daddr
  | exited _ hv => exact .inl hv.daddr
  | moved _ _ _ _ _ _ hv => exact .inl hv.daddr
  | allocated _ _ _ _ _ _ _ _ hv => exact .inl hv.daddr
  | reset _ hs _ hv => exact .inr (.inl ⟨hs, hv.daddr⟩)
  | served _ _ _ _ _ da dv _ hs _ _ hd _ hv =>
    have ea : v.daddr = da := hv.daddr
    have ev : v.dev = dv := hv.dev
    rcases hd with ⟨hda, -⟩ | ⟨hda, hdv⟩
    · exact .inl (ea.trans hda)
    · exact .inr (.inr ⟨hs, ea.trans hda, by rw [ev, hdv]⟩)
  | dispatched _ _ _ _ _ _ _ _ _ hv => exact .inl hv.daddr

/-- Settles O59, case by case over the effects of a step. -/
theorem addressRegisterWriters : Obligations.AddressRegisterWriters := by
  unfold Obligations.AddressRegisterWriters
  intro s t h
  obtain ⟨v, hv, rfl⟩ := step_effect h
  rw [left_daddr, left_dev]
  exact hv.daddr_cases

end Sys2Proof.Machine
end

section
/-! The transaction-complete branch when no move of the SIE falls between its accesses: the two receptions of endpoint 0,
the default and the external handler (R253 to R257, R259 to R261). -/

namespace Sys2Proof.Machine

/-- Both rows run CTR_BRANCH, each with its direction (R259, R260). -/
theorem exec_irqCtr (n : BitVec 4) (out : Bool) (s : State) :
    exec (if out then .irqCtrOut n else .irqCtrIn n) s = ctrBranch n out s := by
  cases out <;> rfl

/-! ## Receptions on endpoint 0 -/

/-- COPY_EP0 latches a SETUP (R255). -/
theorem afterEvent_of_setup {s : State} (h : setupBit (s.eprAt 0) = true) :
    afterEvent s 0 true = { afterSnapshot s 0 with
      setup := setupWord (s.pma.readBytes (s.epAt 0).rxBase.toNat 8), scratchLen := 0 } := by
  rw [afterEvent, if_pos ⟨rfl, rfl⟩, if_pos h]

/-- COPY_EP0 copies the payload of a plain reception (R255). -/
theorem afterEvent_of_payload {s : State} (hs : setupBit (s.eprAt 0) = false) (hx : ctrRx (s.eprAt 0) = true) :
    afterEvent s 0 true = { afterSnapshot s 0 with
      scratch := s.pma.readBytes (s.epAt 0).rxBase.toNat (outCount s) ++ s.scratch.drop (outCount s)
      scratchLen := BitVec.ofNat 16 (outCount s) } := by
  rw [afterEvent, if_pos ⟨rfl, rfl⟩, if_neg (by rw [hs]; nofun), if_pos hx]

/-- Settles O33: the first case of the control handler, after COPY_EP0 of a SETUP. -/
theorem setupPacketLatched : Obligations.SetupPacketLatched := by
  unfold Obligations.SetupPacketLatched
  intro s h hc ha hh hx hs hr
  have hcopy : CopyReady s 0 true := fun _ _ => ⟨fun _ => hr, fun hn => nomatch hs.symm.trans hn⟩
  obtain ⟨hsetup, -, -, -⟩ := controlHandlerCases s 0 true h hc (by decide) hcopy ha hh
  refine ⟨(hsetup hx hs).trans ?_, setupBytes_setupWord _ (length_readBytes _ _ _)⟩
  rw [afterEvent_of_setup hs]

/-- Settles O34: the two completion cases of the control handler, after COPY_EP0 of a payload. -/
theorem outPayloadToScratch : Obligations.OutPayloadToScratch := by
  unfold Obligations.OutPayloadToScratch
  intro s count h hc ha hh hx hs hr copied
  have hcopy : CopyReady s 0 true := fun _ _ => ⟨fun hn => (nomatch hs.symm.trans hn), fun _ _ => hr⟩
  have hcopied : afterEvent s 0 true = copied := afterEvent_of_payload hs hx
  obtain ⟨-, happly, hplain, -⟩ := controlHandlerCases s 0 true h hc (by decide) hcopy ha hh
  cases ht : ctrTx (s.eprAt 0) with
  | true => rw [if_pos rfl, ← hcopied]; exact happly (fun hn => nomatch hs.symm.trans hn.2) ht
  | false => rw [if_neg nofun, ← hcopied]; exact hplain hx hs ht

/-! ## The default and the external handler -/

/-- The handler of an entry that is not allocated keeps the statuses (R256). -/
theorem callHandler_of_unallocated {s : State} (ha : (s.epAt s.served.toNat).allocated = false) :
    callHandler s = handlerReturn (retKeep (s.epAt s.served.toNat).status) s := by
  rw [callHandler, if_neg (by rw [ha]; nofun)]

theorem callHandler_of_ext {s : State} {k : Nat} (ha : (s.epAt s.served.toNat).allocated = true)
    (hh : (s.epAt s.served.toNat).handler = .ext k) : callHandler s = callExternal k s := by
  rw [callHandler, if_pos ha, hh]

section
variable {s : State} {n : BitVec 4} (out : Bool)

/-- The handler is called with the event's state: its entry is the snapshot of the served endpoint. -/
theorem afterEvent_served_epAt (hn : n.toNat < 8) :
    (afterEvent s n out).epAt (afterEvent s n out).served.toNat =
      snapped (s.epAt n.toNat) (s.eprAt n.toNat) (s.pma.read16 (8 * n.toNat + 6)) := by
  obtain ⟨hserved, -, -, -⟩ := afterEvent_fields s n out
  rw [hserved]
  exact afterEvent_epAt s n out hn

/-- A handler that returns at once ends in the final write on the served endpoint (R257). -/
theorem handlerReturn_afterEvent (h : s.Quiet) (w : Half) :
    handlerReturn w (afterEvent s n out) = .next (afterFinal (afterEvent s n out) n.toNat w) := by
  obtain ⟨hserved, hrace, -, -⟩ := afterEvent_fields s n out
  exact handlerReturn_eq_afterFinal (hrace.trans h) hserved w

end

/-- Settles O36: CALL_HANDLER finds the entry not allocated and returns the keep-all word of the snapshot. -/
theorem unallocatedEndpointDefault : Obligations.UnallocatedEndpointDefault := by
  unfold Obligations.UnallocatedEndpointDefault
  intro s n out h hc hn hcopy ha
  have he := afterEvent_served_epAt (s := s) out hn
  rw [exec_irqCtr, ctrBranch_of_quiet h hc hn out hcopy, callHandler_of_unallocated (by rw [he]; exact ha),
    handlerReturn_afterEvent out h, he]
  rfl

/-- Settles O37: CALL_HANDLER calls the function of the configuration on the snapshot. -/
theorem externalHandlerCalled : Obligations.ExternalHandlerCalled := by
  unfold Obligations.ExternalHandlerCalled
  intro s n out k h hc hn hcopy ha hh a
  have he := afterEvent_served_epAt (s := s) out hn
  have hsnap : (afterSnapshot s n).epAt n.toNat =
      snapped (s.epAt n.toNat) (s.eprAt n.toNat) (s.pma.read16 (8 * n.toNat + 6)) := by
    rw [afterSnapshot_epAt hn, if_pos rfl]
  have hcall : extAction ((afterEvent s n out).cfg.ext[k]?.getD .param) (BitVec.ofNat 4 k)
      ((afterEvent s n out).epAt (afterEvent s n out).served.toNat) = a := by
    obtain ⟨-, -, hcfg, -⟩ := afterEvent_fields s n out
    rw [he, ← hsnap, hcfg]
  rw [exec_irqCtr, ctrBranch_of_quiet h hc hn out hcopy,
    callHandler_of_ext (by rw [he]; exact ha) (by rw [he]; exact hh), callExternal]
  dsimp only
  rw [hcall]
  cases a.writes.isEmpty with
  | true => exact handlerReturn_afterEvent out h _
  | false => rfl

end Sys2Proof.Machine
end

section
/-! The frame of the transaction-complete branch when no move of the SIE falls between its accesses, whether or not its
accesses are possible (R25, R43, R253 to R257, R261, R262). -/

namespace Sys2Proof.Machine

/-! ## SNAPSHOT and COPY_EP0 -/

/-- A read that answers goes on with the unit it has read. -/
theorem load16_next_of_quiet {s t : State} (h : s.Quiet) {a : Nat} {k : Half → State → Out}
    (hs : load16 a s k = .next t) : k (s.pma.read16 a) s = .next t := by
  unfold load16 at hs
  split at hs
  · rwa [pause_of_quiet h] at hs
  · cases hs

/-- Unit reads that answer go on with some bytes, in the same state. -/
theorem loadBytes_next_of_quiet {s t : State} (h : s.Quiet) {a c : Nat} {k : List Byte → State → Out}
    (hs : loadBytes a c s k = .next t) : ∃ bs, k bs s = .next t := by
  unfold loadBytes at hs
  split at hs
  · exact ⟨_, hs⟩
  · split at hs
    · rw [readUnits_of_quiet _ _ _ h] at hs
      exact ⟨_, hs⟩
    · cases hs

/-- SNAPSHOT(n) that answers has latched the entry (R254). -/
theorem snapshot_next_of_quiet {s t : State} (h : s.Quiet) {n : BitVec 4} (hn : n.toNat < 8) {k : State → Out}
    (hs : snapshot n.toNat { s with served := n } k = .next t) : k (afterSnapshot s n) = .next t := by
  rw [snapshot, readReg_of_quiet (by exact h)] at hs
  rw [← load16_next_of_quiet (by exact h) hs]
  simp [afterSnapshot, State.setEp, State.epAt, State.eprAt, snapped, latchFlags, receivedCount, ctrRx, ctrTx, setupBit,
    btCountRx, hn]

/-- COPY_EP0(n, d) that answers has changed at most `setup` and the scratch buffer, and these for a receive event of
endpoint 0 only (R255). -/
theorem copyEp0_next_of_quiet {s t : State} (h : s.Quiet) {n : Nat} {d : Bool} {k : State → Out}
    (hs : copyEp0 n d s k = .next t) :
    ∃ su sc sl, k { s with setup := su, scratch := sc, scratchLen := sl } = .next t ∧
      (n ≠ 0 ∨ d = false → su = s.setup ∧ sc = s.scratch ∧ sl = s.scratchLen) := by
  unfold copyEp0 at hs
  dsimp only at hs
  split at hs
  · rename_i hd
    rw [Bool.and_eq_true, beq_iff_eq] at hd
    obtain ⟨hout, hzero⟩ := hd
    have hreceive : ¬ (n ≠ 0 ∨ d = false) := by simp [hout, hzero]
    split at hs
    · obtain ⟨bs, hs⟩ := loadBytes_next_of_quiet h hs
      exact ⟨_, _, _, hs, fun hk => absurd hk hreceive⟩
    · split at hs
      · obtain ⟨bs, hs⟩ := loadBytes_next_of_quiet h hs
        exact ⟨_, _, _, hs, fun hk => absurd hk hreceive⟩
      · exact ⟨_, _, _, hs, fun _ => ⟨rfl, rfl, rfl⟩⟩
  · exact ⟨_, _, _, hs, fun _ => ⟨rfl, rfl, rfl⟩⟩

/-! ## The handlers -/

/-- What a handler called for the served endpoint can change (R256, R257, R262). -/
structure HandlerEffect (s t : State) : Prop where
  shape : ∃ e ph da dv al q hq hw, t =
    { s with epr := e, phase := ph, daddr := da, dev := dv, addrLatch := al, seq := q, hq := hq, hword := hw }
  epr   : ∀ m, m ≠ s.served.toNat → t.eprAt m = s.eprAt m

/-- Device state, address and phase are as before (R262). -/
def DeviceKept (s t : State) : Prop :=
  t.dev = s.dev ∧ t.daddr = s.daddr ∧ t.addrLatch = s.addrLatch ∧ t.phase = s.phase

/-- The final write, after at most device state, address and phase have changed (R257). -/
theorem HandlerEffect.of_handlerReturn {s u t : State} (h : s.Quiet) {ph : Phase} {da : Byte} {dv : Dev} {al : Bool}
    (hu : u = { s with phase := ph, daddr := da, dev := dv, addrLatch := al }) {w : Half}
    (hr : handlerReturn w u = .next t) : HandlerEffect s t := by
  subst hu
  rw [handlerReturn_of_quiet (by exact h)] at hr
  cases hr
  exact ⟨⟨_, _, _, _, _, _, _, _, rfl⟩, fun m hm => eprAt_writeEpr_ne s _ m _ hm.symm⟩

theorem deviceKept_of_handlerReturn {s t : State} (h : s.Quiet) {w : Half} (hr : handlerReturn w s = .next t) :
    DeviceKept s t := by
  rw [handlerReturn_of_quiet h] at hr
  cases hr
  exact ⟨rfl, rfl, rfl, rfl⟩

/-- Applying the deferred address changes the address, the device state and the latch only (R240). -/
theorem afterAddress_shape (s : State) :
    ∃ da dv al, afterAddress s = { s with daddr := da, dev := dv, addrLatch := al } := by
  unfold afterAddress
  dsimp only
  split
  · split <;> exact ⟨_, _, _, rfl⟩
  · split <;> exact ⟨_, _, _, rfl⟩

theorem handlerEffect_of_ep0Handler {s t : State} (h : s.Quiet) (hs : ep0Handler s = .next t) : HandlerEffect s t := by
  by_cases hsetup : (s.epAt s.served.toNat).rxFlag = true ∧ (s.epAt s.served.toNat).setupFlag = true
  · rw [ep0Handler_of_setup hsetup.1 hsetup.2] at hs
    cases hs
    exact ⟨⟨_, _, _, _, _, _, _, _, rfl⟩, fun _ _ => rfl⟩
  · rw [ep0Handler_of_completion h hsetup] at hs
    obtain ⟨da, dv, al, hu⟩ : ∃ da dv al, (if (s.epAt s.served.toNat).txFlag then afterAddress s else s) =
        { s with daddr := da, dev := dv, addrLatch := al } := by
      split
      · exact afterAddress_shape s
      · exact ⟨_, _, _, rfl⟩
    simp only [hu] at hs
    split at hs
    · exact .of_handlerReturn h rfl hs
    · exact .of_handlerReturn h rfl hs

theorem handlerEffect_of_callExternal {k : Nat} {s t : State} (h : s.Quiet) (hs : callExternal k s = .next t) :
    HandlerEffect s t ∧ DeviceKept s t := by
  unfold callExternal at hs
  dsimp only at hs
  split at hs
  · exact ⟨.of_handlerReturn h rfl hs, deviceKept_of_handlerReturn h hs⟩
  · cases hs
    exact ⟨⟨⟨_, _, _, _, _, _, _, _, rfl⟩, fun _ _ => rfl⟩, rfl, rfl, rfl, rfl⟩

/-- CALL_HANDLER: only the control handler of an allocated entry touches device state, address and phase (R256, R262). -/
theorem handlerEffect_of_callHandler {s t : State} (h : s.Quiet) (hs : callHandler s = .next t) :
    HandlerEffect s t ∧
      ((s.epAt s.served.toNat).handler ≠ .ep0 ∨ (s.epAt s.served.toNat).allocated = false → DeviceKept s t) := by
  cases ha : (s.epAt s.served.toNat).allocated with
  | false =>
    rw [callHandler_of_unallocated ha] at hs
    exact ⟨.of_handlerReturn h rfl hs, fun _ => deviceKept_of_handlerReturn h hs⟩
  | true =>
    cases hh : (s.epAt s.served.toNat).handler with
    | ep0 =>
      rw [callHandler_of_ep0 ha hh] at hs
      exact ⟨handlerEffect_of_ep0Handler h hs, by simp⟩
    | ext k =>
      rw [callHandler_of_ext ha hh] at hs
      obtain ⟨heffect, hkept⟩ := handlerEffect_of_callExternal h hs
      exact ⟨heffect, fun _ => hkept⟩

/-! ## CTR_BRANCH -/

/-- CTR_BRANCH that answers: the number lies in the table, and after the snapshot and the copy a handler has run. -/
theorem ctrBranch_next_of_quiet {n : BitVec 4} {d : Bool} {s t : State} (h : s.Quiet) (hs : ctrBranch n d s = .next t) :
    n.toNat < 8 ∧ ∃ su sc sl,
      callHandler { afterSnapshot s n with setup := su, scratch := sc, scratchLen := sl } = .next t ∧
      (n ≠ 0 ∨ d = false → su = s.setup ∧ sc = s.scratch ∧ sl = s.scratchLen) := by
  unfold ctrBranch at hs
  split at hs
  · rename_i hn
    obtain ⟨su, sc, sl, hs, hkept⟩ := copyEp0_next_of_quiet (by exact h) (snapshot_next_of_quiet h hn hs)
    exact ⟨hn, su, sc, sl, hs, fun hk => hkept (hk.imp_left fun hne h0 => hne (BitVec.eq_of_toNat_eq h0))⟩
  · cases hs

/-- Settles O40: SNAPSHOT writes the served entry, COPY_EP0 the receive side, a handler the rest. -/
theorem transactionCompleteFrame : Obligations.TransactionCompleteFrame := by
  unfold Obligations.TransactionCompleteFrame
  intro s t n i h hi he
  obtain ⟨d, hbranch, hd⟩ : ∃ d, ctrBranch n d s = .next t ∧ (i = .irqCtrIn n → d = false) := by
    rcases hi with rfl | rfl
    · exact ⟨true, he, nofun⟩
    · exact ⟨false, he, fun _ => rfl⟩
  obtain ⟨hn, su, sc, sl, hcall, hcopied⟩ := ctrBranch_next_of_quiet h hbranch
  obtain ⟨heffect, hdevice⟩ := handlerEffect_of_callHandler (by exact h) hcall
  have hother := fun m => afterSnapshot_epAt (s := s) hn m
  have hserved := (hother n.toNat).trans (if_pos rfl)
  have hepr := heffect.epr
  replace hdevice : (s.epAt n.toNat).handler ≠ .ep0 ∨ (s.epAt n.toNat).allocated = false → DeviceKept s t :=
    fun hk => hdevice (by
      show ((afterSnapshot s n).epAt n.toNat).handler ≠ .ep0 ∨ ((afterSnapshot s n).epAt n.toNat).allocated = false
      rw [hserved]; exact hk)
  obtain ⟨_, _, _, _, _, _, _, _, rfl⟩ := heffect.shape
  exact ⟨rfl, rfl, rfl, rfl, rfl, rfl, rfl, rfl, rfl, rfl, rfl, rfl, rfl, rfl, rfl, rfl, rfl, rfl, rfl, rfl, rfl, rfl,
    fun m _ hm => ⟨(hother m).trans (if_neg hm.symm), hepr m hm⟩, hdevice, fun hk => hcopied (hk.imp_right hd),
    fun _ => rfl⟩

end Sys2Proof.Machine
end

section
/-! The transfer unit (R280 to R295): the word of WRITE, what COPY_IN leaves of packet memory, the endpoint check, and what
WRITE, WRITE_IRQ and READ answer when no move of the SIE falls between their accesses. -/

namespace Sys2Proof.Machine

/-! ## The word of WRITE -/

/-- The five transforms of the word of WRITE make one (R131, R285). -/
theorem writeWord_eq_transform (r : Half) : writeWord r = transform 0x3F3F#16 0xA0B0#16 r := by
  simp only [writeWord, keepCtr, keepDtogTx, keepDtogRx, setValidTx, setNakRx, transform_transform]
  rfl

/-- The same word with the flips before the masks: the flips of `X` that survive are the bits it has under `A`. -/
theorem writeWord_eq_masked_xor (r : Half) : writeWord r = ((r ^^^ 0x2030#16) &&& 0xBFBF#16) ||| 0x8080#16 := by
  rw [writeWord_eq_transform]
  apply BitVec.eq_of_getLsbD_eq
  intro k hk
  simp only [getLsbD_transform, BitVec.getLsbD_or, BitVec.getLsbD_and, BitVec.getLsbD_xor]
  interval_cases k <;> simp

/-- Settles O13: the statuses are current, the toggles are masked out, the flags are written with 1. -/
theorem writeWordLands : Obligations.WriteWordLands := by
  unfold Obligations.WriteWordLands
  intro r
  refine ⟨?_, ?_, ?_, ?_, ?_, ?_, writeWord_eq_masked_xor r⟩ <;> rw [writeWord_eq_transform]
  · exact extractLsb'_write_transform_of_current 0xA0B0#16 (lo := 4) (len := 2) (by decide) rfl rfl
  · exact extractLsb'_write_transform_of_current 0xA0B0#16 (lo := 12) (len := 2) (by decide) rfl rfl
  · exact (getLsbD_write_transform_of_masked 0xA0B0#16 (by decide) rfl).trans (Bool.xor_false _)
  · exact (getLsbD_write_transform_of_masked 0xA0B0#16 (by decide) rfl).trans (Bool.xor_false _)
  · exact (getLsbD_write_transform_flag 0xA0B0#16 (by decide) rfl).trans (Bool.and_true _)
  · exact (getLsbD_write_transform_flag 0xA0B0#16 (by decide) rfl).trans (Bool.and_true _)

/-! ## What COPY_IN leaves of packet memory -/

/-- The unit of an odd trailing byte is padded with 0x00 (R281). -/
theorem read_writeUnits_copyUnits_pad (bs : List Byte) (m : Memory) (a : Nat) (h : m.wf = true)
    (hodd : bs.length % 2 = 1) : (m.writeUnits a (copyUnits bs)).read (a + bs.length) = 0x00#8 := by
  induction bs using copyUnits.induct generalizing m a with
  | case1 => cases hodd
  | case2 lo => exact (read_writeUnits_two m a lo 0x00#8 [] h).2
  | case3 lo hi t ih =>
    simp only [List.length_cons] at hodd ⊢
    rw [copyUnits, Memory.writeUnits, show a + (t.length + 1 + 1) = a + 2 + t.length by omega]
    exact ih _ _ (wf_write16 _ _ _ h) (by omega)

/-- Above the buffer table the store of the count does not show. -/
theorem read_stagedPma_of_ge (s : State) {n : Nat} (hn : n < 8) (bytes : List Byte) {a : Nat} (ha : bumpInit ≤ a) :
    (stagedPma s n bytes).read a = (s.pma.writeUnits (s.epAt n).txBase.toNat (copyUnits bytes)).read a :=
  read_write16_ne _ _ _ _ (.inr (by simp only [bumpInit] at ha; omega))

/-- Outside the units of the buffer and outside COUNT_TX packet memory is as it was. -/
theorem read_stagedPma_of_outside (s : State) (n : Nat) (bytes : List Byte) {a : Nat}
    (hbuf : a < (s.epAt n).txBase.toNat ∨ (s.epAt n).txBase.toNat + 2 * unitCount bytes.length ≤ a)
    (hcount : a < 8 * n + 2 ∨ 8 * n + 4 ≤ a) : (stagedPma s n bytes).read a = s.pma.read a :=
  (read_write16_ne _ _ _ _ hcount).trans (read_writeUnits_copyUnits_ne _ _ _ _ hbuf)

/-- Settles O44: the units read back as the bytes, and the buffer lies above the buffer table, where COUNT_TX is. -/
theorem stagedBytesReadBack : Obligations.StagedBytesReadBack := by
  unfold Obligations.StagedBytesReadBack
  intro s n bytes hwf hn _ hbase
  have hunits := wf_writeUnits (copyUnits bytes) s.pma (s.epAt n).txBase.toNat hwf
  refine ⟨?_, read16_write16_self _ _ _ hunits, fun hodd => ?_, fun a => read_stagedPma_of_outside s n bytes,
    wf_write16 _ _ _ hunits⟩
  · rw [readBytes_congr _ _ fun a ha _ => read_stagedPma_of_ge s hn bytes (hbase.trans ha)]
    exact readBytes_writeUnits_copyUnits bytes _ _ hwf
  · rw [read_stagedPma_of_ge s hn bytes (hbase.trans (Nat.le_add_right _ _))]
    exact read_writeUnits_copyUnits_pad bytes _ _ hwf hodd

/-- Of a copy cut to the transmit size, only the units of the copy length and COUNT_TX change (R281). -/
theorem read_stagedPma_take_of_outside (s : State) (n : Nat) (data : List Byte) {a : Nat}
    (hbuf : a < (s.epAt n).txBase.toNat ∨
      (s.epAt n).txBase.toNat + 2 * unitCount (copyLength data.length (s.epAt n)) ≤ a)
    (hcount : a < 8 * n + 2 ∨ 8 * n + 4 ≤ a) :
    (stagedPma s n (data.take (s.epAt n).txSize.toNat)).read a = s.pma.read a :=
  read_stagedPma_of_outside s n _ (by rwa [List.length_take, Nat.min_comm]) hcount

/-! ## The endpoint check -/

section
variable {n : BitVec 4} {s : State} (k : Out)

theorem onEndpoint_of_allocated (hn : n.toNat < 8) (ha : (s.epAt n.toNat).allocated = true) : onEndpoint n s k = k := by
  rw [onEndpoint, if_pos hn, if_pos ha]

theorem onEndpoint_of_unallocated (hn : n.toNat < 8) (ha : (s.epAt n.toNat).allocated = false) :
    onEndpoint n s k = .refused (.endpointNotAllocated n) := by
  rw [onEndpoint, if_pos hn, if_neg (by rw [ha]; nofun)]

theorem onEndpoint_of_ge (hn : 8 ≤ n.toNat) : onEndpoint n s k = .refused (.endpointOutOfRange n) := by
  rw [onEndpoint, if_neg (Nat.not_lt.mpr hn)]

end

/-! ## The commands -/

theorem exec_write (n : BitVec 4) (data : List Byte) (s : State) :
    exec (.write n data) s = onEndpoint n s (runApp (writeAccesses s n data) s) := rfl

theorem exec_read (n : BitVec 4) (s : State) :
    exec (.read n) s = onEndpoint n s (runApp (readAccesses s n) { s with dst := [] }) := rfl

theorem exec_writeIrq_of_idle {s : State} (hs : s.seq = .idle) (n : BitVec 4) (data : List Byte) :
    exec (.writeIrq n data) s = .refused .writeIrqOutsideInterrupt := if_pos hs

theorem exec_writeIrq_of_running {s : State} (hs : s.seq ≠ .idle) (n : BitVec 4) (data : List Byte) :
    exec (.writeIrq n data) s = writeIrqOp n data s := if_neg hs

/-- Settles O46: the endpoint check comes before the accesses, and WRITE_IRQ looks at the sequencer before it. -/
theorem commandsRefusedWithoutEndpoint : Obligations.CommandsRefusedWithoutEndpoint := by
  unfold Obligations.CommandsRefusedWithoutEndpoint
  intro s n data
  refine ⟨fun hn => ⟨?_, ?_, fun hs => ?_⟩, fun hn ha => ⟨?_, ?_, fun hs => ?_⟩,
    fun hs => exec_writeIrq_of_idle hs n data⟩
  · rw [exec_write, onEndpoint_of_ge _ hn]
  · rw [exec_read, onEndpoint_of_ge _ hn]
  · rw [exec_writeIrq_of_running hs, writeIrqOp, onEndpoint_of_ge _ hn]
  · rw [exec_write, onEndpoint_of_unallocated _ hn ha]
  · rw [exec_read, onEndpoint_of_unallocated _ hn ha]
  · rw [exec_writeIrq_of_running hs, writeIrqOp, onEndpoint_of_unallocated _ hn ha]

/-- Settles O41: GET_STATE reads one register, whose code the statement writes out. -/
theorem getStateReturnsStatus : Obligations.GetStateReturnsStatus := by
  unfold Obligations.GetStateReturnsStatus
  intro s
  rfl

/-- Settles O43: inside an invocation WRITE_IRQ is COPY_IN. -/
theorem writeIrqCopiesOnly : Obligations.WriteIrqCopiesOnly := by
  unfold Obligations.WriteIrqCopiesOnly
  intro s n data h hs hr
  exact ⟨fun _ => read_stagedPma_take_of_outside s n.toNat data,
    (exec_writeIrq_of_running hs n data).trans (writeIrqOp_of_ready h hr data)⟩

/-- The read of the register and the separate write of WRITE (R285). -/
theorem runAccesses_arm_of_quiet {s : State} (h : s.Quiet) (n : BitVec 4) :
    runAccesses [.readReg n, .armReg n] s =
      .next { s with appReg := s.eprAt n.toNat, epr := eprAfter s n.toNat (writeWord (s.eprAt n.toNat)) } := by
  simp only [runAccesses, doAccess, readReg_of_quiet h, andThen_next]
  rw [writeReg_of_quiet (by exact h)]
  rfl

/-- Settles O42: COPY_IN stages the packet and leaves the registers, which the last two accesses then read and write. -/
theorem writeCopiesAndArms : Obligations.WriteCopiesAndArms := by
  unfold Obligations.WriteCopiesAndArms
  intro s n data h hsplit hr
  refine ⟨fun _ => read_stagedPma_take_of_outside s n.toNat data, ?_⟩
  rw [exec_write, onEndpoint_of_allocated _ hr.inTable hr.allocated, runApp_of_whole hsplit, writeAccesses,
    runAccesses_append, copyIn_of_ready h hr, andThen_next, runAccesses_arm_of_quiet (by exact h)]
  rfl

/-- Settles O45: the unit reads append the bytes to the emptied destination, the last access reports their number. -/
theorem readReturnsReceivedBytes : Obligations.ReadReturnsReceivedBytes := by
  unfold Obligations.ReadReturnsReceivedBytes
  intro s n count h hsplit hn ha hr
  have hloads := runAccesses_loadAccesses_of_quiet n 0 count { s with dst := [] } h hr.evenBase
    (by rw [Nat.zero_add]; exact hr.room)
  rw [exec_read, onEndpoint_of_allocated _ hn ha, runApp_of_whole (by exact hsplit), readAccesses, runAccesses_append]
  exact congrArg (andThen · _) hloads

/-! ## Reserved command codes -/

/-- A command byte of 5 or more is none of the five codes (R108, R295). -/
theorem decodeCmd_of_reserved {p : Port} (hc : 5 ≤ p.c.toNat) : decodeCmd p = .error (.reservedCommand p.c) := by
  have hne (b : Byte) (hb : b.toNat < 5) : p.c ≠ b := fun e => by rw [e] at hc; omega
  rw [decodeCmd, if_neg (hne _ (by decide)), if_neg (hne _ (by decide)), if_neg (hne _ (by decide)),
    if_neg (hne _ (by decide)), if_neg (hne _ (by decide))]

/-- A command that selects no operation is refused by the step that fetches it (R111, R295). -/
theorem step_of_idle_cmd_error {s : State} {p : Port} {split : Option Nat} {rest : List Line} {e : CmdError}
    (hs : s.seq = .idle) (ha : s.app = []) (hp : s.program = .cmd p split :: rest) (hd : decodeCmd p = .error e) :
    step s = .refused (refusalOf e) :=
  step_of_move (o := .refused (refusalOf e))
    (by rw [fetch_of_idle hs, fetchIdle, hp]; simp only [ha, List.isEmpty_nil, if_true, hd])

/-- Settles O5: such a byte decodes to the error that carries it. -/
theorem reservedCommandsRefused : Obligations.ReservedCommandsRefused := by
  unfold Obligations.ReservedCommandsRefused
  intro s p split rest hs ha hp hc
  exact step_of_idle_cmd_error hs ha hp (decodeCmd_of_reserved hc)

end Sys2Proof.Machine
end

section
/-! What the SIE leaves (R330 to R336): the fields of an endpoint register after each of its moves, and packet memory after
a reception. -/

namespace Sys2Proof.Machine

/-! ## The fields of a transformed word -/

section
variable {a x : Half} {k lo len : Nat} (v : Half)

/-- A bit `A` keeps and `X` leaves alone. -/
theorem getLsbD_transform_of_kept (ha : a.getLsbD k = true) (hx : x.getLsbD k = false) :
    (transform a x v).getLsbD k = v.getLsbD k := by
  rw [getLsbD_transform, ha, hx, Bool.and_true, Bool.xor_false]

/-- A bit `A` keeps and `X` flips. -/
theorem getLsbD_transform_of_flipped (ha : a.getLsbD k = true) (hx : x.getLsbD k = true) :
    (transform a x v).getLsbD k = !v.getLsbD k := by
  rw [getLsbD_transform, ha, hx, Bool.and_true, Bool.xor_true]

/-- A bit `A` masks out is the one of `X`, whatever the word. -/
theorem getLsbD_transform_of_masked (ha : a.getLsbD k = false) : (transform a x v).getLsbD k = x.getLsbD k := by
  rw [getLsbD_transform, ha, Bool.and_false, Bool.false_xor]

/-- A field `A` keeps and `X` leaves alone. -/
theorem extractLsb'_transform_of_kept (ha : a.extractLsb' lo len = BitVec.allOnes len)
    (hx : x.extractLsb' lo len = 0#len) : (transform a x v).extractLsb' lo len = v.extractLsb' lo len := by
  rw [extractLsb'_transform, ha, hx, BitVec.and_allOnes, BitVec.xor_zero]

/-- A field `A` masks out is the one of `X`, whatever the word. -/
theorem extractLsb'_transform_of_masked (ha : a.extractLsb' lo len = 0#len) :
    (transform a x v).extractLsb' lo len = x.extractLsb' lo len := by
  rw [extractLsb'_transform, ha, BitVec.and_zero, BitVec.zero_xor]

end

/-! ## The words the SIE writes -/

/-- Flipping, masking and then setting bits is a transform: the mask loses the bits that are set (R131). -/
theorem xor_and_or_eq_transform (x a b w : Half) :
    ((w ^^^ x) &&& a) ||| b = transform (a &&& ~~~b) ((x &&& a &&& ~~~b) ||| b) w := by
  apply BitVec.eq_of_getLsbD_eq
  intro k hk
  simp only [getLsbD_transform, BitVec.getLsbD_or, BitVec.getLsbD_and, BitVec.getLsbD_xor, BitVec.getLsbD_not, hk,
    decide_true, Bool.true_and]
  cases w.getLsbD k <;> cases x.getLsbD k <;> cases a.getLsbD k <;> cases b.getLsbD k <;> rfl

/-- The bits a SETUP sets: CTR_RX, SETUP, both statuses NAK, and the toggles as drawn (R332). -/
def sieSetupSets (drx dtx : Bool) : Half :=
  0xA820#16 ||| ((if drx then 0x4000#16 else 0) ||| (if dtx then 0x0040#16 else 0))

theorem sieSetupReg_eq_transform (w : Half) (drx dtx : Bool) :
    sieSetupReg w drx dtx = transform 0x078F#16 (sieSetupSets drx dtx) w := by
  have h := xor_and_or_eq_transform 0 0x078F#16 (sieSetupSets drx dtx) w
  rw [show w ^^^ (0 : Half) = w from BitVec.xor_zero] at h
  rw [sieSetupReg, BitVec.or_assoc, BitVec.or_assoc]
  refine h.trans ?_
  cases drx <;> cases dtx <;> rfl

theorem sieOutReg_eq_transform (w : Half) : sieOutReg w = transform 0x47FF#16 0xE000#16 w :=
  xor_and_or_eq_transform 0x4000#16 0x47FF#16 0xA000#16 w

theorem sieInReg_eq_transform (w : Half) : sieInReg w = transform 0xFF4F#16 0x00E0#16 w :=
  xor_and_or_eq_transform 0x0040#16 0xFFCF#16 0x00A0#16 w

/-- The register after a SETUP, field by field (R332). -/
theorem sieSetupReg_fields (w : Half) (drx dtx : Bool) :
    let new := sieSetupReg w drx dtx
    ctrRx new = true ∧ setupBit new = true ∧ statRx new = 2#2 ∧ statTx new = 2#2 ∧ dtogRx new = drx ∧ dtogTx new = dtx ∧
    ctrTx new = ctrTx w ∧ epTypeField new = epTypeField w ∧ epKind new = epKind w ∧ epAddress new = epAddress w := by
  intro new
  rw [show new = _ from sieSetupReg_eq_transform w drx dtx]
  refine ⟨(getLsbD_transform_of_masked w rfl).trans ?_, (getLsbD_transform_of_masked w rfl).trans ?_,
    (extractLsb'_transform_of_masked w rfl).trans ?_, (extractLsb'_transform_of_masked w rfl).trans ?_,
    (getLsbD_transform_of_masked w rfl).trans ?_, (getLsbD_transform_of_masked w rfl).trans ?_,
    getLsbD_transform_of_kept w rfl ?_, extractLsb'_transform_of_kept w rfl ?_, getLsbD_transform_of_kept w rfl ?_,
    extractLsb'_transform_of_kept w rfl ?_⟩ <;> revert drx dtx <;> decide

/-- The register after an OUT, field by field (R333). -/
theorem sieOutReg_fields (w : Half) :
    let new := sieOutReg w
    ctrRx new = true ∧ setupBit new = false ∧ statRx new = 2#2 ∧ statTx new = statTx w ∧ dtogRx new = !dtogRx w ∧
    dtogTx new = dtogTx w ∧ ctrTx new = ctrTx w ∧ epTypeField new = epTypeField w ∧ epKind new = epKind w ∧
    epAddress new = epAddress w := by
  intro new
  rw [show new = _ from sieOutReg_eq_transform w]
  exact ⟨getLsbD_transform_of_masked w rfl, getLsbD_transform_of_masked w rfl, extractLsb'_transform_of_masked w rfl,
    extractLsb'_transform_of_kept w rfl rfl, getLsbD_transform_of_flipped w rfl rfl, getLsbD_transform_of_kept w rfl rfl,
    getLsbD_transform_of_kept w rfl rfl, extractLsb'_transform_of_kept w rfl rfl, getLsbD_transform_of_kept w rfl rfl,
    extractLsb'_transform_of_kept w rfl rfl⟩

/-- The register after an IN, field by field (R334). -/
theorem sieInReg_fields (w : Half) :
    let new := sieInReg w
    ctrTx new = true ∧ statTx new = 2#2 ∧ dtogTx new = !dtogTx w ∧ ctrRx new = ctrRx w ∧ setupBit new = setupBit w ∧
    statRx new = statRx w ∧ dtogRx new = dtogRx w ∧ epTypeField new = epTypeField w ∧ epKind new = epKind w ∧
    epAddress new = epAddress w := by
  intro new
  rw [show new = _ from sieInReg_eq_transform w]
  exact ⟨getLsbD_transform_of_masked w rfl, extractLsb'_transform_of_masked w rfl,
    getLsbD_transform_of_flipped w rfl rfl, getLsbD_transform_of_kept w rfl rfl, getLsbD_transform_of_kept w rfl rfl,
    extractLsb'_transform_of_kept w rfl rfl, getLsbD_transform_of_kept w rfl rfl, extractLsb'_transform_of_kept w rfl rfl,
    getLsbD_transform_of_kept w rfl rfl, extractLsb'_transform_of_kept w rfl rfl⟩

/-! ## The moves -/

theorem sieMove_of_enabled {s : State} {m : SieMove} (h : s.sieEnabled m = true) : s.sieMove m = s.sieEffect m := if_pos h

theorem sieMove_of_not_enabled {s : State} {m : SieMove} (h : ¬ s.sieEnabled m = true) : s.sieMove m = s := if_neg h

/-- The precondition of a SETUP (R332). -/
theorem sieEnabled_setup_iff (s : State) (w : BitVec 64) (drx dtx : Bool) :
    s.sieEnabled (.setup w drx dtx) = true ↔
      s.daddr.getLsbD 7 = true ∧ epTypeField (s.eprAt 0) = 1#2 ∧ ctrRx (s.eprAt 0) = false ∧
      (statRx (s.eprAt 0) = 2#2 ∨ statRx (s.eprAt 0) = 3#2) ∧ (s.pma.read16 4).toNat + 8 ≤ s.cfg.pmaSize := by
  simp only [State.sieEnabled, Bool.and_eq_true, Bool.or_eq_true, beq_iff_eq, Bool.not_eq_true', decide_eq_true_eq,
    and_assoc]
  rfl

/-- The precondition of an OUT (R333). -/
theorem sieEnabled_out_iff (s : State) (n : BitVec 4) (data : List Byte) :
    s.sieEnabled (.out n data) = true ↔
      s.daddr.getLsbD 7 = true ∧ n.toNat < 8 ∧ statRx (s.eprAt n.toNat) = 3#2 ∧ ctrRx (s.eprAt n.toNat) = false ∧
      data.length ≤ s.rxBufferSize n.toNat ∧ data.length ≤ 1023 ∧
      (s.pma.read16 (8 * n.toNat + 4)).toNat + s.rxBufferSize n.toNat ≤ s.cfg.pmaSize := by
  simp only [State.sieEnabled, Bool.and_eq_true, beq_iff_eq, Bool.not_eq_true', decide_eq_true_eq, and_assoc]
  rfl

/-- The precondition of an IN (R334). -/
theorem sieEnabled_inTok_iff (s : State) (n : BitVec 4) :
    s.sieEnabled (.inTok n) = true ↔
      s.daddr.getLsbD 7 = true ∧ n.toNat < 8 ∧ statTx (s.eprAt n.toNat) = 3#2 ∧
      (s.pma.read16 (8 * n.toNat)).toNat + s.inLength n.toNat ≤ s.cfg.pmaSize := by
  simp only [State.sieEnabled, Bool.and_eq_true, beq_iff_eq, decide_eq_true_eq, and_assoc]
  rfl

/-- The precondition of TIMEOUT (R336). -/
theorem sieEnabled_timeout_iff (s : State) : s.sieEnabled .timeout = true ↔ s.seq = .wait ∧ s.istrCtr = false := by
  simp only [State.sieEnabled, Bool.and_eq_true, beq_iff_eq, Bool.not_eq_true']

/-- Settles O48: each precondition is the model's, and a move's word goes to one register only, the one of its endpoint. -/
theorem sieRegisterEffects : Obligations.SieRegisterEffects := by
  unfold Obligations.SieRegisterEffects
  intro s
  refine ⟨rfl, fun w drx dtx => ⟨fun h => ?_, fun h => ?_⟩, fun n data => ⟨fun h => ?_, fun h => ?_⟩,
    fun n => ⟨fun h => ?_, fun h => ?_⟩, fun h => ?_, fun h => ?_⟩
  · exact sieMove_of_not_enabled (mt (sieEnabled_setup_iff s w drx dtx).mp h)
  · rw [sieMove_of_enabled ((sieEnabled_setup_iff s w drx dtx).mpr h), State.sieEffect, eprAt_setEpr_self _ 0 _ (by decide)]
    exact ⟨rfl, fun m hm => eprAt_setEpr_ne _ 0 m _ hm.symm, sieSetupReg_fields (s.eprAt 0) drx dtx⟩
  · exact sieMove_of_not_enabled (mt (sieEnabled_out_iff s n data).mp h)
  · rw [sieMove_of_enabled ((sieEnabled_out_iff s n data).mpr h), State.sieEffect, eprAt_setEpr_self _ n.toNat _ h.2.1]
    exact ⟨rfl, fun m hm => eprAt_setEpr_ne _ n.toNat m _ hm.symm, sieOutReg_fields (s.eprAt n.toNat)⟩
  · exact sieMove_of_not_enabled (mt (sieEnabled_inTok_iff s n).mp h)
  · rw [sieMove_of_enabled ((sieEnabled_inTok_iff s n).mpr h), State.sieEffect, eprAt_setEpr_self _ n.toNat _ h.2.1]
    exact ⟨rfl, fun m hm => eprAt_setEpr_ne _ n.toNat m _ hm.symm, sieInReg_fields (s.eprAt n.toNat)⟩
  · exact sieMove_of_not_enabled (mt (sieEnabled_timeout_iff s).mp h)
  · exact sieMove_of_enabled ((sieEnabled_timeout_iff s).mpr h)

/-! ## A reception in packet memory -/

/-- The received count of a `COUNT_RX` word is the one put in (R76, R332). -/
theorem receivedCount_withReceivedCount (w : Half) (c : Nat) :
    receivedCount (withReceivedCount w c) = BitVec.ofNat 10 c := by
  rw [receivedCount, withReceivedCount, BitVec.extractLsb'_or, BitVec.extractLsb'_and,
    show (0xFC00#16).extractLsb' 0 10 = 0#10 from rfl, BitVec.and_zero, BitVec.zero_or,
    ← BitVec.setWidth_eq_extractLsb' (by decide), BitVec.setWidth_setWidth_of_le _ (by decide), BitVec.setWidth_eq]

/-- The size code is kept (R77, R332). -/
theorem sizeCodeOf_withReceivedCount (w : Half) (c : Nat) : sizeCodeOf (withReceivedCount w c) = sizeCodeOf w := by
  have hcount : ((BitVec.ofNat 10 c).setWidth 16).extractLsb' 10 6 = 0#6 := by
    apply BitVec.eq_of_getLsbD_eq
    intro k _
    simp
  rw [sizeCodeOf, withReceivedCount, BitVec.extractLsb'_or, BitVec.extractLsb'_and, hcount,
    show (0xFC00#16).extractLsb' 10 6 = BitVec.allOnes 6 from rfl, BitVec.and_allOnes, BitVec.or_zero]
  rfl

/-- Storing the bytes above the buffer table leaves the table as it was (R76). -/
theorem read16_writeBytes_of_table (bs : List Byte) (m : Memory) {n a : Nat} (hn : n < 8) (ha : bumpInit ≤ a) :
    (m.writeBytes a bs).read16 (btCountRx n) = m.read16 (btCountRx n) := by
  simp only [bumpInit, btCountRx] at ha ⊢
  rw [Memory.read16, read_writeBytes_ne _ _ _ _ (by omega), read_writeBytes_ne _ _ _ _ (by omega)]
  rfl

/-- Above the buffer table the store of the received count does not show. -/
theorem read_sieReceive_of_ge (m : Memory) {n : Nat} (hn : n < 8) (data : List Byte) {a : Nat} (ha : bumpInit ≤ a) :
    (sieReceive m n data).read a = (m.writeBytes (m.read16 (btAddrRx n)).toNat data).read a :=
  read_write16_ne _ _ _ _ (.inr (by simp only [bumpInit, btCountRx] at ha ⊢; omega))

/-- COUNT_RX after a reception into a buffer above the buffer table (R332, R333). -/
theorem read16_sieReceive_count {m : Memory} (hwf : m.wf = true) {n : Nat} (hn : n < 8) (data : List Byte)
    (hbase : bumpInit ≤ (m.read16 (btAddrRx n)).toNat) :
    (sieReceive m n data).read16 (btCountRx n) = withReceivedCount (m.read16 (btCountRx n)) data.length := by
  rw [sieReceive, read16_write16_self _ _ _ (wf_writeBytes _ _ _ hwf), read16_writeBytes_of_table data m hn hbase]

/-- Settles O49: the bytes lie above the buffer table, where COUNT_RX is, so the two stores do not meet. -/
theorem receptionStoresBytes : Obligations.ReceptionStoresBytes := by
  unfold Obligations.ReceptionStoresBytes
  intro m n data hwf hn _ hbase
  have hcount := read16_sieReceive_count hwf hn data hbase
  refine ⟨?_, ?_, ?_, fun a hbuf htable => ?_⟩
  · rw [readBytes_congr _ _ fun a ha _ => read_sieReceive_of_ge m hn data (hbase.trans ha)]
    exact readBytes_writeBytes_self data m _ hwf
  · exact (congrArg receivedCount hcount).trans (receivedCount_withReceivedCount _ _)
  · exact (congrArg sizeCodeOf hcount).trans (sizeCodeOf_withReceivedCount _ _)
  · exact (read_write16_ne _ _ _ _ htable).trans (read_writeBytes_ne _ _ _ _ hbuf)

end Sys2Proof.Machine
end


section
/-! A preempted command of APP (R317, R370): no access reads what APP keeps of a preempted command, so the accesses do the
same with and without it. -/

namespace Sys2Proof.Machine

/-- The state without a preempted command and without a split point. -/
def State.unsplit (s : State) : State := { s with app := [], appSplit := none }

/-- `unsplit` after an outcome that is a next state. -/
def unsplitOut (o : Out) : Out := andThen o fun t => .next t.unsplit

theorem unsplit_of_not_preempted {s : State} (h : s.app = []) : s.unsplit = { s with appSplit := none } := by
  rw [State.unsplit, ← h]

theorem sieEnabled_unsplit (s : State) (m : SieMove) : s.unsplit.sieEnabled m = s.sieEnabled m := by cases m <;> rfl

theorem sieEffect_unsplit (s : State) (m : SieMove) : s.unsplit.sieEffect m = (s.sieEffect m).unsplit := by
  cases m <;> rfl

theorem sieMove_unsplit (s : State) (m : SieMove) : s.unsplit.sieMove m = (s.sieMove m).unsplit := by
  rw [State.sieMove, State.sieMove, sieEnabled_unsplit, sieEffect_unsplit, apply_ite State.unsplit]

theorem sieMoves_unsplit (ms : List SieMove) (s : State) : s.unsplit.sieMoves ms = (s.sieMoves ms).unsplit := by
  induction ms generalizing s with
  | nil => rfl
  | cons m ms ih => rw [State.sieMoves, sieMove_unsplit, ih, State.sieMoves]

theorem pause_unsplit (s : State) : s.unsplit.pause = s.pause.unsplit := by
  cases hr : s.race with
  | nil => rw [pause_of_quiet hr, pause_of_quiet (show s.unsplit.race = [] from hr)]
  | cons ms rest =>
    rw [State.pause, State.pause, hr, show s.unsplit.race = _ from hr]
    exact sieMoves_unsplit ms { s with race := rest }

theorem store16_unsplit (a : Nat) (w : Half) (s : State) : store16 a w s.unsplit = unsplitOut (store16 a w s) := by
  rw [store16, store16, pause_unsplit, apply_ite unsplitOut]
  rfl

theorem load16_unsplit {k : Half → State → Out} (hk : ∀ u s, k u (State.unsplit s) = unsplitOut (k u s)) (a : Nat)
    (s : State) : load16 a s.unsplit k = unsplitOut (load16 a s k) := by
  rw [load16, load16, pause_unsplit, hk, apply_ite unsplitOut]
  rfl

theorem doAccess_unsplit (a : Access) (s : State) : doAccess a s.unsplit = unsplitOut (doAccess a s) := by
  cases a with
  | storeUnit n k w => exact store16_unsplit _ w s
  | setCount n c => exact store16_unsplit _ c s
  | readReg n => rw [doAccess, readReg, pause_unsplit]; rfl
  | armReg n => rw [doAccess, writeReg, pause_unsplit]; rfl
  | loadUnit n k keepHi =>
    rw [doAccess, doAccess]
    exact load16_unsplit (fun _ _ => rfl) _ s
  | finishRead count => rfl

theorem runAccesses_unsplit (as : List Access) (s : State) :
    runAccesses as s.unsplit = unsplitOut (runAccesses as s) := by
  induction as generalizing s with
  | nil => rfl
  | cons a as ih =>
    rw [runAccesses, doAccess_unsplit, unsplitOut, andThen_assoc, runAccesses, unsplitOut, andThen_assoc]
    exact congrArg (andThen _) (funext ih)

/-- A command preempted after j accesses makes those and leaves the others. -/
theorem runApp_of_split {s : State} {j : Nat} (h : s.appSplit = some j) (as : List Access) :
    runApp as s = andThen (runAccesses (as.take j) s) fun t => .next { t with app := as.drop j, appSplit := none } := by
  rw [runApp, h]

/-- What a preempted command left goes on from the state without it. -/
theorem resumeApp_left (t : State) (as : List Access) :
    resumeApp none { t with app := as, appSplit := none } = runAccesses as t.unsplit := runApp_of_whole rfl as

/-- The first accesses do the same with and without the split point, and the command goes on from the state they leave. -/
theorem andThen_runApp_resumeApp {s : State} {j : Nat} (h : s.appSplit = some j) (as : List Access) :
    andThen (runApp as s) (resumeApp none) = runAccesses as s.unsplit := by
  calc andThen (runApp as s) (resumeApp none)
    _ = andThen (runAccesses (as.take j) s) fun t => runAccesses (as.drop j) t.unsplit := by
        rw [runApp_of_split h, andThen_assoc]
        simp only [andThen_next, resumeApp_left]
    _ = andThen (runAccesses (as.take j) s.unsplit) (runAccesses (as.drop j)) := by
        rw [runAccesses_unsplit, unsplitOut, andThen_assoc]
        simp only [andThen_next]
    _ = runAccesses as s.unsplit := by rw [← runAccesses_append, List.take_append_drop]

/-- Settles O47: a state without a preempted command differs from `unsplit` in the split point only. -/
theorem preemptedCommandResumes : Obligations.PreemptedCommandResumes := by
  unfold Obligations.PreemptedCommandResumes
  intro as s j happ
  rw [andThen_runApp_resumeApp rfl, unsplit_of_not_preempted (by exact happ), runApp_of_whole rfl]

end Sys2Proof.Machine
end


section
/-! Interrupt entry and exit (R317, R318, R258): the steps that start and end an invocation. -/

namespace Sys2Proof.Machine

/-- A line of the interrupt starts an invocation (R116, R317). -/
theorem step_of_idle_irq {s : State} {rest : List Line} (hs : s.seq = .idle) (hm : s.irqMasked = false)
    (hp : s.program = .irq :: rest) : step s = .next (enterInterrupt { s with program := rest }) := by
  rw [step_of_move (by rw [fetch_of_idle hs, fetchIdle, hp]; exact if_neg (by rw [hm]; nofun)), leaving, left_of_ne]
  nofun

/-- With no line left a pending request starts one (R250, R315). -/
theorem step_of_idle_request {s : State} (hs : s.seq = .idle) (hm : s.irqMasked = false) (hp : s.program = [])
    (hr : s.irqRequest = true) : step s = .next (enterInterrupt s) := by
  rw [step_of_move (by rw [fetch_of_idle hs, fetchIdle, hp]; exact if_pos (by rw [hr, hm]; rfl)), leaving, left_of_ne]
  nofun

/-- An invocation whose final write is done ends (R258). -/
theorem step_of_leave {s : State} (hs : s.seq = .run .leave) : step s = .next (exitInterrupt s) := by
  rw [step_of_move (by rw [fetch_of_run hs, fetchRun]), leaving, left_of_ne]
  nofun

/-- Settles O39: one lemma per step. -/
theorem interruptEntryAndExit : Obligations.InterruptEntryAndExit := by
  unfold Obligations.InterruptEntryAndExit
  intro s rest
  exact ⟨step_of_idle_irq, fun hs hm hp hr => step_of_idle_request hs hm hp (Bool.or_eq_true_iff.mpr hr), step_of_leave⟩

end Sys2Proof.Machine
end
